-- ==== Sys2Proof/Word.lean ====
section
/-! DEFINITION. Sys2Proof/Word.lean: the word types of the core (00_scope.md R8: u8, u16, u32, all unsigned). -/

namespace Sys2Proof

/-- `u8`: a field element, an index byte or a byte of memory (R8, R11). -/
abbrev Byte := BitVec 8

/-- `u16`: a count or a length (R8, R43, R190). -/
abbrev Half := BitVec 16

/-- `u32`: a register value, a command word or a memory address (R8, D18). -/
abbrev Word := BitVec 32

/-- The size of the memory space: 2^32 bytes (R70). -/
def memSize : Nat := 4294967296

end Sys2Proof
end

