-- ==== Sys2Proof/Config.lean ====
section
/-! DEFINITION. Sys2Proof/Config.lean: the build parameter `POLY`, the platform's parameters, and the free values.
The parameters are plain data that State carries (R6: "A model takes each OPEN parameter as an argument"), so that every
statement about all states holds for all parameters. The free values are opaque: nothing can be proved of what they are. -/

namespace Sys2Proof

/-- The 30 polynomials a core can be built with (R46). A core with another polynomial is not built (R7, R216), so there
is no value for one here. Each constructor is named by the hexadecimal value of the polynomial. -/
inductive Poly where
  | p11B | p11D | p12B | p12D | p139 | p13F | p14D | p15F | p163 | p165
  | p169 | p171 | p177 | p17B | p187 | p18B | p18D | p19F | p1A3 | p1A9
  | p1B1 | p1BD | p1C3 | p1CF | p1D7 | p1DD | p1E7 | p1F3 | p1F5 | p1F9
deriving DecidableEq, Repr

/-- The direction of a memory-port access (R72). -/
inductive Dir where
  | read | write
deriving DecidableEq, Repr

/-- What is special about a region of the memory space, as the platform lays it out. -/
inductive RegionKind where
  /-- a read in the region returns a bus error: `MEM_OK(a, read)` is false (R72) -/
  | noRead
  /-- a write in the region returns a bus error: `MEM_OK(a, write)` is false (R72) -/
  | noWrite
  /-- accesses in the region have side effects (a device register, R79) -/
  | device
  /-- the platform maps the region to the register window (R70) -/
  | window
deriving DecidableEq, Repr

/-- A range of bytes `[base, base + len)` (R76), on unbounded integers. -/
structure ByteRange where
  base : Nat
  len  : Nat
deriving DecidableEq, Repr

/-- A special region of the platform's memory space. -/
structure Region where
  range : ByteRange
  kind  : RegionKind
deriving DecidableEq, Repr

/-- The platform's parameters (R6): where it places the register window in the hosts' address space (`REG_BASE`), and the
special regions of the memory space, from which `MEM_OK` follows. Every predicate on the finite memory space is the one
of some list of regions, so no `MEM_OK` is left out. -/
structure Platform where
  regBase : Nat
  regions : List Region
deriving DecidableEq, Repr

/-- Free value: the byte at address `a` that draw number `n` leaves there, where the spec says a byte is unspecified
("a model writes any value to each": R79, R84, R85, R215, R242). DESIGN CHOICE (log 7): its arguments are the draw counter
of State and the address. -/
opaque Config.freeByte : Nat → Nat → Byte

/-- Free value: what a device at address `a` answers to a read during draw number `n` (R79). (log 12) -/
opaque Config.deviceByte : Nat → Nat → Byte

/-- Free value: the scalar result of draw number `n`, where the spec leaves the result of PEVAL open (R79, R84). (log 11) -/
opaque Config.freeResult : Nat → Byte

end Sys2Proof
end

