-- ==== Sys2Proof/Machine/State.lean ====
section
/-! DEFINITION. Sys2Proof/Machine/State.lean: the state of the core, its memory and its platform, as plain data, and the
state right after reset (10_state.md, 20_memory.md, 70_reset_and_hazards.md). -/

namespace Sys2Proof.Machine

/-- The memory space (R70): (address, byte) pairs with strictly rising addresses below 2^32 and no entry equal to what an
unlisted address reads as (`Memory.wf` in Ops.lean says so). -/
abbrev Memory := List Host.Cell

/-- `LC`, the latched command (R39, R44): the four fields of the command word, and the argument registers as they stood
at issue. -/
structure Latched where
  op   : Byte
  a    : Byte
  b    : Byte
  rsv  : Byte
  argA : Word
  argB : Word
  argN : Half
deriving DecidableEq, Repr

/-- `LC` when no command runs. Its content is then not architectural (R44, R241 "discarded"): all zero is a
DESIGN CHOICE (log 15) that nothing reads. -/
def Latched.idle : Latched :=
  { op := 0x00#8, a := 0x00#8, b := 0x00#8, rsv := 0x00#8, argA := 0#32, argB := 0#32, argN := 0#16 }

/-- The width of a host's register access (R75). -/
inductive AccessWidth where
  | byte | half | word
deriving DecidableEq, Repr

/-- One access of a host. -/
inductive HostAccess where
  /-- a read of the register window, at an address of the host's own address space (R33) -/
  | regRead (addr : Nat) (width : AccessWidth)
  /-- a write of the register window (R33) -/
  | regWrite (addr : Nat) (width : AccessWidth) (value : Word)
  /-- a read of one byte of the memory space (R84) -/
  | memRead (addr : Word)
  /-- a write of one byte of the memory space (R82, R84) -/
  | memWrite (addr : Word) (value : Byte)
  /-- the platform's `HOST_FENCE` (R6, R82, R83) -/
  | fence
deriving DecidableEq, Repr

/-- What happens next at the core, in the order in which it happens (log 3). -/
inductive Input where
  /-- the core's turn: a running command runs and completes (R252, R253) -/
  | core
  /-- a host's access -/
  | host (h : HostAccess)
  /-- the platform asserts the hardware reset input (R240) -/
  | resetAssert
  /-- the platform releases the hardware reset input (R243) -/
  | resetRelease
deriving DecidableEq, Repr

/-- The answer to a host's read. -/
inductive Reply where
  | reg (value : Word)
  | mem (value : Byte)
deriving DecidableEq, Repr

/-- Why a step stops with a fault. -/
inductive Fault where
  /-- Raised by PEVAL, PEVALV and INTERP when a byte they access is mapped by the platform to the register window: such
  an access "has no defined effect" (R70). Safe: the model stops where the hardware goes on in an undefined way. -/
  | windowThroughMemoryPort
deriving DecidableEq, Repr

/-- Why a step is refused: the model gives it no meaning. -/
inductive Refusal where
  /-- Raised by an arm of `exec` that has no meaning yet. Safe. -/
  | notModelled (mnemonic : String)
  /-- Raised by a host's register access that is not an aligned 32-bit access: "a model refuses the host step that makes
  it" (R75). Safe. -/
  | registerAccessShape
  /-- Raised by a host's register access while the hardware reset input is asserted: "a model refuses them" (R243). Safe. -/
  | registerAccessInReset
  /-- Raised by a host's register access at an address outside the window: it is no access of this core (R33). Safe. -/
  | outsideRegisterWindow
  /-- Raised by a host's memory access at an address that the platform maps to the register window: the window is reached
  through the register port only (R70, log 18). Safe. -/
  | windowAsHostMemory
deriving DecidableEq, Repr

/-- The state. `ID` is a constant, `GEN`, `EXP` and `LOG` are functions of `poly`, `CTRL` and `CMD` store nothing. -/
structure State where
  /-- `STATUS.BUSY` (R38) -/
  busy     : Bool
  /-- `STATUS.OVR` (R38) -/
  ovr      : Bool
  /-- `STATUS.ERR` (R38, R212) -/
  err      : Byte
  /-- `RESULT[7:0]`; bits 31:8 read 0 (R40) -/
  result   : Byte
  /-- `ARG_A` (R41) -/
  argA     : Word
  /-- `ARG_B` (R42) -/
  argB     : Word
  /-- `ARG_N[15:0]`; bits 31:16 read 0 (R43) -/
  argN     : Half
  /-- `LC` (R44) -/
  lc       : Latched
  /-- the memory space (R70) -/
  mem      : Memory
  /-- the build parameter `POLY` (R6, R7, R36) -/
  poly     : Poly
  /-- the platform's parameters (R6) -/
  platform : Platform
  /-- the hardware reset input is asserted (R240, R243) -/
  inReset  : Bool
  /-- the model's own: output ranges that a broken host duty makes unspecified at completion (R84, log 9) -/
  spoiled  : List ByteRange
  /-- the model's own: the number of free values drawn so far (log 7) -/
  draws    : Nat
  /-- the model's own: what happens next, in order (log 3) -/
  inputs   : List Input
  /-- the model's own: the answers hosts have got, newest first (log 19) -/
  replies  : List Reply
deriving DecidableEq, Repr

/-- The state right after power-on reset (R241, R243) of a core built with the polynomial `p` on the platform `pl`. -/
def State.resetOf (p : Poly) (pl : Platform) : State :=
  { busy := false, ovr := false, err := 0x00#8, result := 0x00#8, argA := 0#32, argB := 0#32, argN := 0#16,
    lc := Latched.idle, mem := [], poly := p, platform := pl, inReset := false, spoiled := [], draws := 0,
    inputs := [], replies := [] }

/-- The state right after reset (R241). DESIGN CHOICE (log 5, log 6): of the build and platform parameters it takes
`POLY = 0x11B`, `REG_BASE = 0` and no special region; `State.resetOf` takes any. -/
def State.reset : State := State.resetOf .p11B { regBase := 0, regions := [] }

end Sys2Proof.Machine
end

