-- ==== Sys2Proof/Machine/Flags.lean ====
section
/-! DEFINITION. Sys2Proof/Machine/Flags.lean: the error codes (R212) and the `STATUS` word (R38). The core has no other
flag: no carry, overflow or sign (R135). -/

namespace Sys2Proof.Machine

/-- The errors a command can raise (R212). -/
inductive ErrorKind where
  | param | malformed | duplicate | insufficient | zeroInverse | zeroLog | illegal | range | busError
deriving DecidableEq, Repr

/-- `code(E)` (R211, R212). -/
def ErrorKind.code : ErrorKind → Byte
  | .param => 0x01#8
  | .malformed => 0x02#8
  | .duplicate => 0x03#8
  | .insufficient => 0x04#8
  | .zeroInverse => 0x05#8
  | .zeroLog => 0x06#8
  | .illegal => 0x07#8
  | .range => 0x08#8
  | .busError => 0x09#8

/-- The code of success, OK (R212). -/
def errOk : Byte := 0x00#8

/-- `STATUS` as a host reads it: `BUSY` bit 0, `OVR` bit 1, `ERR` bits 15:8, every other bit 0 (R38). -/
def State.statusWord (s : State) : Word :=
  0x0000#16 ++ s.err ++ 0x00#6 ++ BitVec.ofBool s.ovr ++ BitVec.ofBool s.busy

end Sys2Proof.Machine
end

