-- ==== Sys2Proof/Syntax.lean ====
section
/-! DEFINITION. Sys2Proof/Syntax.lean: the ten commands of GFC-1 (R102), one constructor per row of the opcode table.
Operands that a rule uses as field elements are bytes; operands it uses as integers (the exponent of POW, the index of EXP,
the coefficient count K) are natural numbers, which WellFormed bounds (R101). The pseudo-instructions SUB, NEG, SQR and
ONE are other spellings of ADD, MUL and EXP and have no constructor (R108). -/

namespace Sys2Proof

inductive Instr where
  /-- `ADD a, b` (R136) -/
  | add (a b : Byte)
  /-- `MUL a, b` (R137) -/
  | mul (a b : Byte)
  /-- `DIV a, b` (R138) -/
  | div (a b : Byte)
  /-- `INV a` (R139) -/
  | inv (a : Byte)
  /-- `POW a, e` (R140) -/
  | pow (a : Byte) (e : Nat)
  /-- `EXP i` (R141) -/
  | exp (i : Nat)
  /-- `LOG a` (R142) -/
  | log (a : Byte)
  /-- `PEVAL x, K` (R172) -/
  | peval (x : Byte) (k : Nat)
  /-- `PEVALV x, K` (R173) -/
  | pevalv (x : Byte) (k : Nat)
  /-- `INTERP` (R193) -/
  | interp
deriving DecidableEq, Repr

end Sys2Proof
end

