-- ==== Sys2Proof/WellFormed.lean ====
section
/-! DEFINITION. Sys2Proof/WellFormed.lean: which terms of `Instr` a command word can hold. An integer operand is an
unsigned 8-bit field, 0..255 (R101, R107). `K = 0` is well formed: it is a word the core decodes and then rejects with
PARAM (R172, R173). -/

namespace Sys2Proof

/-- Every integer operand fits its 8-bit field (R101). -/
def Instr.wf : Instr → Bool
  | .add _ _ => true
  | .mul _ _ => true
  | .div _ _ => true
  | .inv _ => true
  | .pow _ e => decide (e < 256)
  | .exp i => decide (i < 256)
  | .log _ => true
  | .peval _ k => decide (k < 256)
  | .pevalv _ k => decide (k < 256)
  | .interp => true

end Sys2Proof
end

