-- ==== Sys2Proof/Decode.lean ====
section
/-! DEFINITION. Sys2Proof/Decode.lean: decoding (R104), total on any bytes, every rejection by name; then the encoder (R107). -/

namespace Sys2Proof

/-- Why a word is no command. The core reports each of them as ILLEGAL (R104, R105). -/
inductive DecodeError where
  /-- `RSV` is not `0x00` (R103) -/
  | reservedFieldNotZero
  /-- an operand field marked "must be 0" is not `0x00` (R103) -/
  | operandFieldNotZero
  /-- the opcode is not in the table (R102, R105) -/
  | reservedOpcode
  /-- not exactly four bytes: every command word is exactly 32 bits (R106) -/
  | wrongLength
deriving DecidableEq, Repr

/-- R104: `decode(LC)`, on the four fields of the command word. -/
def decodeFields (op a b rsv : Byte) : Except DecodeError Instr :=
  if rsv ≠ 0x00#8 then .error .reservedFieldNotZero
  else if op = 0x01#8 then .ok (.add a b)
  else if op = 0x02#8 then .ok (.mul a b)
  else if op = 0x03#8 then .ok (.div a b)
  else if op = 0x04#8 then (if b ≠ 0x00#8 then .error .operandFieldNotZero else .ok (.inv a))
  else if op = 0x05#8 then .ok (.pow a b.toNat)
  else if op = 0x06#8 then (if b ≠ 0x00#8 then .error .operandFieldNotZero else .ok (.exp a.toNat))
  else if op = 0x07#8 then (if b ≠ 0x00#8 then .error .operandFieldNotZero else .ok (.log a))
  else if op = 0x10#8 then .ok (.peval a b.toNat)
  else if op = 0x11#8 then .ok (.pevalv a b.toNat)
  else if op = 0x12#8 then
    (if a ≠ 0x00#8 ∨ b ≠ 0x00#8 then .error .operandFieldNotZero else .ok .interp)
  else .error .reservedOpcode

/-- The field `OP` of a command word (R100). -/
def fieldOp (w : Word) : Byte := w.extractLsb' 0 8

/-- The field `A` of a command word (R100). -/
def fieldA (w : Word) : Byte := w.extractLsb' 8 8

/-- The field `B` of a command word (R100). -/
def fieldB (w : Word) : Byte := w.extractLsb' 16 8

/-- The field `RSV` of a command word (R100). -/
def fieldRsv (w : Word) : Byte := w.extractLsb' 24 8

/-- The decoding of a command word (R100, R104). -/
def decodeWord (w : Word) : Except DecodeError Instr :=
  decodeFields (fieldOp w) (fieldA w) (fieldB w) (fieldRsv w)

/-- The word that four bytes at rising offsets make: little-endian lanes, bits 7:0 at offset +0 (R74). -/
def wordOfBytes (b0 b1 b2 b3 : Byte) : Word := b3 ++ b2 ++ b1 ++ b0

/-- The four bytes of a word at rising offsets (R74). -/
def bytesOfWord (w : Word) : List Byte := [fieldOp w, fieldA w, fieldB w, fieldRsv w]

/-- The decoding of the bytes of a command as a host sends them (R74, R106): exactly four. -/
def decodeBytes : List Byte → Except DecodeError Instr
  | [b0, b1, b2, b3] => decodeWord (wordOfBytes b0 b1 b2 b3)
  | _ => .error .wrongLength

/-- The instruction that the decoder reads from a word of `spec/opcode_table.json`'s numbering: the low `nbits` bits of
`w`, every higher bit 0, laid out as four bytes (R74) and decoded; `none` where it is refused. -/
def decodeTableWord (nbits w : Nat) : Option Instr :=
  match decodeBytes (bytesOfWord (BitVec.ofNat 32 (w % 2 ^ nbits))) with
  | .ok i => some i
  | .error _ => none

/-- The command word `{RSV, B, A, OP}` with `RSV = 0` (R100). -/
def packWord (op a b : Byte) : Word := 0x00#8 ++ b ++ a ++ op

/-- R107: the command word of an instruction. -/
def encode : Instr → Word
  | .add a b => packWord 0x01#8 a b
  | .mul a b => packWord 0x02#8 a b
  | .div a b => packWord 0x03#8 a b
  | .inv a => packWord 0x04#8 a 0x00#8
  | .pow a e => packWord 0x05#8 a (BitVec.ofNat 8 e)
  | .exp i => packWord 0x06#8 (BitVec.ofNat 8 i) 0x00#8
  | .log a => packWord 0x07#8 a 0x00#8
  | .peval x k => packWord 0x10#8 x (BitVec.ofNat 8 k)
  | .pevalv x k => packWord 0x11#8 x (BitVec.ofNat 8 k)
  | .interp => packWord 0x12#8 0x00#8 0x00#8

end Sys2Proof
end

