-- ==== Sys2Proof/Machine/Gf.lean ====
section
/-! DEFINITION. Sys2Proof/Machine/Gf.lean: the field functions (40_field.md section 1), Horner's method (R171) and the
Lagrange weights (R192), as pure functions of the polynomial and their operands. -/

namespace Sys2Proof

/-- `WHITELIST` (R46). -/
def Poly.all : List Poly :=
  [.p11B, .p11D, .p12B, .p12D, .p139, .p13F, .p14D, .p15F, .p163, .p165] ++
  [.p169, .p171, .p177, .p17B, .p187, .p18B, .p18D, .p19F, .p1A3, .p1A9] ++
  [.p1B1, .p1BD, .p1C3, .p1CF, .p1D7, .p1DD, .p1E7, .p1F3, .p1F5, .p1F9]

/-- The polynomial as a 9-bit value, bit `i` the coefficient of `x^i` (R36, R46). -/
def Poly.value : Poly → BitVec 9
  | .p11B => 0x11B#9 | .p11D => 0x11D#9 | .p12B => 0x12B#9 | .p12D => 0x12D#9 | .p139 => 0x139#9
  | .p13F => 0x13F#9 | .p14D => 0x14D#9 | .p15F => 0x15F#9 | .p163 => 0x163#9 | .p165 => 0x165#9
  | .p169 => 0x169#9 | .p171 => 0x171#9 | .p177 => 0x177#9 | .p17B => 0x17B#9 | .p187 => 0x187#9
  | .p18B => 0x18B#9 | .p18D => 0x18D#9 | .p19F => 0x19F#9 | .p1A3 => 0x1A3#9 | .p1A9 => 0x1A9#9
  | .p1B1 => 0x1B1#9 | .p1BD => 0x1BD#9 | .p1C3 => 0x1C3#9 | .p1CF => 0x1CF#9 | .p1D7 => 0x1D7#9
  | .p1DD => 0x1DD#9 | .p1E7 => 0x1E7#9 | .p1F3 => 0x1F3#9 | .p1F5 => 0x1F5#9 | .p1F9 => 0x1F9#9

/-- `GEN` (R37, R47): the table of R47, the smallest generator of the multiplicative group. -/
def Poly.gen : Poly → Byte
  | .p11B => 3#8 | .p11D => 2#8 | .p12B => 2#8 | .p12D => 2#8 | .p139 => 3#8 | .p13F => 3#8
  | .p14D => 2#8 | .p15F => 2#8 | .p163 => 2#8 | .p165 => 2#8 | .p169 => 2#8 | .p171 => 2#8
  | .p177 => 3#8 | .p17B => 9#8 | .p187 => 2#8 | .p18B => 6#8 | .p18D => 2#8 | .p19F => 3#8
  | .p1A3 => 3#8 | .p1A9 => 2#8 | .p1B1 => 6#8 | .p1BD => 7#8 | .p1C3 => 2#8 | .p1CF => 2#8
  | .p1D7 => 7#8 | .p1DD => 6#8 | .p1E7 => 2#8 | .p1F3 => 6#8 | .p1F5 => 2#8 | .p1F9 => 3#8

/-- `P = POLY[7:0]` (R131). -/
def Poly.low (p : Poly) : Byte := p.value.setWidth 8

/-- R131 `xtime`: `r` times x, reduced. -/
def xtime (p : Poly) (r : Byte) : Byte := (r <<< 1) ^^^ (bif r.getLsbD 7 then p.low else 0x00#8)

/-- R131 `gf_mul`, the loop `for i in n-1 downto 0` from the partial product `r`. -/
def gfMulFrom (p : Poly) (a b : Byte) : Nat → Byte → Byte
  | 0, r => r
  | i + 1, r => gfMulFrom p a b i (bif b.getLsbD i then xtime p r ^^^ a else xtime p r)

/-- R131: `a ⊗ b`. -/
def gfMul (p : Poly) (a b : Byte) : Byte := gfMulFrom p a b 8 0x00#8

/-- R130: `a ⊕ b`. -/
def gfAdd (a b : Byte) : Byte := a ^^^ b

/-- R134: `a` multiplied by itself `e` times, with the empty product `0x01` (also for `a = 0`). -/
def gfPow (p : Poly) (a : Byte) : Nat → Byte
  | 0 => 0x01#8
  | e + 1 => gfMul p (gfPow p a e) a

/-- All 256 elements, in rising order. -/
def allBytes : List Byte := (List.range 256).map (BitVec.ofNat 8)

/-- R133: `inv(a)`, the `b` with `a ⊗ b = 0x01`. `inv(0x00)` does not exist: no command uses the value this total
function has there (log 21). -/
def gfInv (p : Poly) (a : Byte) : Byte := (allBytes.find? (fun b => gfMul p a b == 0x01#8)).getD 0x00#8

/-- R138: `a / b = a ⊗ inv(b)`. -/
def gfDiv (p : Poly) (a b : Byte) : Byte := gfMul p a (gfInv p b)

/-- R48: `EXP[i] = g^i`. -/
def gfExp (p : Poly) (i : Nat) : Byte := gfPow p p.gen i

/-- The first index from `i` on, within `fuel` tries, at which the powers of `GEN` reach `a`; `c` is `g^i`. -/
def gfLogFrom (p : Poly) (a : Byte) : Nat → Nat → Byte → Nat
  | 0, i, _ => i
  | fuel + 1, i, c => bif c == a then i else gfLogFrom p a fuel (i + 1) (gfMul p c p.gen)

/-- R49: `LOG[a]`, the `i` in 0..254 with `EXP[i] = a`. `LOG` has no value at 0: no command uses the value this total
function has there (log 21). -/
def gfLog (p : Poly) (a : Byte) : Nat := gfLogFrom p a 255 0 0x01#8

/-- R171: `horner(c, x)`. The list is `c[0..K-1]`; the loop runs from the last coefficient to the first. -/
def horner (p : Poly) (x : Byte) (c : List Byte) : Byte := c.foldr (fun ci r => gfAdd (gfMul p r x) ci) 0x00#8

/-- R192: `w[i]`, the product over `j ≠ i` of `x[j] ⊗ inv(x[j] ⊕ x[i])`, with the empty product `0x01`. -/
def lagrangeWeight (p : Poly) (xs : List Byte) (i : Nat) : Byte :=
  (xs.eraseIdx i).foldl (fun w xj => gfMul p w (gfMul p xj (gfInv p (gfAdd xj (xs.getD i 0x00#8))))) 0x01#8

/-- R193: the weights of all shares, in descriptor order. -/
def lagrangeWeights (p : Poly) (xs : List Byte) : List Byte := (List.range xs.length).map (lagrangeWeight p xs)

/-- R193: `s ⊕ (y_i ⊗ w[i])` over all shares `i`, from `s = 0x00`: one recovered byte. -/
def lagrangeSum (p : Poly) (ys ws : List Byte) : Byte := (List.zipWith (gfMul p) ys ws).foldl gfAdd 0x00#8

end Sys2Proof
end

