-- ==== Sys2Proof/Machine/Memory.lean ====
section
/-! DEFINITION. Sys2Proof/Machine/Memory.lean: reading and writing the memory space (R9, R70, R71) in its one canonical
form. -/

namespace Sys2Proof.Machine

/-- What an address that the memory does not list reads as. DESIGN CHOICE (log 1): the spec gives no power-on contents;
95_test_vectors.md takes "memory not named is `00`". -/
def unlistedByte : Byte := 0x00#8

/-- `MemRead(a, 1)` of plain memory (R9). -/
def Memory.read : Memory → Nat → Byte
  | [], _ => unlistedByte
  | (k, v) :: m, a => bif k == a then v else Memory.read m a

/-- The entry of a byte, none where the byte is what an unlisted address reads as. -/
def Memory.entry (a : Nat) (v : Byte) : Memory := bif v == unlistedByte then [] else [(a, v)]

/-- `MemWrite(a, 1, v)` of plain memory (R9), keeping the canonical form. -/
def Memory.write : Memory → Nat → Byte → Memory
  | [], a, v => Memory.entry a v
  | (k, u) :: m, a, v =>
    bif k == a then Memory.entry a v ++ m
    else bif Nat.blt a k then Memory.entry a v ++ (k, u) :: m
    else (k, u) :: Memory.write m a v

/-- Every listed address is at least `lo` and below 2^32, addresses rise strictly, and no listed byte is what an unlisted
address reads as. -/
def Memory.wfFrom : Nat → Memory → Bool
  | _, [] => true
  | lo, (k, v) :: m => Nat.ble lo k && Nat.blt k memSize && v != unlistedByte && Memory.wfFrom (k + 1) m

/-- The canonical form of the memory. -/
def Memory.wf (m : Memory) : Bool := Memory.wfFrom 0 m

/-- The bytes of a range, in address order (R71: one access a byte). -/
def Memory.readBytes (m : Memory) (base len : Nat) : List Byte := (List.range len).map (fun i => Memory.read m (base + i))

/-- Bytes written at rising addresses from `base`. -/
def Memory.writeBytes : Memory → Nat → List Byte → Memory
  | m, _, [] => m
  | m, base, v :: vs => Memory.writeBytes (Memory.write m base v) (base + 1) vs

end Sys2Proof.Machine
end

