-- ==== Sys2Proof/Machine/Operands.lean ====
section
/-! DEFINITION. Sys2Proof/Machine/Operands.lean: ranges (R76), what the platform answers on the memory port (R72, R79, R70),
the fields of an INTERP descriptor (R73, R190), and the input and output ranges of each command (R172, R173, R193). -/

namespace Sys2Proof

/-- The range holds the byte at `a`. -/
def ByteRange.covers (r : ByteRange) (a : Nat) : Bool := Nat.ble r.base a && Nat.blt a (r.base + r.len)

/-- The addresses of a range, rising. -/
def ByteRange.addrs (r : ByteRange) : List Nat := (List.range r.len).map (fun i => r.base + i)

/-- `check_range(base, len)` does not raise: `base + len ≤ 2^32`, without wrap-around (R9, R76). -/
def ByteRange.valid (r : ByteRange) : Bool := Nat.ble (r.base + r.len) memSize

/-- Two ranges share a byte (R85). -/
def ByteRange.meets (r q : ByteRange) : Bool :=
  Nat.blt (max r.base q.base) (min (r.base + r.len) (q.base + q.len))

/-- The part of a range that lies in the memory space. -/
def ByteRange.clip (r : ByteRange) : ByteRange := { base := r.base, len := min r.len (memSize - r.base) }

/-- The address lies in a region of the given kind. -/
def Platform.inKind (pl : Platform) (k : RegionKind) (a : Nat) : Bool :=
  pl.regions.any (fun r => decide (r.kind = k) && r.range.covers a)

/-- `MEM_OK(a, d)` (R6, R72): total, and fixed for the platform. -/
def Platform.memOk (pl : Platform) (a : Nat) : Dir → Bool
  | .read => !pl.inKind .noRead a
  | .write => !pl.inKind .noWrite a

/-- The address has side effects on read or write (R79). -/
def Platform.isDevice (pl : Platform) (a : Nat) : Bool := pl.inKind .device a

/-- The platform maps the address to the register window (R70). -/
def Platform.isWindow (pl : Platform) (a : Nat) : Bool := pl.inKind .window a

/-- The offset into the register window of an address of the hosts' address space, none outside the window (R33). -/
def Platform.windowOffset (pl : Platform) (addr : Nat) : Option Nat :=
  bif Nat.ble pl.regBase addr && Nat.blt addr (pl.regBase + 64) then some (addr - pl.regBase) else none

/-- Every byte of the ranges can be accessed in the direction `d` without a bus error (R72). -/
def Platform.allOk (pl : Platform) (d : Dir) (rs : List ByteRange) : Bool :=
  rs.all (fun r => r.addrs.all (fun a => pl.memOk a d))

/-- Some byte of the ranges is a device's (R79). -/
def Platform.anyDevice (pl : Platform) (rs : List ByteRange) : Bool := rs.any (fun r => r.addrs.any pl.isDevice)

/-- Some access of the ranges' bytes in the direction `d` reaches the register window (R70): the byte is mapped to it, and
the access takes place, which it does not where `MEM_OK` is false (R9). -/
def Platform.anyWindow (pl : Platform) (d : Dir) (rs : List ByteRange) : Bool :=
  rs.any (fun r => r.addrs.any (fun a => pl.isWindow a && pl.memOk a d))

namespace Machine

/-- `MemRead(a, 1)` on the memory port, where it completes: the memory's byte, or a free value from a device (R9, R79). -/
def State.portByte (s : State) (a : Nat) : Byte :=
  bif s.platform.isDevice a then Config.deviceByte s.draws a else Memory.read s.mem a

/-- `MemRead` of every byte of a range, in address order. -/
def State.portBytes (s : State) (r : ByteRange) : List Byte := r.addrs.map s.portByte

/-- A 16-bit field of memory, little-endian (R73). -/
def State.portHalf (s : State) (a : Nat) : Half := s.portByte (a + 1) ++ s.portByte a

/-- A 32-bit field of memory, little-endian (R73). -/
def State.portWord (s : State) (a : Nat) : Word :=
  s.portByte (a + 3) ++ s.portByte (a + 2) ++ s.portByte (a + 1) ++ s.portByte a

/-- A share descriptor (R190). The reserved byte at offset 1 is read and its value ignored. -/
structure Descriptor where
  x     : Byte
  len   : Half
  yAddr : Word
deriving DecidableEq, Repr

/-- The descriptor at `d` (R190, R193). -/
def State.descriptorAt (s : State) (d : Nat) : Descriptor :=
  { x := s.portByte d, len := s.portHalf (d + 2), yAddr := s.portWord (d + 4) }

/-- The range of `L` y-values of a share (R193). -/
def Descriptor.yRange (d : Descriptor) (len : Nat) : ByteRange := { base := d.yAddr.toNat, len := len }

/-- PEVAL: input range `[base, base + K)` (R172). -/
def State.pevalInput (s : State) (k : Nat) : ByteRange := { base := s.lc.argA.toNat, len := k }

/-- PEVALV: input range `[src, src + N·K)` (R173). -/
def State.pevalvInput (s : State) (k : Nat) : ByteRange := { base := s.lc.argA.toNat, len := s.lc.argN.toNat * k }

/-- PEVALV: output range `[dst, dst + N)` (R173). -/
def State.pevalvOutput (s : State) : ByteRange := { base := s.lc.argB.toNat, len := s.lc.argN.toNat }

/-- PEVALV: row `p`, `K` bytes at `src + p·K` (R173). -/
def State.pevalvRow (s : State) (k p : Nat) : ByteRange := { base := s.lc.argA.toNat + p * k, len := k }

/-- INTERP: the descriptor table `[tbl, tbl + 8·M)` (R193). -/
def State.interpTable (s : State) : ByteRange := { base := s.lc.argA.toNat, len := 8 * s.lc.argN.toNat }

/-- INTERP: the `M` descriptors, descriptor `i` at `tbl + 8·i` (R190, R193). -/
def State.interpShares (s : State) : List Descriptor :=
  (List.range s.lc.argN.toNat).map (fun i => s.descriptorAt (s.lc.argA.toNat + 8 * i))

/-- INTERP: `L = len[0]` (R193). -/
def State.interpLen (s : State) : Nat :=
  match s.interpShares with
  | [] => 0
  | d :: _ => d.len.toNat

/-- INTERP: the y-value ranges `[y_addr[i], y_addr[i] + L)` (R193). -/
def State.interpInputs (s : State) : List ByteRange := s.interpShares.map (fun d => d.yRange s.interpLen)

/-- INTERP: all input ranges, the table first (R193). -/
def State.interpRanges (s : State) : List ByteRange := s.interpTable :: s.interpInputs

/-- INTERP: the output range `[dst, dst + L)` (R193). -/
def State.interpOutput (s : State) : ByteRange := { base := s.lc.argB.toNat, len := s.interpLen }

/-- INTERP reads its descriptors: `M ≠ 0`, the table's range is valid, and no read of it is a bus error (R193). Where it
does not, no `L` and no y-value range exists. A table mapped to the register window, whose reads have no defined effect (R70),
gives the ranges that the bytes stored at its addresses name: DESIGN CHOICE (log 32). -/
def State.interpReadsTable (s : State) : Bool :=
  s.lc.argN != 0#16 && s.interpTable.valid && s.platform.allOk .read [s.interpTable]

/-- `decode(LC)` (R104). -/
def Latched.decode (lc : Latched) : Except DecodeError Instr := decodeFields lc.op lc.a lc.b lc.rsv

/-- The input ranges of an instruction (R76, R172, R173, R193); none for the field commands (R135). -/
def State.inputsOf (s : State) : Instr → List ByteRange
  | .add _ _ => []
  | .mul _ _ => []
  | .div _ _ => []
  | .inv _ => []
  | .pow _ _ => []
  | .exp _ => []
  | .log _ => []
  | .peval _ k => [s.pevalInput k]
  | .pevalv _ k => [s.pevalvInput k]
  | .interp => bif s.interpReadsTable then s.interpRanges else [s.interpTable]

/-- The output range of an instruction (R76, R173, R193); empty for a command that writes no memory. -/
def State.outputOf (s : State) : Instr → ByteRange
  | .add _ _ => { base := 0, len := 0 }
  | .mul _ _ => { base := 0, len := 0 }
  | .div _ _ => { base := 0, len := 0 }
  | .inv _ => { base := 0, len := 0 }
  | .pow _ _ => { base := 0, len := 0 }
  | .exp _ => { base := 0, len := 0 }
  | .log _ => { base := 0, len := 0 }
  | .peval _ _ => { base := 0, len := 0 }
  | .pevalv _ _ => s.pevalvOutput
  | .interp => bif s.interpReadsTable then s.interpOutput else { base := 0, len := 0 }

/-- The input ranges of the latched command; none for an illegal word, which accesses no memory (R104). -/
def State.latchedInputs (s : State) : List ByteRange :=
  match s.lc.decode with
  | .ok i => s.inputsOf i
  | .error _ => []

/-- The output range of the latched command; empty for an illegal word (R104). -/
def State.latchedOutput (s : State) : ByteRange :=
  match s.lc.decode with
  | .ok i => s.outputOf i
  | .error _ => { base := 0, len := 0 }

end Machine

end Sys2Proof
end

