-- ==== Sys2Proof/Machine/Ops.lean ====
section
/-! DEFINITION. Sys2Proof/Machine/Ops.lean: the named operations the commands and the host port share: completion (R210),
error completion (R211), free output bytes (R79, R85, R215, R242), the checks and the output phase of PEVALV and INTERP,
reset (R241, R242), issue (R39), and the register window (R33 to R45). -/

namespace Sys2Proof.Machine

/-! ## Completion and error completion -/

/-- R210: `complete()`. -/
def State.complete (s : State) : State :=
  { s with err := errOk, busy := false, lc := Latched.idle, spoiled := [] }

/-- R210: `complete(r)`, which writes `RESULT <- zext_32(r)` first. -/
def State.completeWith (r : Byte) (s : State) : State := State.complete { s with result := r }

/-- R211: `raise E`, the core's one "trap": the code goes to `STATUS.ERR`, `BUSY` falls, `RESULT` stays, nothing is saved
and there is no handler. There is no return from it (R220). -/
def State.raise (e : ErrorKind) (s : State) : State :=
  { s with err := e.code, busy := false, lc := Latched.idle, spoiled := [] }

/-! ## Free values -/

/-- Every byte of a range takes a free value ("a model writes any value to each"). -/
def State.fillFree (r : ByteRange) (s : State) : State :=
  { s with
    mem := Memory.writeBytes s.mem r.base (r.clip.addrs.map (Config.freeByte s.draws))
    draws := s.draws + 1 }

/-- Every byte of several ranges takes a free value. -/
def State.fillFreeAll : List ByteRange → State → State
  | [], s => s
  | r :: rs, s => State.fillFreeAll rs (State.fillFree r s)

/-- `RESULT` takes a free value (log 11). -/
def State.freeScalar (s : State) : State :=
  { s with result := Config.freeResult s.draws, draws := s.draws + 1 }

/-! ## The output phase of PEVALV and INTERP -/

/-- The output range `out` of a command with the input ranges `ins` is unspecified at its completion, whatever its `ERR`:
it shares a byte with an input range (R85), or a range of the command covers a device (R79). (log 8) -/
def State.outputIsOpen (ins : List ByteRange) (out : ByteRange) (s : State) : Bool :=
  ins.any out.meets || s.platform.anyDevice (out :: ins)

/-- `raise E` by a check of a command that names its ranges: memory is as before (R214), but for an output range that R85 or
R79 leaves unspecified. (log 8) -/
def State.raiseChecked (e : ErrorKind) (ins : List ByteRange) (out : ByteRange) (s : State) : State :=
  State.raise e (bif s.outputIsOpen ins out then State.fillFree out s else s)

/-- The accesses of PEVALV and INTERP after their checks, and the completion. `ins` are all input ranges of the command,
`out` its output range, `vals` the bytes its rule gives. An access that reaches the register window has no defined effect
(R70); a bus error leaves the output range unspecified (R215), and so do an overlap (R85) and a device (R79), with which the
command succeeds. -/
def State.outputPhase (ins : List ByteRange) (out : ByteRange) (vals : List Byte) (s : State) :
    Host.Outcome State Fault Refusal :=
  if s.platform.anyWindow .read ins || s.platform.anyWindow .write [out] then .fault .windowThroughMemoryPort
  else if !(s.platform.allOk .read ins && s.platform.allOk .write [out]) then
    .next (State.raise .busError (State.fillFree out s))
  else if s.outputIsOpen ins out then .next (State.complete (State.fillFree out s))
  else .next (State.complete { s with mem := Memory.writeBytes s.mem out.base vals })

/-- PEVALV and INTERP from the outcome of their checks on: the first check that fails raises its error (R213); where none
does, the output phase. -/
def State.afterChecks (failed : Option ErrorKind) (ins : List ByteRange) (out : ByteRange) (vals : List Byte) (s : State) :
    Host.Outcome State Fault Refusal :=
  match failed with
  | some e => .next (State.raiseChecked e ins out s)
  | none => State.outputPhase ins out vals s

/-! ## Issue and reset -/

/-- R39: what a `CMD` write of `w` latches. -/
def State.latch (w : Word) (s : State) : Latched :=
  { op := fieldOp w, a := fieldA w, b := fieldB w, rsv := fieldRsv w, argA := s.argA, argB := s.argB, argN := s.argN }

/-- R39: issue. -/
def State.issue (w : Word) (s : State) : State :=
  { s with lc := s.latch w, busy := true, spoiled := [] }

/-- R242: a reset while a command runs leaves its output range unspecified (and the ranges of R84, log 9). -/
def State.abortRunning (s : State) : State :=
  bif s.busy then State.fillFreeAll (s.spoiled ++ [s.latchedOutput]) s else s

/-- R241, R242: the effect of either reset. -/
def State.coreReset (s : State) : State :=
  { State.abortRunning s with
    busy := false, ovr := false, err := 0x00#8, result := 0x00#8, argA := 0#32, argB := 0#32, argN := 0#16
    lc := Latched.idle, spoiled := [] }

/-! ## The register window -/

/-- The registers of the window (R33). -/
inductive Reg where
  | id | ctrl | poly | gen | status | cmd | result | argA | argB | argN | reserved
deriving DecidableEq, Repr

/-- The register map (R33): offset and register. -/
def registerMap : List (Nat × Reg) :=
  [(0x00, .id), (0x04, .ctrl), (0x08, .poly), (0x0C, .gen), (0x10, .status), (0x14, .cmd), (0x18, .result),
   (0x1C, .argA), (0x20, .argB), (0x24, .argN)]

/-- The register at an aligned offset of the window; every offset not in the map is reserved (R33, R45). -/
def Reg.atOffset (off : Nat) : Reg := (registerMap.lookup off).getD .reserved

/-- The identification value (R34). -/
def idValue : Word := 0x47460001#32

/-- What a 32-bit read of a register returns (R33 to R45). -/
def State.regRead (s : State) : Reg → Word
  | .id => idValue
  | .ctrl => 0#32
  | .poly => s.poly.value.setWidth 32
  | .gen => s.poly.gen.setWidth 32
  | .status => s.statusWord
  | .cmd => 0#32
  | .result => s.result.setWidth 32
  | .argA => s.argA
  | .argB => s.argB
  | .argN => s.argN.setWidth 32
  | .reserved => 0#32

/-- R35: a write of `CTRL`. Bit 0 `SRST` performs the soft reset, which also clears `OVR`; bit 1 is `OVR_CLR`. -/
def State.writeCtrl (v : Word) (s : State) : State :=
  bif v.getLsbD 0 then State.coreReset s
  else bif v.getLsbD 1 then { s with ovr := false }
  else s

/-- R39: a write of `CMD`: issue where idle; ignored, setting `OVR`, where busy. -/
def State.writeCmd (w : Word) (s : State) : State :=
  bif s.busy then { s with ovr := true } else State.issue w s

/-- A 32-bit write of a register (R33 to R45): read-only and reserved registers ignore it. -/
def State.regWrite (s : State) (v : Word) : Reg → State
  | .id => s
  | .ctrl => State.writeCtrl v s
  | .poly => s
  | .gen => s
  | .status => s
  | .cmd => State.writeCmd v s
  | .result => s
  | .argA => { s with argA := v }
  | .argB => { s with argB := v }
  | .argN => { s with argN := v.setWidth 16 }
  | .reserved => s

end Sys2Proof.Machine
end

