-- ==== Sys2Proof/Machine/FieldUnit.lean ====
section
/-! DEFINITION. Sys2Proof/Machine/FieldUnit.lean: the commands of the GF(256) arithmetic unit (40_field.md section 2), each
after `decode(LC)` has succeeded. They access no memory (R135). -/

namespace Sys2Proof.Machine

/-- ADD (R136). -/
def execAdd (a b : Byte) (s : State) : Host.Outcome State Fault Refusal :=
  .next (State.completeWith (gfAdd a b) s)

/-- MUL (R137). -/
def execMul (a b : Byte) (s : State) : Host.Outcome State Fault Refusal :=
  .next (State.completeWith (gfMul s.poly a b) s)

/-- DIV (R138). -/
def execDiv (a b : Byte) (s : State) : Host.Outcome State Fault Refusal :=
  if b = 0x00#8 then .next (State.raise .zeroInverse s)
  else .next (State.completeWith (gfDiv s.poly a b) s)

/-- INV (R139). -/
def execInv (a : Byte) (s : State) : Host.Outcome State Fault Refusal :=
  if a = 0x00#8 then .next (State.raise .zeroInverse s)
  else .next (State.completeWith (gfInv s.poly a) s)

/-- POW (R140). -/
def execPow (a : Byte) (e : Nat) (s : State) : Host.Outcome State Fault Refusal :=
  .next (State.completeWith (gfPow s.poly a e) s)

/-- EXP (R141). -/
def execExp (i : Nat) (s : State) : Host.Outcome State Fault Refusal :=
  .next (State.completeWith (gfExp s.poly i) s)

/-- LOG (R142). -/
def execLog (a : Byte) (s : State) : Host.Outcome State Fault Refusal :=
  if a = 0x00#8 then .next (State.raise .zeroLog s)
  else .next (State.completeWith (BitVec.ofNat 8 (gfLog s.poly a)) s)

end Sys2Proof.Machine
end

