-- ==== Sys2Proof/Machine/Interp.lean ====
section
/-! DEFINITION. Sys2Proof/Machine/Interp.lean: the Lagrange interpolation engine (42_interp.md), after `decode(LC)` has
succeeded, as one atomic step (R253). -/

namespace Sys2Proof.Machine

/-- Some share's length differs from the first share's (R191, R193: MALFORMED). -/
def State.lengthsDiffer (s : State) : Bool := s.interpShares.any (fun d => d.len.toNat != s.interpLen)

/-- The x-coordinates, in descriptor order (R193). -/
def State.interpXs (s : State) : List Byte := s.interpShares.map Descriptor.x

/-- Two shares have equal x-coordinates, whatever their y-values (R191, R193: DUPLICATE). -/
def hasDuplicate : List Byte → Bool
  | [] => false
  | x :: xs => xs.any (fun y => x == y) || hasDuplicate xs

/-- The output bytes of INTERP: for each position `p`, the sum of `y_i ⊗ w[i]` (R193). -/
def State.interpValues (s : State) : List Byte :=
  (List.range s.interpLen).map (fun p =>
    lagrangeSum s.poly (s.interpShares.map (fun d => s.portByte (d.yAddr.toNat + p))) (lagrangeWeights s.poly s.interpXs))

/-- After descriptors were read from a device, the next free values are fresh ones (R79, log 12). -/
def State.afterTable (s : State) : State :=
  bif s.platform.anyDevice [s.interpTable] then { s with draws := s.draws + 1 } else s

/-- The first check of INTERP after the reads of its table that fails, in the pseudocode's order (R191, R193, R213). -/
def State.interpCheck (s : State) : Option ErrorKind :=
  if s.lengthsDiffer then some .malformed
  else if hasDuplicate s.interpXs then some .duplicate
  else if !s.interpInputs.all ByteRange.valid then some .range
  else if !s.interpOutput.valid then some .range
  else none

/-- INTERP (R193). An error before its table is read leaves memory as before: without `L` there is no output range (log 8). -/
def execInterp (s : State) : Host.Outcome State Fault Refusal :=
  if s.lc.argN = 0#16 then .next (State.raise .insufficient s)
  else if !s.interpTable.valid then .next (State.raise .range s)
  else if s.platform.anyWindow .read [s.interpTable] then .fault .windowThroughMemoryPort
  else if !s.platform.allOk .read [s.interpTable] then .next (State.raise .busError s)
  else State.afterChecks s.interpCheck s.interpRanges s.interpOutput s.interpValues s.afterTable

end Sys2Proof.Machine
end

