-- ==== Sys2Proof/Machine/PolyEval.lean ====
section
/-! DEFINITION. Sys2Proof/Machine/PolyEval.lean: the polynomial evaluator (41_polyeval.md), each command after `decode(LC)`
has succeeded, as one atomic step (R253). -/

namespace Sys2Proof.Machine

/-- PEVAL (R172). Its checks, then the reads of the coefficients, then Horner's method (R170, R171). A coefficient that a
device answers leaves the result open (R79, log 11). -/
def execPeval (x : Byte) (k : Nat) (s : State) : Host.Outcome State Fault Refusal :=
  if k = 0 then .next (State.raise .param s)
  else if !(s.pevalInput k).valid then .next (State.raise .range s)
  else if s.platform.anyWindow .read [s.pevalInput k] then .fault .windowThroughMemoryPort
  else if !s.platform.allOk .read [s.pevalInput k] then .next (State.raise .busError s)
  else if s.platform.anyDevice [s.pevalInput k] then .next (State.complete (State.freeScalar s))
  else .next (State.completeWith (horner s.poly x (s.portBytes (s.pevalInput k))) s)

/-- The output bytes of PEVALV: row `p` evaluated at `x`, for `p` in 0..N-1 (R173). -/
def State.pevalvValues (x : Byte) (k : Nat) (s : State) : List Byte :=
  (List.range s.lc.argN.toNat).map (fun p => horner s.poly x (s.portBytes (s.pevalvRow k p)))

/-- The first check of PEVALV that fails, in the pseudocode's order (R173, R213). -/
def State.pevalvCheck (x : Byte) (k : Nat) (s : State) : Option ErrorKind :=
  if k = 0 then some .param
  else if x = 0x00#8 then some .param
  else if !(s.pevalvInput k).valid then some .range
  else if !s.pevalvOutput.valid then some .range
  else none

/-- PEVALV (R173). -/
def execPevalv (x : Byte) (k : Nat) (s : State) : Host.Outcome State Fault Refusal :=
  State.afterChecks (s.pevalvCheck x k) [s.pevalvInput k] s.pevalvOutput (s.pevalvValues x k) s

end Sys2Proof.Machine
end

