-- ==== Sys2Proof/Machine/Dispatch.lean ====
section
/-! DEFINITION. Sys2Proof/Machine/Dispatch.lean: one arm per command. -/

namespace Sys2Proof.Machine

def exec (i : Instr) (s : State) : Host.Outcome State Fault Refusal :=
  match i with
  | .add a b => Sys2Proof.Machine.execAdd a b s
  | .mul a b => Sys2Proof.Machine.execMul a b s
  | .div a b => Sys2Proof.Machine.execDiv a b s
  | .inv a => Sys2Proof.Machine.execInv a s
  | .pow a e => Sys2Proof.Machine.execPow a e s
  | .exp e => Sys2Proof.Machine.execExp e s
  | .log a => Sys2Proof.Machine.execLog a s
  | .peval x k => Sys2Proof.Machine.execPeval x k s
  | .pevalv x k => Sys2Proof.Machine.execPevalv x k s
  | .interp => Sys2Proof.Machine.execInterp s

end Sys2Proof.Machine
end

