-- ==== Sys2Proof/Machine/Engine.lean ====
section
/-! DEFINITION. Sys2Proof/Machine/Engine.lean: the core's turn (R252, R253): a running command is decoded (R104), runs whole
and completes; an idle core does nothing (R226, R244). -/

namespace Sys2Proof.Machine

/-- The latched command reads memory into `RESULT`: it is PEVAL (R172). -/
def State.latchedIsPeval (s : State) : Bool :=
  match s.lc.decode with
  | .ok (.peval _ _) => true
  | _ => false

/-- The latched command run to completion: `decode(LC)`, ILLEGAL where it fails (R104), else the command's meaning. -/
def State.runLatched (s : State) : Host.Outcome State Fault Refusal :=
  match s.lc.decode with
  | .ok i => exec i s
  | .error _ => .next (State.raise .illegal s)

/-- What a broken host duty leaves of a completion `t` of the command that ran in `s` (R84, R253): every byte of the output
range is any value, and so is the scalar a PEVAL read from memory a host wrote meanwhile (log 9, log 11). -/
def State.spoilCompletion (s t : State) : State :=
  State.fillFreeAll (s.spoiled ++ [s.latchedOutput])
    (bif s.latchedIsPeval && t.err == errOk then State.freeScalar t else t)

/-- The core's turn. -/
def State.coreTurn (s : State) : Host.Outcome State Fault Refusal :=
  if !s.busy then .next s
  else match s.runLatched with
    | .next t => .next (bif s.spoiled.isEmpty then t else State.spoilCompletion s t)
    | .fault f => .fault f
    | .refused r => .refused r

end Sys2Proof.Machine
end

