-- ==== Sys2Proof/Machine/HostPort.lean ====
section
/-! DEFINITION. Sys2Proof/Machine/HostPort.lean: the accesses of hosts and the hardware reset input (10_state.md section 3,
20_memory.md section 5, 70_reset_and_hazards.md section 1). -/

namespace Sys2Proof.Machine

/-- The register that a host's register access reaches, or why the access is refused: an address outside the window, an
access while the reset input is asserted (R243), or one that is not an aligned 32-bit access (R75). DESIGN CHOICE (log 31):
the spec gives `REG_BASE` no alignment and does not say whose multiple of 4 R75's "address" is, so both the host's address
and the offset in the window have to be one; at a `REG_BASE` that is none, every register access is refused. -/
def State.registerAt (s : State) (addr : Nat) (width : AccessWidth) : Except Refusal Reg :=
  match s.platform.windowOffset addr with
  | none => .error .outsideRegisterWindow
  | some off =>
    if s.inReset then .error .registerAccessInReset
    else if width ≠ .word ∨ addr % 4 ≠ 0 ∨ off % 4 ≠ 0 then .error .registerAccessShape
    else .ok (Reg.atOffset off)

/-- A host's read is answered. -/
def State.reply (r : Reply) (s : State) : State := { s with replies := r :: s.replies }

/-- R84: the running command's output range becomes unspecified at completion, because a host broke its duty. -/
def State.spoil (s : State) : State := { s with spoiled := s.latchedOutput :: s.spoiled }

/-- The byte is one of the running command's output range, or of one that the range was before a host broke its duty: what
stands there is open until the command ends (R84, log 9). -/
def State.outputCovers (a : Word) (s : State) : Bool :=
  s.busy && (s.latchedOutput :: s.spoiled).any (fun r => r.covers a.toNat)

/-- A host reads one byte of the memory space. A byte of a running command's output range reads as any value, and the read
breaks the host's duty (R84); a read of an input range is harmless (R84); a device answers any value (log 18). Elsewhere the
stored byte is read, also where `MEM_OK(a, read)` is false, which is the core's port's: DESIGN CHOICE (log 20). -/
def State.hostMemRead (a : Word) (s : State) : Host.Outcome State Fault Refusal :=
  if s.platform.isWindow a.toNat then .refused .windowAsHostMemory
  else if s.outputCovers a then
    .next { State.reply (.mem (Config.freeByte s.draws a.toNat)) (State.spoil s) with draws := s.draws + 1 }
  else if s.platform.isDevice a.toNat then
    .next { State.reply (.mem (Config.deviceByte s.draws a.toNat)) s with draws := s.draws + 1 }
  else .next (State.reply (.mem (Memory.read s.mem a.toNat)) s)

/-- The write breaks the host's duty: it hits an input or output range of the running command (R84). -/
def State.writeBreaksDuty (a : Word) (s : State) : Bool :=
  s.busy && (s.latchedOutput :: s.latchedInputs).any (fun r => r.covers a.toNat)

/-- A host writes one byte of the memory space (R82, R84). The ranges are those before the write. The byte is stored whatever
`MEM_OK(a, write)` is: DESIGN CHOICE (log 20). -/
def State.hostMemWrite (a : Word) (v : Byte) (s : State) : Host.Outcome State Fault Refusal :=
  if s.platform.isWindow a.toNat then .refused .windowAsHostMemory
  else .next { s with
    mem := Memory.write s.mem a.toNat v
    spoiled := bif s.writeBreaksDuty a then s.latchedOutput :: s.spoiled else s.spoiled }

/-- A host reads a register: no side effect (R33). -/
def State.hostRegRead (addr : Nat) (width : AccessWidth) (s : State) : Host.Outcome State Fault Refusal :=
  match s.registerAt addr width with
  | .ok r => .next (State.reply (.reg (s.regRead r)) s)
  | .error e => .refused e

/-- A host writes a register (R33 to R45). -/
def State.hostRegWrite (addr : Nat) (width : AccessWidth) (v : Word) (s : State) : Host.Outcome State Fault Refusal :=
  match s.registerAt addr width with
  | .ok r => .next (s.regWrite v r)
  | .error e => .refused e

/-- One access of a host. A fence changes nothing: the accesses come in the order in which they are performed (log 4). -/
def State.hostAccess (s : State) : HostAccess → Host.Outcome State Fault Refusal
  | .regRead addr width => State.hostRegRead addr width s
  | .regWrite addr width v => State.hostRegWrite addr width v s
  | .memRead a => State.hostMemRead a s
  | .memWrite a v => State.hostMemWrite a v s
  | .fence => .next s

/-- The hardware reset input is asserted: the reset of R241, and register accesses are refused until it is released. -/
def State.assertReset (s : State) : State := { State.coreReset s with inReset := true }

/-- The hardware reset input is released (R243). -/
def State.releaseReset (s : State) : State := { s with inReset := false }

end Sys2Proof.Machine
end

