-- ==== Sys2Proof/Machine/Step.lean ====
section
/-! DEFINITION. Sys2Proof/Machine/Step.lean: one step. The agent that moves is the one the sequence `inputs` names next; where
it names none, it is the core's turn, so a running command always completes (R252, log 24). -/

namespace Sys2Proof.Machine

def step (s : State) : Host.Outcome State Fault Refusal :=
  match s.inputs with
  | [] => State.coreTurn s
  | .core :: rest => State.coreTurn { s with inputs := rest }
  | .host h :: rest => State.hostAccess { s with inputs := rest } h
  | .resetAssert :: rest => .next (State.assertReset { s with inputs := rest })
  | .resetRelease :: rest => .next (State.releaseReset { s with inputs := rest })

/-- The state with the command word `w` issued (R39) and the core's turn next, so that the next step decodes and runs it.
The core has no program counter and fetches nothing (R32, R88): a command comes to run by a host's `CMD` write (log 16). -/
def State.withFetchWord (s : State) (nbits w : Nat) : State :=
  { State.issue (BitVec.ofNat 32 (w % 2 ^ nbits)) s with inputs := .core :: s.inputs }

end Sys2Proof.Machine
end

