-- ==== Sys2Proof/Safety.lean ====
section
/-! DEFINITION. Sys2Proof/Safety.lean: the terms in which claims about the core are stated: its invariant, the frame of a
command, plain memory, the share table as it stands in memory, and the product of polynomials over GF(2). -/

namespace Sys2Proof

/-- The product of two polynomials over GF(2), bit `i` the coefficient of `x^i`, without reduction; `b` has degree at most
15. -/
def polyMul (a b : Nat) : Nat :=
  (List.range 16).foldl (fun r i => if b.testBit i then r ^^^ (a <<< i) else r) 0

/-- The byte at `a` is one of the range's. -/
def ByteRange.Holds (r : ByteRange) (a : Nat) : Prop := r.base ≤ a ∧ a < r.base + r.len

/-- The ranges share no byte. -/
def ByteRange.Apart (r q : ByteRange) : Prop := ∀ a, ¬ (r.Holds a ∧ q.Holds a)

/-- No access of the range's bytes in the direction `d` reaches the register window: none is mapped to it, but for bytes that
answer with a bus error, of which no access takes place (R9, R70). -/
def Platform.NoWindow (pl : Platform) (d : Dir) (r : ByteRange) : Prop :=
  ∀ a, r.Holds a → pl.isWindow a = true → pl.memOk a d = false

/-- An access of some byte of the range in the direction `d` takes place and reaches the register window. -/
def Platform.ReachesWindow (pl : Platform) (d : Dir) (r : ByteRange) : Prop :=
  ∃ a, r.Holds a ∧ pl.isWindow a = true ∧ pl.memOk a d = true

/-- Some byte of the range is a device's (R79). -/
def Platform.HasDevice (pl : Platform) (r : ByteRange) : Prop := ∃ a, r.Holds a ∧ pl.isDevice a = true

/-- Every byte of the range is ordinary memory whose accesses in the direction `d` complete. -/
def Platform.Plain (pl : Platform) (d : Dir) (r : ByteRange) : Prop :=
  ∀ a, r.Holds a → pl.memOk a d = true ∧ pl.isDevice a = false ∧ pl.isWindow a = false

/-- Some byte of the range answers an access in the direction `d` with a bus error. -/
def Platform.SomeBusError (pl : Platform) (d : Dir) (r : ByteRange) : Prop :=
  ∃ a, r.Holds a ∧ pl.memOk a d = false

namespace Machine

/-- The invariant: the memory is in its canonical form; `ERR` holds a code of R212; where no command runs, `LC` is idle and
no range is spoiled; while the reset input is asserted no command runs. -/
abbrev State.Inv (s : State) : Prop :=
  Memory.wf s.mem = true ∧ s.err.toNat ≤ 9 ∧ (s.busy = false → s.lc = Latched.idle ∧ s.spoiled = []) ∧
    (s.inReset = true → s.busy = false)

/-- What no command changes, and that it has completed: `OVR`, the argument registers, the parameters, the reset input, and
what is outside the core. -/
structure State.CommandFrame (s t : State) : Prop where
  busy     : t.busy = false
  ovr      : t.ovr = s.ovr
  argA     : t.argA = s.argA
  argB     : t.argB = s.argB
  argN     : t.argN = s.argN
  poly     : t.poly = s.poly
  platform : t.platform = s.platform
  inReset  : t.inReset = s.inReset
  inputs   : t.inputs = s.inputs
  replies  : t.replies = s.replies

/-- A command has succeeded with the scalar result `r` (R210): `RESULT` is `r`, `ERR` is OK, and nothing else changed. -/
def State.Returned (s t : State) (r : Byte) : Prop :=
  t.result = r ∧ t.err = 0x00#8 ∧ t.mem = s.mem ∧ t.draws = s.draws ∧ s.CommandFrame t

/-- A command has ended with the error code `c` (R211), with `RESULT` and all of memory as before. -/
def State.Failed (s t : State) (c : Byte) : Prop :=
  t.err = c ∧ t.result = s.result ∧ t.mem = s.mem ∧ s.CommandFrame t

/-- Every byte of memory outside the range reads as before. -/
def State.SameOutside (s t : State) (r : ByteRange) : Prop :=
  ∀ a, ¬ r.Holds a → Memory.read t.mem a = Memory.read s.mem a

/-- A command has ended with the code `c` and left each byte of its output range `r` in the memory space a free value, with
`RESULT` and every other byte of memory as before. -/
def State.EndedOpen (s t : State) (c : Byte) (r : ByteRange) : Prop :=
  t.err = c ∧ t.result = s.result ∧ s.SameOutside t r ∧
    (∃ n, ∀ a, r.Holds a → a < memSize → Memory.read t.mem a = Config.freeByte n a) ∧ s.CommandFrame t

/-- The output range is unspecified at completion, whatever `ERR` is: it shares a byte with an input range (R85), or a range
of the command covers a device (R79). -/
def State.OutputOpen (s : State) (ins : List ByteRange) (out : ByteRange) : Prop :=
  (∃ r ∈ ins, ¬ out.Apart r) ∨ ∃ r ∈ out :: ins, s.platform.HasDevice r

/-- A check of a command with the input ranges `ins` and the output range `out` has failed with the code `c`: memory is as
before (R214), but for an output range that R85 or R79 leaves open (log 8). -/
def State.CheckFailed (s t : State) (c : Byte) (ins : List ByteRange) (out : ByteRange) : Prop :=
  (¬ s.OutputOpen ins out → s.Failed t c) ∧ (s.OutputOpen ins out → s.EndedOpen t c out)

/-- PEVALV and INTERP have succeeded: byte `p` of the output range `r` is `f p`, and `RESULT` and every other byte of memory
are as before. -/
def State.Wrote (s t : State) (r : ByteRange) (f : Nat → Byte) : Prop :=
  t.err = 0x00#8 ∧ t.result = s.result ∧ (∀ p, p < r.len → Memory.read t.mem (r.base + p) = f p) ∧
    s.SameOutside t r ∧ t.draws = s.draws ∧ s.CommandFrame t

/-- The x-coordinate of descriptor `i`, the byte at `tbl + 8·i` (R190). -/
def State.shareX (s : State) (i : Nat) : Byte := Memory.read s.mem (s.lc.argA.toNat + 8 * i)

/-- The length field of descriptor `i`: bytes 2 and 3, little-endian (R190, R73). -/
def State.shareLen (s : State) (i : Nat) : Nat :=
  (Memory.read s.mem (s.lc.argA.toNat + 8 * i + 2)).toNat +
    256 * (Memory.read s.mem (s.lc.argA.toNat + 8 * i + 3)).toNat

/-- The address field of descriptor `i`: bytes 4 to 7, little-endian (R190, R73). -/
def State.shareAddr (s : State) (i : Nat) : Nat :=
  (Memory.read s.mem (s.lc.argA.toNat + 8 * i + 4)).toNat +
    256 * (Memory.read s.mem (s.lc.argA.toNat + 8 * i + 5)).toNat +
    65536 * (Memory.read s.mem (s.lc.argA.toNat + 8 * i + 6)).toNat +
    16777216 * (Memory.read s.mem (s.lc.argA.toNat + 8 * i + 7)).toNat

/-- The y-value range of share `i`, `L` bytes where `L` is the first share's length (R193). -/
def State.shareRange (s : State) (i : Nat) : ByteRange := { base := s.shareAddr i, len := s.shareLen 0 }

/-- The number of shares `M` (R193). -/
def State.shareCount (s : State) : Nat := s.lc.argN.toNat

/-- The descriptor table and the output range of INTERP as the table in memory gives them (R193). -/
def State.shareTable (s : State) : ByteRange := { base := s.lc.argA.toNat, len := 8 * s.shareCount }

def State.shareOutput (s : State) : ByteRange := { base := s.lc.argB.toNat, len := s.shareLen 0 }

/-- All input ranges of INTERP as the table in memory gives them (R193). -/
def State.shareInputs (s : State) : List ByteRange := s.shareTable :: (List.range s.shareCount).map s.shareRange

/-- The table is there to read: `M ≠ 0`, its range is valid, and it is ordinary readable memory. -/
def State.TableReadable (s : State) : Prop :=
  s.shareCount ≠ 0 ∧ s.lc.argA.toNat + 8 * s.shareCount ≤ memSize ∧ s.platform.Plain .read s.shareTable

/-- All lengths equal the first (R191). -/
def State.LengthsAgree (s : State) : Prop := ∀ i, i < s.shareCount → s.shareLen i = s.shareLen 0

/-- All x-coordinates are distinct (R191). -/
def State.XsDistinct (s : State) : Prop :=
  ∀ i j, i < j → j < s.shareCount → s.shareX i ≠ s.shareX j

/-- Every y-value range and the output range are valid (R193, R76). -/
def State.ShareRangesValid (s : State) : Prop :=
  (∀ i, i < s.shareCount → s.shareAddr i + s.shareLen 0 ≤ memSize) ∧ s.lc.argB.toNat + s.shareLen 0 ≤ memSize

/-- The x-coordinates of all shares in descriptor order. -/
def State.shareXs (s : State) : List Byte := (List.range s.shareCount).map s.shareX

/-- R193: the byte that INTERP computes for position `p`. -/
def State.recoveredByte (s : State) (p : Nat) : Byte :=
  (List.range s.shareCount).foldl
    (fun acc i => acc ^^^ gfMul s.poly (Memory.read s.mem (s.shareAddr i + p)) (lagrangeWeight s.poly s.shareXs i)) 0x00#8

/-- The next thing that happens is a host's aligned 32-bit write of `v` at the offset `off` of the window, with the reset
input released; `rest` follows. That `REG_BASE` is a multiple of 4 is the model's premise (log 31). -/
def State.NextIsRegWrite (s : State) (off : Nat) (v : Word) (rest : List Input) : Prop :=
  off < 64 ∧ off % 4 = 0 ∧ s.platform.regBase % 4 = 0 ∧ s.inReset = false ∧
    s.inputs = .host (.regWrite (s.platform.regBase + off) .word v) :: rest

/-- The next thing that happens is a host's aligned 32-bit read at the offset `off` of the window, with the reset input
released; `rest` follows. That `REG_BASE` is a multiple of 4 is the model's premise (log 31). -/
def State.NextIsRegRead (s : State) (off : Nat) (rest : List Input) : Prop :=
  off < 64 ∧ off % 4 = 0 ∧ s.platform.regBase % 4 = 0 ∧ s.inReset = false ∧
    s.inputs = .host (.regRead (s.platform.regBase + off) .word) :: rest

/-- The next thing that happens is a reset: the hardware reset input is asserted, or a host writes 1 to `CTRL.SRST` (R240);
`rest` follows. -/
def State.NextIsReset (s : State) (rest : List Input) : Prop :=
  s.inputs = .resetAssert :: rest ∨ ∃ v : Word, v.toNat % 2 = 1 ∧ s.NextIsRegWrite 0x04 v rest

/-- It is the core's turn, and `s'` is the state it moves from: the inputs name the core next, or name nothing (R252). -/
def State.CoreMoves (s s' : State) : Prop :=
  (s.inputs = [] ∧ s' = s) ∨ ∃ rest, s.inputs = .core :: rest ∧ s' = { s with inputs := rest }

/-- What a 32-bit read at the offset `off` of the window returns (R33 to R45). -/
def State.windowValue (s : State) (off : Nat) : Word :=
  if off = 0x00 then 0x47460001#32
  else if off = 0x08 then BitVec.ofNat 32 s.poly.value.toNat
  else if off = 0x0C then BitVec.ofNat 32 s.poly.gen.toNat
  else if off = 0x10 then BitVec.ofNat 32 (s.busy.toNat + 2 * s.ovr.toNat + 256 * s.err.toNat)
  else if off = 0x18 then BitVec.ofNat 32 s.result.toNat
  else if off = 0x1C then s.argA
  else if off = 0x20 then s.argB
  else if off = 0x24 then BitVec.ofNat 32 s.argN.toNat
  else 0#32

/-- Of the words with the opcode `op`, exactly those for which `bad` holds are illegal (R104). -/
def IllegalExactlyIf (op : Nat) (bad : Word → Prop) : Prop :=
  ∀ w : Word, w.toNat % 256 = op → ((∃ e, decodeWord w = .error e) ↔ bad w)

/-- The field `RSV` of a word is not zero (R103). -/
def RsvNotZero (w : Word) : Prop := w.toNat / 16777216 ≠ 0

/-- The field `B` of a word is not zero (R103). -/
def FieldBNotZero (w : Word) : Prop := w.toNat / 65536 % 256 ≠ 0

/-- The errors a command can report, by R212's column "raised by". -/
def mayReport : Instr → List Nat
  | .add _ _ => [0x00]
  | .mul _ _ => [0x00]
  | .div _ _ => [0x00, 0x05]
  | .inv _ => [0x00, 0x05]
  | .pow _ _ => [0x00]
  | .exp _ => [0x00]
  | .log _ => [0x00, 0x06]
  | .peval _ _ => [0x00, 0x01, 0x08, 0x09]
  | .pevalv _ _ => [0x00, 0x01, 0x08, 0x09]
  | .interp => [0x00, 0x02, 0x03, 0x04, 0x08, 0x09]

end Machine

end Sys2Proof
end

