-- ==== Sys2Proof/Certificates/Slice0/Obligations.lean ====
section
/-! DEFINITION. Sys2Proof/Certificates/Slice0/Obligations.lean: what is claimed of the core. Each docstring names the rule or
the log entry it rests on. -/

open Sys2Proof Sys2Proof.Machine

/-! ## Encoding -/

/-- Decoding the word that encodes a well-formed instruction gives the instruction back, as a word and as the four bytes a
host sends (R100, R104, R107, R74). -/
def Obligations.DecodeOfEncodeIsTheInstruction : Prop :=
  ∀ i : Instr, i.wf = true →
    decodeWord (encode i) = .ok i ∧ decodeBytes (bytesOfWord (encode i)) = .ok i

/-- Every word that decodes is the encoding of the instruction it decodes to, which is well formed: no bit is dropped and no
two words mean one instruction (R100, R103, R104, R107). -/
def Obligations.EncodeOfDecodeIsTheWord : Prop :=
  ∀ (w : Word) (i : Instr), decodeWord w = .ok i → i.wf = true ∧ encode i = w

/-- R104: which words are illegal, and that running one completes with ILLEGAL, with `RESULT` and memory as before. -/
def Obligations.IllegalWordsCompleteWithIllegal : Prop :=
  (∀ w : Word, (∃ e, decodeWord w = .error e) ↔
    (w.toNat / 16777216 ≠ 0 ∨
      w.toNat % 256 ∉ [0x01, 0x02, 0x03, 0x04, 0x05, 0x06, 0x07, 0x10, 0x11, 0x12] ∨
      (w.toNat % 256 ∈ [0x04, 0x06, 0x07] ∧ w.toNat / 65536 % 256 ≠ 0) ∨
      (w.toNat % 256 = 0x12 ∧ (w.toNat / 256 % 256 ≠ 0 ∨ w.toNat / 65536 % 256 ≠ 0)))) ∧
  (∀ (s s' : State) (e : DecodeError), s.busy = true → s.spoiled = [] → s.CoreMoves s' → s.lc.decode = .error e →
    ∃ t, step s = .next t ∧ s'.Failed t 0x07#8)

/-- One word of each command, written out from R107, decodes to the command it stands for; the all-zero word does not
decode. -/
def Obligations.WordsOfTheTableDecode : Prop :=
  decodeWord 0x00CA5301#32 = .ok (.add 0x53#8 0xCA#8) ∧ decodeWord 0x00835702#32 = .ok (.mul 0x57#8 0x83#8) ∧
  decodeWord 0x0083C103#32 = .ok (.div 0xC1#8 0x83#8) ∧ decodeWord 0x00005304#32 = .ok (.inv 0x53#8) ∧
  decodeWord 0x00080205#32 = .ok (.pow 0x02#8 8) ∧ decodeWord 0x0000FF06#32 = .ok (.exp 255) ∧
  decodeWord 0x00005307#32 = .ok (.log 0x53#8) ∧ decodeWord 0x0004FF10#32 = .ok (.peval 0xFF#8 4) ∧
  decodeWord 0x00FF0711#32 = .ok (.pevalv 0x07#8 255) ∧ decodeWord 0x00000012#32 = .ok .interp ∧
  decodeWord 0x00000000#32 = .error .reservedOpcode

/-- The four bytes of a command at rising offsets are `OP`, `A`, `B` and `RSV` (R74, R100); any other number of bytes is no
command (R106). -/
def Obligations.CommandBytesAreLittleEndian : Prop :=
  (∀ b0 b1 b2 b3 : Byte, decodeBytes [b0, b1, b2, b3] = decodeFields b0 b1 b2 b3) ∧
  (∀ bs : List Byte, bs.length ≠ 4 → decodeBytes bs = .error .wrongLength)

/-! ## The field -/

/-- R46: the whitelist is the list of R46, and it is every irreducible polynomial of degree 8: the values with no
factorisation into two polynomials of degree at least 1. -/
def Obligations.WhitelistIsEveryIrreduciblePolynomial : Prop :=
  Poly.all.map (fun p => p.value.toNat) =
    [0x11B, 0x11D, 0x12B, 0x12D, 0x139, 0x13F, 0x14D, 0x15F, 0x163, 0x165, 0x169, 0x171, 0x177, 0x17B, 0x187, 0x18B,
     0x18D, 0x19F, 0x1A3, 0x1A9, 0x1B1, 0x1BD, 0x1C3, 0x1CF, 0x1D7, 0x1DD, 0x1E7, 0x1F3, 0x1F5, 0x1F9] ∧
  (∀ p : Poly, p ∈ Poly.all) ∧
  (∀ v : Nat, 256 ≤ v → v < 512 →
    ((∃ p : Poly, p.value.toNat = v) ↔
      ∀ d e : Nat, 2 ≤ d → d < 256 → 2 ≤ e → e < 256 → polyMul d e ≠ v))

/-- R47: `GEN` is the smallest `g` in 2..255 whose powers `g^0 .. g^254` are 255 distinct non-zero elements, and has the value
of R47's table, in the order of the whitelist. -/
def Obligations.GeneratorIsTheSmallestOne : Prop :=
  (∀ p : Poly, 2 ≤ p.gen.toNat ∧
    (∀ i j, i < j → j < 255 → gfPow p p.gen i ≠ gfPow p p.gen j) ∧ (∀ i, i < 255 → gfPow p p.gen i ≠ 0x00#8) ∧
    (∀ g : Byte, 2 ≤ g.toNat → g.toNat < p.gen.toNat → ∃ i j, i < j ∧ j < 255 ∧ gfPow p g i = gfPow p g j)) ∧
  Poly.all.map (fun p => p.gen.toNat) =
    [3, 2, 2, 2, 3, 3, 2, 2, 2, 2, 2, 2, 3, 9, 2, 6, 2, 3, 3, 2, 6, 7, 2, 2, 7, 6, 2, 6, 2, 3]

/-- R131: `a ⊗ b` is the product of the polynomials reduced modulo `POLY`: the two differ by a multiple of `POLY`. -/
def Obligations.ProductIsReducedModuloPoly : Prop :=
  ∀ (p : Poly) (a b : Byte), ∃ q : Nat, q < 128 ∧
    polyMul a.toNat b.toNat = polyMul q p.value.toNat ^^^ (gfMul p a b).toNat

/-- R143: the laws of the field, for every polynomial of the whitelist. -/
def Obligations.FieldLaws : Prop :=
  ∀ (p : Poly) (a b c : Byte),
    (gfAdd a a = 0x00#8 ∧ gfAdd a 0x00#8 = a ∧ gfAdd (gfAdd a b) c = gfAdd a (gfAdd b c) ∧ gfAdd a b = gfAdd b a) ∧
    (gfMul p a b = gfMul p b a ∧ gfMul p a (gfAdd b c) = gfAdd (gfMul p a b) (gfMul p a c) ∧
      gfMul p (gfMul p a b) c = gfMul p a (gfMul p b c) ∧ gfMul p a 0x01#8 = a ∧ gfMul p a 0x00#8 = 0x00#8) ∧
    (a ≠ 0x00#8 → gfMul p a (gfInv p a) = 0x01#8) ∧ (gfMul p a b = 0x00#8 → a = 0x00#8 ∨ b = 0x00#8) ∧
    (a ≠ 0x00#8 → gfPow p a 255 = 0x01#8 ∧ gfPow p a 254 = gfInv p a) ∧
    (∀ e1 e2 : Nat, e1 + e2 ≤ 255 → gfMul p (gfPow p a e1) (gfPow p a e2) = gfPow p a (e1 + e2))

/-- R132: the table form of multiplication gives the product, whatever generator the tables use: the product of two powers of
one non-zero element is the power at the sum of the exponents, modulo 255. -/
def Obligations.ProductByTheTables : Prop :=
  (∀ (p : Poly) (a b : Byte), gfMul p a b =
    if a = 0x00#8 ∨ b = 0x00#8 then 0x00#8 else gfExp p ((gfLog p a + gfLog p b) % 255)) ∧
  (∀ (p : Poly) (g : Byte) (i j : Nat), g ≠ 0x00#8 →
    gfMul p (gfPow p g i) (gfPow p g j) = gfPow p g ((i + j) % 255))

/-- R133: the inverse is the unique factor that gives `0x01`, the tables give it, and the commands that would need the
inverse of `0x00` raise ZERO_INVERSE. -/
def Obligations.InverseIsUniqueAndByTheTables : Prop :=
  (∀ (p : Poly) (a : Byte), a ≠ 0x00#8 →
    gfMul p a (gfInv p a) = 0x01#8 ∧ (∀ b, gfMul p a b = 0x01#8 → b = gfInv p a) ∧
    gfInv p a = gfExp p ((255 - gfLog p a) % 255) ∧ gfInv p 0x01#8 = 0x01#8) ∧
  (∀ (s : State) (a : Byte),
    (∃ t, exec (.inv 0x00#8) s = .next t ∧ s.Failed t 0x05#8) ∧
    (∃ t, exec (.div a 0x00#8) s = .next t ∧ s.Failed t 0x05#8))

/-- R134: the power by the tables is the product of `e` equal factors. -/
def Obligations.PowerByTheTables : Prop :=
  ∀ (p : Poly) (a : Byte) (e : Nat), e < 256 → gfPow p a e =
    if e = 0 then 0x01#8 else if a = 0x00#8 then 0x00#8 else gfExp p ((gfLog p a * e) % 255)

/-- R48: the exponentiation table. -/
def Obligations.ExponentiationTable : Prop :=
  ∀ p : Poly, gfExp p 0 = 0x01#8 ∧ gfExp p 1 = p.gen ∧ (∀ i, gfExp p (i + 1) = gfMul p (gfExp p i) p.gen) ∧
    gfExp p 255 = 0x01#8

/-- R49: the logarithm of a non-zero element is the unique index in 0..254 at which the exponentiation table holds it; no
command reads the logarithm of `0x00`: LOG raises ZERO_LOG. -/
def Obligations.LogarithmTable : Prop :=
  (∀ (p : Poly) (a : Byte), a ≠ 0x00#8 →
    gfLog p a < 255 ∧ gfExp p (gfLog p a) = a ∧ ∀ i, i < 255 → gfExp p i = a → i = gfLog p a) ∧
  (∀ s : State, ∃ t, exec (.log 0x00#8) s = .next t ∧ s.Failed t 0x06#8)

/-- R171: Horner's method computes the sum of the coefficients times the powers of `x`, and a zero leading coefficient is
absent from it. -/
def Obligations.HornerIsTheSumOfPowers : Prop :=
  ∀ (p : Poly) (x : Byte) (c : List Byte),
    horner p x c = (List.range c.length).foldl (fun r i => r ^^^ gfMul p (c.getD i 0x00#8) (gfPow p x i)) 0x00#8 ∧
    horner p x (c ++ [0x00#8]) = horner p x c

/-! ## The commands of the field unit -/

/-- R136: ADD, its word (illegal only if `RSV ≠ 0`), its effect and its frame. It has no arithmetic error; `a = b` gives
`0x00` and `b = 0` gives `a`. -/
def Obligations.AddReturnsTheSum : Prop :=
  IllegalExactlyIf 0x01 RsvNotZero ∧ (∀ a : Byte, a ^^^ a = 0x00#8 ∧ a ^^^ 0x00#8 = a) ∧
  ∀ (s : State) (a b : Byte),
    decodeWord (BitVec.ofNat 32 (65536 * b.toNat + 256 * a.toNat + 0x01)) = .ok (.add a b) ∧
    ∃ t, exec (.add a b) s = .next t ∧ s.Returned t (a ^^^ b)

/-- R137: MUL, its word (illegal only if `RSV ≠ 0`), its effect and its frame. The result is the remainder of the product of
the polynomials by `POLY`. It has no arithmetic error. -/
def Obligations.MulReturnsTheReducedProduct : Prop :=
  IllegalExactlyIf 0x02 RsvNotZero ∧
  ∀ (s : State) (a b : Byte),
    decodeWord (BitVec.ofNat 32 (65536 * b.toNat + 256 * a.toNat + 0x02)) = .ok (.mul a b) ∧
    ∃ t r, exec (.mul a b) s = .next t ∧ s.Returned t r ∧
      ∃ q : Nat, q < 128 ∧ polyMul a.toNat b.toNat = polyMul q s.poly.value.toNat ^^^ r.toNat

/-- R138: DIV, its word (illegal only if `RSV ≠ 0`), the quotient (`a ⊗ inv(b)`, which times `b` is `a`), ZERO_INVERSE where
`b = 0`, whatever `a` is, and its frame. -/
def Obligations.DivReturnsTheQuotient : Prop :=
  IllegalExactlyIf 0x03 RsvNotZero ∧
  ∀ (s : State) (a b : Byte),
    decodeWord (BitVec.ofNat 32 (65536 * b.toNat + 256 * a.toNat + 0x03)) = .ok (.div a b) ∧
    (b ≠ 0x00#8 → ∃ t r, exec (.div a b) s = .next t ∧ s.Returned t r ∧
      r = gfMul s.poly a (gfInv s.poly b) ∧ gfMul s.poly r b = a) ∧
    (b = 0x00#8 → ∃ t, exec (.div a b) s = .next t ∧ s.Failed t 0x05#8)

/-- R139: INV, its word (illegal only if `RSV ≠ 0` or `B ≠ 0`), the inverse, whose inverse is `a`, ZERO_INVERSE where
`a = 0`, and its frame. -/
def Obligations.InvReturnsTheInverse : Prop :=
  IllegalExactlyIf 0x04 (fun w => RsvNotZero w ∨ FieldBNotZero w) ∧
  ∀ (s : State) (a : Byte),
    decodeWord (BitVec.ofNat 32 (256 * a.toNat + 0x04)) = .ok (.inv a) ∧
    (a ≠ 0x00#8 → ∃ t r, exec (.inv a) s = .next t ∧ s.Returned t r ∧ gfMul s.poly a r = 0x01#8 ∧
      gfInv s.poly r = a ∧ (a = 0x01#8 → r = 0x01#8)) ∧
    (a = 0x00#8 → ∃ t, exec (.inv a) s = .next t ∧ s.Failed t 0x05#8)

/-- R140: POW, its word (illegal only if `RSV ≠ 0`), the power by R134's three cases, and its frame. It has no arithmetic
error; exponent 1 gives `a`, and for `a ≠ 0` exponent 255 gives `0x01` and exponent 254 the inverse. -/
def Obligations.PowReturnsThePower : Prop :=
  IllegalExactlyIf 0x05 RsvNotZero ∧
  ∀ (s : State) (a e : Byte),
    decodeWord (BitVec.ofNat 32 (65536 * e.toNat + 256 * a.toNat + 0x05)) = .ok (.pow a e.toNat) ∧
    ∃ t r, exec (.pow a e.toNat) s = .next t ∧ s.Returned t r ∧
      (r = if e = 0x00#8 then 0x01#8 else if a = 0x00#8 then 0x00#8
          else gfExp s.poly ((gfLog s.poly a * e.toNat) % 255)) ∧
      (e = 0x01#8 → r = a) ∧ (a ≠ 0x00#8 → e = 0xFF#8 → r = 0x01#8) ∧ (a ≠ 0x00#8 → e = 0xFE#8 → r = gfInv s.poly a)

/-- R141: EXP, its word (illegal only if `RSV ≠ 0` or `B ≠ 0`), the entry of the exponentiation table, and its
frame. Every index is valid; indices 0 and 255 give `0x01` and index 1 gives `GEN`. -/
def Obligations.ExpReturnsTheTableEntry : Prop :=
  IllegalExactlyIf 0x06 (fun w => RsvNotZero w ∨ FieldBNotZero w) ∧
  ∀ (s : State) (i : Byte),
    decodeWord (BitVec.ofNat 32 (256 * i.toNat + 0x06)) = .ok (.exp i.toNat) ∧
    ∃ t r, exec (.exp i.toNat) s = .next t ∧ s.Returned t r ∧ r = gfPow s.poly s.poly.gen i.toNat ∧
      (i = 0x00#8 ∨ i = 0xFF#8 → r = 0x01#8) ∧ (i = 0x01#8 → r = s.poly.gen)

/-- R142: LOG, its word (illegal only if `RSV ≠ 0` or `B ≠ 0`), the index 0..254 at which the exponentiation table holds `a`
(0 for `0x01`, 1 for `GEN`), ZERO_LOG where `a = 0`, and its frame. -/
def Obligations.LogReturnsTheIndex : Prop :=
  IllegalExactlyIf 0x07 (fun w => RsvNotZero w ∨ FieldBNotZero w) ∧
  ∀ (s : State) (a : Byte),
    decodeWord (BitVec.ofNat 32 (256 * a.toNat + 0x07)) = .ok (.log a) ∧
    (a ≠ 0x00#8 → ∃ t r, exec (.log a) s = .next t ∧ s.Returned t r ∧ r.toNat < 255 ∧ gfExp s.poly r.toNat = a ∧
      (a = 0x01#8 → r = 0x00#8) ∧ (a = s.poly.gen → r = 0x01#8)) ∧
    (a = 0x00#8 → ∃ t, exec (.log a) s = .next t ∧ s.Failed t 0x06#8)

/-! ## The polynomial evaluator -/

/-- PEVAL completes (R172): with `K ≠ 0`, a valid range and ordinary readable memory there, `RESULT` is the value of the
polynomial whose coefficient of `x^i` is the byte at `base + i` (R170), and nothing else changes. -/
def Obligations.PevalReturnsTheValue : Prop :=
  ∀ (s : State) (x : Byte) (k : Nat), k ≠ 0 → s.lc.argA.toNat + k ≤ memSize →
    s.platform.Plain .read { base := s.lc.argA.toNat, len := k } →
    ∃ t r, exec (.peval x k) s = .next t ∧ s.Returned t r ∧
      r = (List.range k).foldl (fun acc i =>
        acc ^^^ gfMul s.poly (Memory.read s.mem (s.lc.argA.toNat + i)) (gfPow s.poly x i)) 0x00#8

/-- PEVAL's errors in their order (R172, R213): PARAM, RANGE, BUS_ERROR, each with `RESULT` and memory as before. -/
def Obligations.PevalErrorsInOrder : Prop :=
  ∀ (s : State) (x : Byte) (k : Nat),
    (k = 0 → ∃ t, exec (.peval x k) s = .next t ∧ s.Failed t 0x01#8) ∧
    (k ≠ 0 → memSize < s.lc.argA.toNat + k → ∃ t, exec (.peval x k) s = .next t ∧ s.Failed t 0x08#8) ∧
    (k ≠ 0 → s.lc.argA.toNat + k ≤ memSize → s.platform.NoWindow .read { base := s.lc.argA.toNat, len := k } →
      s.platform.SomeBusError .read { base := s.lc.argA.toNat, len := k } →
      ∃ t, exec (.peval x k) s = .next t ∧ s.Failed t 0x09#8)

/-- PEVALV completes (R173): with `K ≠ 0`, `x ≠ 0`, valid ranges of ordinary memory and an output range apart from the input
range, byte `p` of the output is row `p` evaluated at `x`, and nothing else changes. -/
def Obligations.PevalvWritesTheValues : Prop :=
  ∀ (s : State) (x : Byte) (k : Nat), Memory.wf s.mem = true → k ≠ 0 → x ≠ 0x00#8 →
    s.lc.argA.toNat + s.lc.argN.toNat * k ≤ memSize → s.lc.argB.toNat + s.lc.argN.toNat ≤ memSize →
    s.platform.Plain .read { base := s.lc.argA.toNat, len := s.lc.argN.toNat * k } →
    s.platform.Plain .write { base := s.lc.argB.toNat, len := s.lc.argN.toNat } →
    ByteRange.Apart { base := s.lc.argB.toNat, len := s.lc.argN.toNat }
      { base := s.lc.argA.toNat, len := s.lc.argN.toNat * k } →
    ∃ t, exec (.pevalv x k) s = .next t ∧
      s.Wrote t { base := s.lc.argB.toNat, len := s.lc.argN.toNat }
        (fun p => horner s.poly x (Memory.readBytes s.mem (s.lc.argA.toNat + p * k) k))

/-- PEVALV's errors before its loop, in their order (R173, R213): PARAM for `K = 0` and for `x = 0`, then RANGE for either
range, each with `RESULT` as before, and memory as before but for an output range that an overlap or a device opens (R85, R79,
log 8). -/
def Obligations.PevalvErrorsInOrder : Prop :=
  ∀ (s : State) (x : Byte) (k : Nat), Memory.wf s.mem = true →
    (k = 0 ∨ x = 0x00#8 → ∃ t, exec (.pevalv x k) s = .next t ∧
      s.CheckFailed t 0x01#8 [{ base := s.lc.argA.toNat, len := s.lc.argN.toNat * k }]
        { base := s.lc.argB.toNat, len := s.lc.argN.toNat }) ∧
    (k ≠ 0 → x ≠ 0x00#8 →
      memSize < s.lc.argA.toNat + s.lc.argN.toNat * k ∨ memSize < s.lc.argB.toNat + s.lc.argN.toNat →
      ∃ t, exec (.pevalv x k) s = .next t ∧
        s.CheckFailed t 0x08#8 [{ base := s.lc.argA.toNat, len := s.lc.argN.toNat * k }]
          { base := s.lc.argB.toNat, len := s.lc.argN.toNat })

/-! ## The interpolation engine -/

/-- INTERP completes (R193): with a readable table of shares of equal length and distinct x-coordinates, valid ranges of
ordinary memory, and an output range apart from every input range, byte `p` of the output is the sum over the shares of
`y_i ⊗ w[i]`, and nothing else changes. -/
def Obligations.InterpWritesTheRecoveredBytes : Prop :=
  ∀ s : State, Memory.wf s.mem = true → s.TableReadable → s.LengthsAgree → s.XsDistinct → s.ShareRangesValid →
    (∀ i, i < s.shareCount → s.platform.Plain .read (s.shareRange i)) → s.platform.Plain .write s.shareOutput →
    s.shareOutput.Apart s.shareTable → (∀ i, i < s.shareCount → s.shareOutput.Apart (s.shareRange i)) →
    ∃ t, exec .interp s = .next t ∧ s.Wrote t s.shareOutput s.recoveredByte

/-- INTERP's errors before its output phase, in their order (R193, R213): INSUFFICIENT, RANGE of the table, BUS_ERROR of the
table, MALFORMED, DUPLICATE, RANGE of a y-value range or the output range, each with `RESULT` as before, and memory as before
but, once the table is read, for an output range that an overlap or a device opens (R85, R79, log 8). -/
def Obligations.InterpErrorsInOrder : Prop :=
  ∀ s : State, Memory.wf s.mem = true →
    (s.shareCount = 0 → ∃ t, exec .interp s = .next t ∧ s.Failed t 0x04#8) ∧
    (s.shareCount ≠ 0 → memSize < s.lc.argA.toNat + 8 * s.shareCount →
      ∃ t, exec .interp s = .next t ∧ s.Failed t 0x08#8) ∧
    (s.shareCount ≠ 0 → s.lc.argA.toNat + 8 * s.shareCount ≤ memSize → s.platform.NoWindow .read s.shareTable →
      s.platform.SomeBusError .read s.shareTable → ∃ t, exec .interp s = .next t ∧ s.Failed t 0x09#8) ∧
    (s.TableReadable → ¬ s.LengthsAgree →
      ∃ t, exec .interp s = .next t ∧ s.CheckFailed t 0x02#8 s.shareInputs s.shareOutput) ∧
    (s.TableReadable → s.LengthsAgree → ¬ s.XsDistinct →
      ∃ t, exec .interp s = .next t ∧ s.CheckFailed t 0x03#8 s.shareInputs s.shareOutput) ∧
    (s.TableReadable → s.LengthsAgree → s.XsDistinct → ¬ s.ShareRangesValid →
      ∃ t, exec .interp s = .next t ∧ s.CheckFailed t 0x08#8 s.shareInputs s.shareOutput)

/-- R195: a share with `x = 0` is accepted; its weight is `0x01` and every other weight is `0x00`, so the output is that
share's y-values. -/
def Obligations.ShareAtZeroIsTheOutput : Prop :=
  ∀ (s : State) (i : Nat), Memory.wf s.mem = true → s.TableReadable → s.LengthsAgree → s.XsDistinct →
    s.ShareRangesValid → (∀ j, j < s.shareCount → s.platform.Plain .read (s.shareRange j)) →
    s.platform.Plain .write s.shareOutput → s.shareOutput.Apart s.shareTable →
    (∀ j, j < s.shareCount → s.shareOutput.Apart (s.shareRange j)) →
    i < s.shareCount → s.shareX i = 0x00#8 →
    lagrangeWeight s.poly s.shareXs i = 0x01#8 ∧
    (∀ j, j < s.shareCount → j ≠ i → lagrangeWeight s.poly s.shareXs j = 0x00#8) ∧
    ∃ t, exec .interp s = .next t ∧
      s.Wrote t s.shareOutput (fun p => Memory.read s.mem (s.shareAddr i + p))

/-- R196: where the y-values of `M ≥ K` shares are the values at their x-coordinates of one polynomial of `K` coefficients
for each position, as PEVALV makes them, INTERP writes the constant terms, whichever shares they are. -/
def Obligations.InterpRecoversTheSecret : Prop :=
  ∀ (s : State) (k : Nat) (c : Nat → List Byte), Memory.wf s.mem = true → s.TableReadable → s.LengthsAgree →
    s.XsDistinct → s.ShareRangesValid → (∀ i, i < s.shareCount → s.platform.Plain .read (s.shareRange i)) →
    s.platform.Plain .write s.shareOutput → s.shareOutput.Apart s.shareTable →
    (∀ i, i < s.shareCount → s.shareOutput.Apart (s.shareRange i)) →
    1 ≤ k → k ≤ s.shareCount → (∀ p, (c p).length = k) →
    (∀ i p, i < s.shareCount → p < s.shareLen 0 →
      Memory.read s.mem (s.shareAddr i + p) = horner s.poly (s.shareX i) (c p)) →
    ∃ t, exec .interp s = .next t ∧ s.Wrote t s.shareOutput (fun p => (c p).headD 0x00#8)

/-- More than 256 shares always fail, with MALFORMED where their lengths differ and DUPLICATE otherwise (R193's corner
cases), with memory as before but for an open output range (log 8). -/
def Obligations.MoreThan256SharesFail : Prop :=
  ∀ s : State, Memory.wf s.mem = true → s.TableReadable → 256 < s.shareCount →
    ∃ t, exec .interp s = .next t ∧
      ((¬ s.LengthsAgree → s.CheckFailed t 0x02#8 s.shareInputs s.shareOutput) ∧
        (s.LengthsAgree → s.CheckFailed t 0x03#8 s.shareInputs s.shareOutput))

/-! ## Open output bytes -/

/-- R215: after a bus error in the output phase of PEVALV or INTERP, `ERR` is BUS_ERROR, every byte of the output range is a
free value, and no byte outside it changes. -/
def Obligations.LateBusErrorLeavesTheOutputOpen : Prop :=
  (∀ (s : State) (x : Byte) (k : Nat), Memory.wf s.mem = true → k ≠ 0 → x ≠ 0x00#8 →
    s.lc.argA.toNat + s.lc.argN.toNat * k ≤ memSize → s.lc.argB.toNat + s.lc.argN.toNat ≤ memSize →
    s.platform.NoWindow .read { base := s.lc.argA.toNat, len := s.lc.argN.toNat * k } →
    s.platform.NoWindow .write { base := s.lc.argB.toNat, len := s.lc.argN.toNat } →
    s.platform.SomeBusError .read { base := s.lc.argA.toNat, len := s.lc.argN.toNat * k } ∨
      s.platform.SomeBusError .write { base := s.lc.argB.toNat, len := s.lc.argN.toNat } →
    ∃ t, exec (.pevalv x k) s = .next t ∧
      s.EndedOpen t 0x09#8 { base := s.lc.argB.toNat, len := s.lc.argN.toNat }) ∧
  (∀ s : State, Memory.wf s.mem = true → s.TableReadable → s.LengthsAgree → s.XsDistinct → s.ShareRangesValid →
    (∀ i, i < s.shareCount → s.platform.NoWindow .read (s.shareRange i)) → s.platform.NoWindow .write s.shareOutput →
    (∃ i, i < s.shareCount ∧ s.platform.SomeBusError .read (s.shareRange i)) ∨
      s.platform.SomeBusError .write s.shareOutput →
    ∃ t, exec .interp s = .next t ∧ s.EndedOpen t 0x09#8 s.shareOutput)

/-- An output range that shares a byte with an input range (R85): whatever error or success the command ends with, every byte
of its output range is a free value, and nothing else changes but `ERR`; with the checks passed and every access completing,
the command succeeds. (What the ranges are is said for PEVALV, and for INTERP over a readable table; that an INTERP that ends
before its table is read has none is the model's reading, log 8.) -/
def Obligations.OverlapLeavesTheOutputOpen : Prop :=
  (∀ (i : Instr) (s t : State), Memory.wf s.mem = true → exec i s = .next t →
    (∃ r ∈ s.inputsOf i, ¬ (s.outputOf i).Apart r) → s.EndedOpen t t.err (s.outputOf i)) ∧
  (∀ (s : State) (x : Byte) (k : Nat),
    s.inputsOf (.pevalv x k) = [{ base := s.lc.argA.toNat, len := s.lc.argN.toNat * k }] ∧
    s.outputOf (.pevalv x k) = { base := s.lc.argB.toNat, len := s.lc.argN.toNat } ∧
    (s.TableReadable → s.inputsOf .interp = s.shareInputs ∧ s.outputOf .interp = s.shareOutput)) ∧
  (∀ (s : State) (x : Byte) (k : Nat), Memory.wf s.mem = true → k ≠ 0 → x ≠ 0x00#8 →
    s.lc.argA.toNat + s.lc.argN.toNat * k ≤ memSize → s.lc.argB.toNat + s.lc.argN.toNat ≤ memSize →
    s.platform.Plain .read { base := s.lc.argA.toNat, len := s.lc.argN.toNat * k } →
    s.platform.Plain .write { base := s.lc.argB.toNat, len := s.lc.argN.toNat } →
    ¬ ByteRange.Apart { base := s.lc.argB.toNat, len := s.lc.argN.toNat }
      { base := s.lc.argA.toNat, len := s.lc.argN.toNat * k } →
    ∃ t, exec (.pevalv x k) s = .next t ∧
      s.EndedOpen t 0x00#8 { base := s.lc.argB.toNat, len := s.lc.argN.toNat }) ∧
  (∀ s : State, Memory.wf s.mem = true → s.TableReadable → s.LengthsAgree → s.XsDistinct → s.ShareRangesValid →
    (∀ i, i < s.shareCount → s.platform.Plain .read (s.shareRange i)) → s.platform.Plain .write s.shareOutput →
    (¬ s.shareOutput.Apart s.shareTable ∨ ∃ i, i < s.shareCount ∧ ¬ s.shareOutput.Apart (s.shareRange i)) →
    ∃ t, exec .interp s = .next t ∧ s.EndedOpen t 0x00#8 s.shareOutput)

/-- Ranges that hold a device's byte (R79): PEVALV and INTERP leave every byte of their output range a free value, whatever
error or success they end with (log 8), and change nothing else but `ERR`; with the checks passed and every access completing,
PEVAL succeeds with a free `RESULT` (log 11), and PEVALV and INTERP (its table being ordinary memory) succeed (log 12). -/
def Obligations.DeviceRangesLeaveTheResultOpen : Prop :=
  (∀ (i : Instr) (s t : State), Memory.wf s.mem = true → exec i s = .next t → ((∃ x k, i = .pevalv x k) ∨ i = .interp) →
    (∃ r ∈ s.outputOf i :: s.inputsOf i, s.platform.HasDevice r) → s.EndedOpen t t.err (s.outputOf i)) ∧
  (∀ (s : State) (x : Byte) (k : Nat), k ≠ 0 → s.lc.argA.toNat + k ≤ memSize →
    (∀ a, s.lc.argA.toNat ≤ a → a < s.lc.argA.toNat + k →
      s.platform.memOk a .read = true ∧ s.platform.isWindow a = false) →
    (∃ a, s.lc.argA.toNat ≤ a ∧ a < s.lc.argA.toNat + k ∧ s.platform.isDevice a = true) →
    ∃ t, exec (.peval x k) s = .next t ∧ t.err = 0x00#8 ∧ (∃ n, t.result = Config.freeResult n) ∧ t.mem = s.mem ∧
      s.CommandFrame t) ∧
  (∀ (s : State) (x : Byte) (k : Nat), Memory.wf s.mem = true → k ≠ 0 → x ≠ 0x00#8 →
    s.lc.argA.toNat + s.lc.argN.toNat * k ≤ memSize → s.lc.argB.toNat + s.lc.argN.toNat ≤ memSize →
    (∀ a, s.lc.argA.toNat ≤ a → a < s.lc.argA.toNat + s.lc.argN.toNat * k →
      s.platform.memOk a .read = true ∧ s.platform.isWindow a = false) →
    (∀ a, s.lc.argB.toNat ≤ a → a < s.lc.argB.toNat + s.lc.argN.toNat →
      s.platform.memOk a .write = true ∧ s.platform.isWindow a = false) →
    (∃ a, (s.lc.argA.toNat ≤ a ∧ a < s.lc.argA.toNat + s.lc.argN.toNat * k ∨
        s.lc.argB.toNat ≤ a ∧ a < s.lc.argB.toNat + s.lc.argN.toNat) ∧ s.platform.isDevice a = true) →
    ∃ t, exec (.pevalv x k) s = .next t ∧
      s.EndedOpen t 0x00#8 { base := s.lc.argB.toNat, len := s.lc.argN.toNat }) ∧
  (∀ s : State, Memory.wf s.mem = true → s.TableReadable → s.LengthsAgree → s.XsDistinct → s.ShareRangesValid →
    (∀ i a, i < s.shareCount → (s.shareRange i).Holds a →
      s.platform.memOk a .read = true ∧ s.platform.isWindow a = false) →
    (∀ a, s.shareOutput.Holds a → s.platform.memOk a .write = true ∧ s.platform.isWindow a = false) →
    (∃ a, (s.shareOutput.Holds a ∨ ∃ i, i < s.shareCount ∧ (s.shareRange i).Holds a) ∧ s.platform.isDevice a = true) →
    ∃ t, exec .interp s = .next t ∧ s.EndedOpen t 0x00#8 s.shareOutput)

/-! ## All commands -/

/-- The frame of every command: it completes, the registers other than `RESULT` and `ERR`, the parameters and everything
outside the core are unchanged, and every byte of memory outside its output range reads as before (R78, R210, R211). The
output range is the one the command's meaning uses; the commands without one change no byte. -/
def Obligations.EveryCommandKeepsItsFrame : Prop :=
  ∀ (i : Instr) (s t : State), Memory.wf s.mem = true → exec i s = .next t →
    s.CommandFrame t ∧ s.SameOutside t (s.outputOf i) ∧
    ((∀ x k, i ≠ .pevalv x k) → i ≠ .interp → t.mem = s.mem) ∧
    (∀ x k, i = .pevalv x k → s.outputOf i = { base := s.lc.argB.toNat, len := s.lc.argN.toNat }) ∧
    (i = .interp → s.TableReadable → s.outputOf i = s.shareOutput)

/-- No command reports an error that R212 does not list for it. -/
def Obligations.CommandsReportOnlyTheirErrors : Prop :=
  ∀ (i : Instr) (s t : State), exec i s = .next t → t.err.toNat ∈ mayReport i

/-- R214: every error but a BUS_ERROR in the output phase of PEVALV or INTERP leaves memory and `RESULT` as before the
command; a BUS_ERROR leaves `RESULT` as before. Where an overlap or a device opens the output range whatever the error is (R85,
R79, log 8), its bytes are free values instead. -/
def Obligations.EarlyErrorsArePrecise : Prop :=
  ∀ (i : Instr) (s t : State), Memory.wf s.mem = true → exec i s = .next t → t.err ≠ 0x00#8 →
    s.CommandFrame t ∧ t.result = s.result ∧
    (t.err ≠ 0x09#8 → s.CheckFailed t t.err (s.inputsOf i) (s.outputOf i)) ∧ (∀ x k, i = .peval x k → t.mem = s.mem) ∧
    (i = .interp → s.platform.SomeBusError .read s.shareTable → t.mem = s.mem)

/-- R248, R44: a command runs on its latched arguments, so what a host writes to the argument registers meanwhile changes
nothing but these registers. -/
def Obligations.CommandsRunOnLatchedArguments : Prop :=
  ∀ (i : Instr) (s : State) (a b : Word) (n : Half),
    (∀ t, exec i s = .next t →
      exec i { s with argA := a, argB := b, argN := n } = .next { t with argA := a, argB := b, argN := n }) ∧
    (∀ f, exec i s = .fault f → exec i { s with argA := a, argB := b, argN := n } = .fault f)

/-- R218: a command's `ERR` and `RESULT`, and its output where it succeeds, depend on nothing but the command, the latched
arguments, the polynomial, the platform and the bytes of its input ranges (and, where these are open, the free values drawn):
a second state that differs in the rest gives the same. A command that leaves `RESULT` leaves either state's own. -/
def Obligations.CommandsDependOnlyOnTheirInputs : Prop :=
  ∀ (i : Instr) (s u t : State), Memory.wf s.mem = true → Memory.wf u.mem = true →
    u.poly = s.poly → u.platform = s.platform → u.lc = s.lc → u.draws = s.draws →
    (∀ r ∈ s.inputsOf i, ∀ a, r.Holds a → Memory.read u.mem a = Memory.read s.mem a) → exec i s = .next t →
    ∃ v, exec i u = .next v ∧ v.err = t.err ∧
      (u.result = s.result ∨ (t.err = 0x00#8 ∧ (∀ x k, i ≠ .pevalv x k) ∧ i ≠ .interp) → v.result = t.result) ∧
      (t.err = 0x00#8 → ∀ a, (s.outputOf i).Holds a → Memory.read v.mem a = Memory.read t.mem a)

/-- A command stops only where one of its accesses reaches the register window, where it has no defined effect (R70): an
address of its input or output ranges is mapped to it, and does not answer with a bus error instead (R9). Then it stops with
that fault, which is the model's choice (log 13). PEVAL, and PEVALV past its checks, whose accesses their operands name, stop
exactly there. -/
def Obligations.OnlyTheWindowStopsACommand : Prop :=
  (∀ (i : Instr) (s : State) (f : Fault), exec i s = .fault f → f = .windowThroughMemoryPort ∧
    ((∃ r ∈ s.inputsOf i, s.platform.ReachesWindow .read r) ∨ s.platform.ReachesWindow .write (s.outputOf i))) ∧
  (∀ (i : Instr) (s : State), (∀ r ∈ s.inputsOf i, s.platform.NoWindow .read r) →
    s.platform.NoWindow .write (s.outputOf i) → ∃ t, exec i s = .next t) ∧
  (∀ (s : State) (x : Byte) (k : Nat), k ≠ 0 → s.lc.argA.toNat + k ≤ memSize →
    (s.platform.ReachesWindow .read { base := s.lc.argA.toNat, len := k } ↔
      exec (.peval x k) s = .fault .windowThroughMemoryPort)) ∧
  (∀ (s : State) (x : Byte) (k : Nat), k ≠ 0 → x ≠ 0x00#8 → s.lc.argA.toNat + s.lc.argN.toNat * k ≤ memSize →
    s.lc.argB.toNat + s.lc.argN.toNat ≤ memSize →
    (s.platform.ReachesWindow .read { base := s.lc.argA.toNat, len := s.lc.argN.toNat * k } ∨
        s.platform.ReachesWindow .write { base := s.lc.argB.toNat, len := s.lc.argN.toNat } ↔
      exec (.pevalv x k) s = .fault .windowThroughMemoryPort))

/-! ## Steps -/

/-- A step of the core runs the command that `LC` decodes to: where the core moves next and no host duty was broken, the
step is `exec` of it (R104, R253). Where one was broken (R84, log 9), the step is `exec` of it with the free values that
`spoilCompletion` puts in. -/
def Obligations.StepRunsTheDecodedCommand : Prop :=
  ∀ (s s' : State) (i : Instr), s.busy = true → s.lc.decode = .ok i → s.CoreMoves s' →
    (s.spoiled = [] → step s = exec i s') ∧
    (s.spoiled ≠ [] →
      (∀ t, exec i s' = .next t → step s = .next (s'.spoilCompletion t)) ∧
      (∀ f, exec i s' = .fault f → step s = .fault f))

/-- A running command completes when the core moves, unless an access of its ranges reaches the register window (R252, R70,
R9). That an empty `inputs` lets the core move (log 24), and what `LC` and the spoiled ranges are then (log 15, log 9), is the
model's own. -/
def Obligations.EveryRunningCommandCompletes : Prop :=
  ∀ s s' : State, s.busy = true → (∀ r ∈ s.latchedInputs, s.platform.NoWindow .read r) →
    s.platform.NoWindow .write s.latchedOutput → s.CoreMoves s' →
    ∃ t, step s = .next t ∧ t.busy = false ∧ t.lc = Latched.idle ∧ t.spoiled = []

/-- R226, R244: an idle core does nothing when it moves. -/
def Obligations.IdleCoreDoesNothing : Prop :=
  ∀ s s' : State, s.busy = false → s.CoreMoves s' → step s = .next s'

/-- R247: `RESULT` and `ERR` change only at completion (or by a reset, R241): a step that is neither, as every step after
which a command still runs, leaves both as they were, so a read meanwhile returns the previous command's values. -/
def Obligations.ResultAndErrChangeOnlyAtCompletion : Prop :=
  ∀ s t : State, step s = .next t →
    (t.busy = true → t.result = s.result ∧ t.err = s.err) ∧
    (s.busy = false → (∀ rest, ¬ s.NextIsReset rest) → t.result = s.result ∧ t.err = s.err)

/-- `OVR` rises only by a `CMD` write that was ignored because a command was running (R38, R39). -/
def Obligations.OverrunRisesOnlyByALostCommand : Prop :=
  ∀ s t : State, step s = .next t → s.ovr = false → t.ovr = true →
    s.busy = true ∧ ∃ w rest, s.inputs = .host (.regWrite (s.platform.regBase + 0x14) .word w) :: rest

/-- Memory changes only where a host writes it, or where a running command ends, by completion (R78) or by a reset (R242), and
the byte is in its output range (or in one that a broken host duty left open, log 9). The output range is the model's: the one
that `LC` and memory give at that moment (log 14), also where a host overwrote an INTERP's descriptors meanwhile (log 10) or
its table is mapped to the register window (log 32); for the hardware reset input that moment is its assertion (log 22). -/
def Obligations.CoreWritesOnlyItsOutputRange : Prop :=
  ∀ (s t : State) (a : Nat), Memory.wf s.mem = true → step s = .next t → Memory.read t.mem a ≠ Memory.read s.mem a →
    (∃ (w : Word) (v : Byte) (rest : List Input), w.toNat = a ∧ s.inputs = .host (.memWrite w v) :: rest) ∨
    (s.busy = true ∧ t.busy = false ∧ ∃ r ∈ s.latchedOutput :: s.spoiled, r.Holds a)

/-- No step changes the polynomial, and with it the tables (R50); nor the platform's parameters, which the model takes as fixed
(R6 and R72 as log 28 reads them). -/
def Obligations.PolynomialAndTablesNeverChange : Prop :=
  ∀ s t : State, step s = .next t →
    t.poly = s.poly ∧ t.platform = s.platform ∧ gfExp t.poly = gfExp s.poly ∧ gfLog t.poly = gfLog s.poly

/-! ## The register window -/

/-- A read of the window returns the register's value and has no side effect (R33 to R45). -/
def Obligations.RegisterReadsReturnTheRegisters : Prop :=
  ∀ (s : State) (off : Nat) (rest : List Input), s.NextIsRegRead off rest →
    step s = .next { s with inputs := rest, replies := .reg (s.windowValue off) :: s.replies }

/-- R45, R33: the reserved offsets read as zero, and a write to a reserved or read-only register is ignored. -/
def Obligations.ReservedAndReadOnlyRegistersIgnoreWrites : Prop :=
  (∀ (s : State) (off : Nat) (rest : List Input), off ∈ [0x28, 0x2C, 0x30, 0x34, 0x38, 0x3C] →
    s.NextIsRegRead off rest → step s = .next { s with inputs := rest, replies := .reg 0#32 :: s.replies }) ∧
  (∀ (s : State) (off : Nat) (v : Word) (rest : List Input),
    off ∈ [0x00, 0x08, 0x0C, 0x10, 0x18, 0x28, 0x2C, 0x30, 0x34, 0x38, 0x3C] →
    s.NextIsRegWrite off v rest → step s = .next { s with inputs := rest })

/-- A write of an argument register takes effect at once, busy or not; `ARG_N` keeps bits 15:0 (R41 to R43). -/
def Obligations.ArgumentRegisterWrites : Prop :=
  ∀ (s : State) (v : Word) (rest : List Input),
    (s.NextIsRegWrite 0x1C v rest → step s = .next { s with inputs := rest, argA := v }) ∧
    (s.NextIsRegWrite 0x20 v rest → step s = .next { s with inputs := rest, argB := v }) ∧
    (s.NextIsRegWrite 0x24 v rest →
      step s = .next { s with inputs := rest, argN := BitVec.ofNat 16 (v.toNat % 65536) })

/-- R35: `CTRL`. Bit 0 resets the core and clears `OVR` whatever bit 1 is, bit 1 alone clears `OVR`, the other bits do
nothing, busy or not; a read returns zero. -/
def Obligations.ControlRegisterPulses : Prop :=
  ∀ (s : State) (v : Word) (rest : List Input),
    (s.NextIsRegWrite 0x04 v rest →
      (v.toNat % 2 = 1 → ∃ t, step s = .next t ∧ t.busy = false ∧ t.ovr = false ∧ t.err = 0x00#8 ∧ t.result = 0x00#8 ∧
        t.argA = 0#32 ∧ t.argB = 0#32 ∧ t.argN = 0#16 ∧ t.inputs = rest) ∧
      (v.toNat % 4 = 2 → step s = .next { s with inputs := rest, ovr := false }) ∧
      (v.toNat % 4 = 0 → step s = .next { s with inputs := rest })) ∧
    (s.NextIsRegRead 0x04 rest → step s = .next { s with inputs := rest, replies := .reg 0#32 :: s.replies })

/-- R39: a `CMD` write issues where the core is idle, latching the word and the arguments, whether or not the word decodes, and
is ignored but for `OVR` where it is busy; `LC` then decodes as the word does. A read of `CMD` returns zero. -/
def Obligations.CommandWriteIssuesOrSetsOverrun : Prop :=
  (∀ (s : State) (rest : List Input), s.NextIsRegRead 0x14 rest →
    step s = .next { s with inputs := rest, replies := .reg 0#32 :: s.replies }) ∧
  ∀ (s : State) (w : Word) (rest : List Input), s.NextIsRegWrite 0x14 w rest →
    (s.busy = false → ∃ lc : Latched, step s = .next { s with inputs := rest, busy := true, lc := lc, spoiled := [] } ∧
      lc.op.toNat = w.toNat % 256 ∧ lc.a.toNat = w.toNat / 256 % 256 ∧ lc.b.toNat = w.toNat / 65536 % 256 ∧
      lc.rsv.toNat = w.toNat / 16777216 ∧ lc.argA = s.argA ∧ lc.argB = s.argB ∧ lc.argN = s.argN ∧
      lc.decode = decodeWord w) ∧
    (s.busy = true → step s = .next { s with inputs := rest, ovr := true })

/-- R75, R243: in the window, an access while the reset input is asserted is refused, and so is one that is narrower than 32
bits or misaligned. -/
def Obligations.UndefinedRegisterAccessesAreRefused : Prop :=
  ∀ (s : State) (addr : Nat) (width : AccessWidth) (v : Word) (rest : List Input),
    s.platform.regBase ≤ addr → addr < s.platform.regBase + 64 →
    (s.inputs = .host (.regRead addr width) :: rest ∨ s.inputs = .host (.regWrite addr width v) :: rest) →
    (s.inReset = true → step s = .refused .registerAccessInReset) ∧
    (s.inReset = false → width ≠ .word ∨ addr % 4 ≠ 0 → step s = .refused .registerAccessShape)

/-! ## Reset -/

/-- R241: what either reset leaves. -/
def Obligations.ResetEffect : Prop :=
  ∀ (s : State) (rest : List Input), s.NextIsReset rest →
    ∃ t, step s = .next t ∧ t.busy = false ∧ t.ovr = false ∧ t.err = 0x00#8 ∧ t.result = 0x00#8 ∧ t.argA = 0#32 ∧
      t.argB = 0#32 ∧ t.argN = 0#16 ∧ t.windowValue 0x00 = s.windowValue 0x00 ∧ t.poly = s.poly ∧
      t.platform = s.platform ∧ (s.busy = false → t.mem = s.mem) ∧ t.inputs = rest ∧ t.replies = s.replies

/-- A reset while a command runs reports no error, leaves every byte of the command's output range a free value, and changes no
byte outside that range (R242). The range is the one that `LC` and memory give at that moment, in the memory space, and none
for an illegal word or an INTERP that cannot read its table (log 14, log 32), also where a host overwrote an INTERP's
descriptors meanwhile (log 10); for the hardware reset input that moment is its assertion (log 22); bytes that a broken host
duty had left open change too (R84, log 9). -/
def Obligations.ResetWhileRunningLeavesTheOutputOpen : Prop :=
  ∀ (s : State) (rest : List Input), Memory.wf s.mem = true → s.busy = true → s.NextIsReset rest →
    (∀ i, s.lc.decode = .ok i → s.latchedOutput = s.outputOf i) ∧
    ∃ t, step s = .next t ∧ t.busy = false ∧ t.err = 0x00#8 ∧
      (∃ n, ∀ a, s.latchedOutput.Holds a → a < memSize → Memory.read t.mem a = Config.freeByte n a) ∧
      (∀ a, ¬ s.latchedOutput.Holds a → (∀ r ∈ s.spoiled, ¬ r.Holds a) → Memory.read t.mem a = Memory.read s.mem a)

/-- R243: the hardware reset input, asserted and then released, leaves the registers of R241; while it is asserted the core is
idle and in reset. -/
def Obligations.ReleasedResetLeavesTheResetState : Prop :=
  ∀ (s : State) (rest : List Input), s.inputs = .resetAssert :: .resetRelease :: rest →
    ∃ t u, step s = .next t ∧ t.inReset = true ∧ t.busy = false ∧ step t = .next u ∧ u.inReset = false ∧ u.inputs = rest ∧
      u.busy = false ∧ ∀ off, u.windowValue off = (State.resetOf s.poly s.platform).windowValue off

/-- R33, R241: what the sixteen registers of a core read as right after reset, in `State.resetOf` (log 5). -/
def Obligations.RegistersAfterReset : Prop :=
  ∀ (p : Poly) (pl : Platform),
    [0x00, 0x04, 0x08, 0x0C, 0x10, 0x14, 0x18, 0x1C, 0x20, 0x24, 0x28, 0x2C, 0x30, 0x34, 0x38, 0x3C].map
        (fun off => (State.resetOf p pl).regRead (Reg.atOffset off)) =
      [0x47460001#32, 0#32, p.value.setWidth 32, p.gen.setWidth 32, 0#32, 0#32, 0#32, 0#32, 0#32, 0#32, 0#32, 0#32, 0#32,
       0#32, 0#32, 0#32]

/-! ## Broken host duties -/

/-- What hosts do to memory, the core being busy or idle. A host's write stores its byte (R82; whatever `MEM_OK` says, log 20).
While a command runs, a write to its ranges or a read of its output range (also of one it had before an earlier such access,
log 9) makes the output range unspecified at completion, and the read returns a free value (R84); any other read of ordinary
memory returns the stored byte (R84, log 20). At that completion, with success or an error, every byte of these ranges is a free value (log 9),
and so is the `RESULT` of a PEVAL that succeeds (log 11). The ranges are those that `LC` and memory give at that moment, also
for an INTERP whose descriptors a host overwrote (log 10) or whose table is mapped to the register window (log 32). -/
def Obligations.HostAccessToARunningCommand : Prop :=
  (∀ (s : State) (a : Word) (v : Byte) (rest : List Input), s.platform.isWindow a.toNat = false →
    s.inputs = .host (.memWrite a v) :: rest →
    ∃ sp, step s = .next { s with inputs := rest, mem := Memory.write s.mem a.toNat v, spoiled := sp } ∧
      (s.busy = true → (∃ r ∈ s.latchedOutput :: s.latchedInputs, r.Holds a.toNat) →
        sp = s.latchedOutput :: s.spoiled) ∧
      (s.busy = false ∨ (∀ r ∈ s.latchedOutput :: s.latchedInputs, ¬ r.Holds a.toNat) → sp = s.spoiled)) ∧
  (∀ (s : State) (a : Word) (rest : List Input), s.busy = true → s.platform.isWindow a.toNat = false →
    s.inputs = .host (.memRead a) :: rest → (∃ r ∈ s.latchedOutput :: s.spoiled, r.Holds a.toNat) →
    ∃ n, step s = .next { s with
      inputs := rest, replies := .mem (Config.freeByte n a.toNat) :: s.replies,
      spoiled := s.latchedOutput :: s.spoiled, draws := s.draws + 1 }) ∧
  (∀ (s : State) (a : Word) (rest : List Input), s.platform.isWindow a.toNat = false →
    s.platform.isDevice a.toNat = false → s.inputs = .host (.memRead a) :: rest →
    (s.busy = true → ∀ r ∈ s.latchedOutput :: s.spoiled, ¬ r.Holds a.toNat) →
    step s = .next { s with inputs := rest, replies := .mem (Memory.read s.mem a.toNat) :: s.replies }) ∧
  (∀ s s' t : State, Memory.wf s.mem = true → s.busy = true → s.spoiled ≠ [] → s.CoreMoves s' → step s = .next t →
    (∃ n, ∀ a, s.latchedOutput.Holds a → a < memSize → Memory.read t.mem a = Config.freeByte n a) ∧
    (∀ r ∈ s.spoiled, ∀ a, r.Holds a → a < memSize → ∃ n, Memory.read t.mem a = Config.freeByte n a) ∧
    (∀ x k, s.lc.decode = .ok (.peval x k) →
      (t.err = 0x00#8 → ∃ n, t.result = Config.freeResult n) ∧ (t.err ≠ 0x00#8 → t.result = s.result)))

/-! ## The invariant -/

/-- The invariant holds after reset, for every polynomial and every platform (R241; its clauses about memory, idle `LC` and
spoiled ranges are the model's own, log 1, log 15, log 9). -/
def Obligations.InvariantHoldsAtReset : Prop := ∀ (p : Poly) (pl : Platform), (State.resetOf p pl).Inv

/-- Every step keeps the invariant, from every state that meets it: the memory stays in its one canonical form, `ERR` holds
only codes of R212, `LC` is idle and no range is spoiled while no command runs, and none runs while the reset input is
asserted. (The clauses about idle `LC` and spoiled ranges are the model's own, log 15 and log 9.) -/
def Obligations.EveryStepKeepsTheInvariant : Prop :=
  ∀ s t : State, s.Inv → step s = .next t → t.Inv
end

