-- ==== Sys2Proof/Laws/Memory.lean ====
section
/-! SUPPORT. Sys2Proof/Laws/Memory.lean: what reading and writing the memory does, and that every memory operation keeps the
canonical form. -/

namespace Sys2Proof.Machine

@[simp] theorem Memory.read_nil (a : Nat) : Memory.read [] a = unlistedByte := rfl

theorem Memory.read_cons (k : Nat) (v : Byte) (m : Memory) (a : Nat) :
    Memory.read ((k, v) :: m) a = if k = a then v else Memory.read m a := by
  simp [Memory.read, cond_eq_ite]

theorem Memory.entry_eq (a : Nat) (v : Byte) :
    Memory.entry a v = if v = unlistedByte then [] else [(a, v)] := by
  simp [Memory.entry, cond_eq_ite]

theorem Memory.write_nil (a : Nat) (v : Byte) : Memory.write [] a v = Memory.entry a v := rfl

theorem Memory.write_cons (k : Nat) (u : Byte) (m : Memory) (a : Nat) (v : Byte) :
    Memory.write ((k, u) :: m) a v =
      if k = a then Memory.entry a v ++ m
      else if a < k then Memory.entry a v ++ (k, u) :: m
      else (k, u) :: Memory.write m a v := by
  simp [Memory.write, cond_eq_ite]

theorem Memory.wfFrom_cons (lo k : Nat) (v : Byte) (m : Memory) :
    Memory.wfFrom lo ((k, v) :: m) = true ↔
      lo ≤ k ∧ k < memSize ∧ v ≠ unlistedByte ∧ Memory.wfFrom (k + 1) m = true := by
  simp [Memory.wfFrom, and_assoc]

theorem Memory.wfFrom_mono {lo lo' : Nat} (h : lo' ≤ lo) :
    ∀ {m : Memory}, Memory.wfFrom lo m = true → Memory.wfFrom lo' m = true
  | [], _ => rfl
  | (k, v) :: m, hm => by
    rw [Memory.wfFrom_cons] at hm ⊢
    exact ⟨h.trans hm.1, hm.2⟩

/-- An address below every listed one reads as unlisted. -/
theorem Memory.read_below {lo a : Nat} (h : a < lo) :
    ∀ {m : Memory}, Memory.wfFrom lo m = true → Memory.read m a = unlistedByte
  | [], _ => rfl
  | (k, v) :: m, hm => by
    rw [Memory.wfFrom_cons] at hm
    rw [Memory.read_cons, if_neg (by omega)]
    exact Memory.read_below (lo := k + 1) (by omega) hm.2.2.2

theorem Memory.read_entry_append (a b : Nat) (v : Byte) (m : Memory) :
    Memory.read (Memory.entry a v ++ m) b =
      if v = unlistedByte then Memory.read m b else if a = b then v else Memory.read m b := by
  rw [Memory.entry_eq]
  split
  · rfl
  · exact Memory.read_cons a v m b

/-- Read after write, in one lemma: the written byte at the written address, every other byte as before. -/
theorem Memory.read_writeFrom {lo : Nat} : ∀ {m : Memory}, Memory.wfFrom lo m = true → ∀ (a b : Nat) (v : Byte),
    Memory.read (Memory.write m a v) b = if a = b then v else Memory.read m b
  | [], _, a, b, v => by
    have h := Memory.read_entry_append a b v []
    rw [List.append_nil] at h
    rw [Memory.write_nil, h]
    split <;> split <;> simp_all
  | (k, u) :: m, hm, a, b, v => by
    rw [Memory.wfFrom_cons] at hm
    obtain ⟨-, -, -, htail⟩ := hm
    rw [Memory.write_cons, Memory.read_cons]
    by_cases hka : k = a
    · subst hka
      rw [if_pos rfl, Memory.read_entry_append]
      by_cases hb : k = b
      · subst hb
        simp only [if_true]
        split
        · rename_i hv
          rw [Memory.read_below (Nat.lt_succ_self k) htail, hv]
        · rfl
      · simp [hb]
    · rw [if_neg hka]
      by_cases hak : a < k
      · rw [if_pos hak, Memory.read_entry_append]
        by_cases hb : a = b
        · subst hb
          simp only [if_true, if_neg hka]
          split
          · rename_i hv
            rw [Memory.read_cons, if_neg hka, Memory.read_below (by omega) htail, hv]
          · rfl
        · simp [hb, Memory.read_cons]
      · rw [if_neg hak, Memory.read_cons, Memory.read_writeFrom htail]
        by_cases hkb : k = b
        · have : a ≠ b := fun h => hka (hkb.trans h.symm)
          simp [hkb, this]
        · simp [hkb]

theorem Memory.wf_def (m : Memory) : Memory.wf m = Memory.wfFrom 0 m := rfl

/-- Read after write. -/
theorem Memory.read_write {m : Memory} (h : Memory.wf m = true) (a b : Nat) (v : Byte) :
    Memory.read (Memory.write m a v) b = if a = b then v else Memory.read m b :=
  Memory.read_writeFrom h a b v

theorem Memory.wfFrom_entry_append {lo a : Nat} {v : Byte} {m : Memory} (hlo : lo ≤ a) (ha : a < memSize)
    (hm : Memory.wfFrom (a + 1) m = true) : Memory.wfFrom lo (Memory.entry a v ++ m) = true := by
  rw [Memory.entry_eq]
  split
  · exact Memory.wfFrom_mono (by omega) hm
  · rename_i hv
    exact (Memory.wfFrom_cons lo a v m).2 ⟨hlo, ha, hv, hm⟩

theorem Memory.wfFrom_write {lo : Nat} : ∀ {m : Memory}, Memory.wfFrom lo m = true → ∀ {a : Nat}, lo ≤ a →
    a < memSize → ∀ v : Byte, Memory.wfFrom lo (Memory.write m a v) = true
  | [], _, a, hlo, ha, v => by
    have := Memory.wfFrom_entry_append (v := v) (m := []) hlo ha rfl
    simpa [Memory.write_nil] using this
  | (k, u) :: m, hm, a, hlo, ha, v => by
    have hm' := (Memory.wfFrom_cons lo k u m).1 hm
    rw [Memory.write_cons]
    split
    · rename_i h
      subst h
      exact Memory.wfFrom_entry_append hlo ha hm'.2.2.2
    · split
      · rename_i h1 h2
        exact Memory.wfFrom_entry_append hlo ha ((Memory.wfFrom_cons _ k u m).2 ⟨h2, hm'.2⟩)
      · rename_i h1 h2
        refine (Memory.wfFrom_cons lo k u _).2 ⟨hm'.1, hm'.2.1, hm'.2.2.1, ?_⟩
        exact Memory.wfFrom_write hm'.2.2.2 (by omega) ha v

/-- A write inside the memory space keeps the canonical form. -/
theorem Memory.wf_write {m : Memory} (h : Memory.wf m = true) {a : Nat} (ha : a < memSize) (v : Byte) :
    Memory.wf (Memory.write m a v) = true :=
  Memory.wfFrom_write h (Nat.zero_le a) ha v

/-- Writing bytes inside the memory space keeps the canonical form. -/
theorem Memory.wf_writeBytes : ∀ (vs : List Byte) {m : Memory} {base : Nat}, Memory.wf m = true →
    base + vs.length ≤ memSize → Memory.wf (Memory.writeBytes m base vs) = true
  | [], _, _, h, _ => h
  | v :: vs, m, base, h, hb => by
    simp only [List.length_cons] at hb
    exact Memory.wf_writeBytes vs (Memory.wf_write h (by omega) v) (by omega)

/-- What writing bytes does: the `i`-th byte stands at `base + i`, every other address reads as before. -/
theorem Memory.read_writeBytes : ∀ (vs : List Byte) {m : Memory} {base : Nat}, Memory.wf m = true →
    base + vs.length ≤ memSize → ∀ b, Memory.read (Memory.writeBytes m base vs) b =
      if h : base ≤ b ∧ b < base + vs.length then vs[b - base]'(by omega) else Memory.read m b
  | [], m, base, _, _, b => by
    have : ¬ (base ≤ b ∧ b < base + ([] : List Byte).length) := by simp
    rw [dif_neg this]
    rfl
  | v :: vs, m, base, h, hb, b => by
    simp only [List.length_cons] at hb
    have ih := Memory.read_writeBytes vs (base := base + 1) (Memory.wf_write h (a := base) (by omega) v) (by omega) b
    rw [Memory.writeBytes, ih]
    by_cases h1 : base + 1 ≤ b ∧ b < base + 1 + vs.length
    · have h2 : base ≤ b ∧ b < base + (v :: vs).length := by simp only [List.length_cons]; omega
      rw [dif_pos h1, dif_pos h2]
      have h3 : b - base = (b - (base + 1)) + 1 := by omega
      simp only [h3, List.getElem_cons_succ]
    · rw [dif_neg h1, Memory.read_write h]
      by_cases h4 : base = b
      · subst h4
        have h2 : base ≤ base ∧ base < base + (v :: vs).length := by simp
        rw [dif_pos h2]
        simp
      · have h2 : ¬ (base ≤ b ∧ b < base + (v :: vs).length) := by simp only [List.length_cons]; omega
        rw [dif_neg h2, if_neg h4]

/-- Writing bytes leaves every address outside them alone. -/
theorem Memory.read_writeBytes_outside (vs : List Byte) {m : Memory} {base : Nat} (h : Memory.wf m = true)
    (hb : base + vs.length ≤ memSize) {b : Nat} (hout : b < base ∨ base + vs.length ≤ b) :
    Memory.read (Memory.writeBytes m base vs) b = Memory.read m b := by
  rw [Memory.read_writeBytes vs h hb, dif_neg (by omega)]

/-- Two canonical memories that read alike are the same list. -/
theorem Memory.extFrom : ∀ {lo : Nat} {m n : Memory}, Memory.wfFrom lo m = true → Memory.wfFrom lo n = true →
    (∀ a, Memory.read m a = Memory.read n a) → m = n
  | _, [], [], _, _, _ => rfl
  | _, [], (k, v) :: n, _, hn, h => by
    have hn' := (Memory.wfFrom_cons _ k v n).1 hn
    have := h k
    rw [Memory.read_cons, if_pos rfl] at this
    exact absurd this.symm hn'.2.2.1
  | _, (k, v) :: m, [], hm, _, h => by
    have hm' := (Memory.wfFrom_cons _ k v m).1 hm
    have := h k
    rw [Memory.read_cons, if_pos rfl] at this
    exact absurd this hm'.2.2.1
  | lo, (k, v) :: m, (j, u) :: n, hm, hn, h => by
    obtain ⟨-, -, hv, htm⟩ := (Memory.wfFrom_cons _ k v m).1 hm
    obtain ⟨-, -, hu, htn⟩ := (Memory.wfFrom_cons _ j u n).1 hn
    have hkj : k = j := by
      rcases Nat.lt_trichotomy k j with hlt | heq | hgt
      · have := h k
        rw [Memory.read_cons, Memory.read_cons, if_pos rfl, if_neg (by omega),
          Memory.read_below (by omega) htn] at this
        exact absurd this hv
      · exact heq
      · have := h j
        rw [Memory.read_cons, Memory.read_cons, if_neg (by omega), if_pos rfl,
          Memory.read_below (by omega) htm] at this
        exact absurd this.symm hu
    subst hkj
    have hvu : v = u := by
      have := h k
      rwa [Memory.read_cons, Memory.read_cons, if_pos rfl, if_pos rfl] at this
    subst hvu
    rw [Memory.extFrom htm htn]
    intro a
    by_cases ha : k = a
    · subst ha
      rw [Memory.read_below (Nat.lt_succ_self k) htm, Memory.read_below (Nat.lt_succ_self k) htn]
    · have := h a
      rwa [Memory.read_cons, Memory.read_cons, if_neg ha, if_neg ha] at this

@[simp] theorem Memory.length_readBytes (m : Memory) (base len : Nat) :
    (Memory.readBytes m base len).length = len := by
  simp [Memory.readBytes]

end Sys2Proof.Machine
end

