-- ==== Sys2Proof/Laws/State.lean ====
section
/-! SUPPORT. Sys2Proof/Laws/State.lean: one lemma per field per shared update of the state, so that no later proof unfolds a
record update. -/

namespace Sys2Proof.Machine

@[simp] theorem State.complete_busy (s : State) : s.complete.busy = false := rfl
@[simp] theorem State.complete_ovr (s : State) : s.complete.ovr = s.ovr := rfl
@[simp] theorem State.complete_err (s : State) : s.complete.err = errOk := rfl
@[simp] theorem State.complete_result (s : State) : s.complete.result = s.result := rfl
@[simp] theorem State.complete_argA (s : State) : s.complete.argA = s.argA := rfl
@[simp] theorem State.complete_argB (s : State) : s.complete.argB = s.argB := rfl
@[simp] theorem State.complete_argN (s : State) : s.complete.argN = s.argN := rfl
@[simp] theorem State.complete_lc (s : State) : s.complete.lc = Latched.idle := rfl
@[simp] theorem State.complete_mem (s : State) : s.complete.mem = s.mem := rfl
@[simp] theorem State.complete_poly (s : State) : s.complete.poly = s.poly := rfl
@[simp] theorem State.complete_platform (s : State) : s.complete.platform = s.platform := rfl
@[simp] theorem State.complete_inReset (s : State) : s.complete.inReset = s.inReset := rfl
@[simp] theorem State.complete_spoiled (s : State) : s.complete.spoiled = [] := rfl
@[simp] theorem State.complete_draws (s : State) : s.complete.draws = s.draws := rfl
@[simp] theorem State.complete_inputs (s : State) : s.complete.inputs = s.inputs := rfl
@[simp] theorem State.complete_replies (s : State) : s.complete.replies = s.replies := rfl

@[simp] theorem State.completeWith_busy (r : Byte) (s : State) : (s.completeWith r).busy = false := rfl
@[simp] theorem State.completeWith_ovr (r : Byte) (s : State) : (s.completeWith r).ovr = s.ovr := rfl
@[simp] theorem State.completeWith_err (r : Byte) (s : State) : (s.completeWith r).err = errOk := rfl
@[simp] theorem State.completeWith_result (r : Byte) (s : State) : (s.completeWith r).result = r := rfl
@[simp] theorem State.completeWith_argA (r : Byte) (s : State) : (s.completeWith r).argA = s.argA := rfl
@[simp] theorem State.completeWith_argB (r : Byte) (s : State) : (s.completeWith r).argB = s.argB := rfl
@[simp] theorem State.completeWith_argN (r : Byte) (s : State) : (s.completeWith r).argN = s.argN := rfl
@[simp] theorem State.completeWith_lc (r : Byte) (s : State) : (s.completeWith r).lc = Latched.idle := rfl
@[simp] theorem State.completeWith_mem (r : Byte) (s : State) : (s.completeWith r).mem = s.mem := rfl
@[simp] theorem State.completeWith_poly (r : Byte) (s : State) : (s.completeWith r).poly = s.poly := rfl
@[simp] theorem State.completeWith_platform (r : Byte) (s : State) : (s.completeWith r).platform = s.platform := rfl
@[simp] theorem State.completeWith_inReset (r : Byte) (s : State) : (s.completeWith r).inReset = s.inReset := rfl
@[simp] theorem State.completeWith_spoiled (r : Byte) (s : State) : (s.completeWith r).spoiled = [] := rfl
@[simp] theorem State.completeWith_draws (r : Byte) (s : State) : (s.completeWith r).draws = s.draws := rfl
@[simp] theorem State.completeWith_inputs (r : Byte) (s : State) : (s.completeWith r).inputs = s.inputs := rfl
@[simp] theorem State.completeWith_replies (r : Byte) (s : State) : (s.completeWith r).replies = s.replies := rfl

@[simp] theorem State.raise_busy (e : ErrorKind) (s : State) : (s.raise e).busy = false := rfl
@[simp] theorem State.raise_ovr (e : ErrorKind) (s : State) : (s.raise e).ovr = s.ovr := rfl
@[simp] theorem State.raise_err (e : ErrorKind) (s : State) : (s.raise e).err = e.code := rfl
@[simp] theorem State.raise_result (e : ErrorKind) (s : State) : (s.raise e).result = s.result := rfl
@[simp] theorem State.raise_argA (e : ErrorKind) (s : State) : (s.raise e).argA = s.argA := rfl
@[simp] theorem State.raise_argB (e : ErrorKind) (s : State) : (s.raise e).argB = s.argB := rfl
@[simp] theorem State.raise_argN (e : ErrorKind) (s : State) : (s.raise e).argN = s.argN := rfl
@[simp] theorem State.raise_lc (e : ErrorKind) (s : State) : (s.raise e).lc = Latched.idle := rfl
@[simp] theorem State.raise_mem (e : ErrorKind) (s : State) : (s.raise e).mem = s.mem := rfl
@[simp] theorem State.raise_poly (e : ErrorKind) (s : State) : (s.raise e).poly = s.poly := rfl
@[simp] theorem State.raise_platform (e : ErrorKind) (s : State) : (s.raise e).platform = s.platform := rfl
@[simp] theorem State.raise_inReset (e : ErrorKind) (s : State) : (s.raise e).inReset = s.inReset := rfl
@[simp] theorem State.raise_spoiled (e : ErrorKind) (s : State) : (s.raise e).spoiled = [] := rfl
@[simp] theorem State.raise_draws (e : ErrorKind) (s : State) : (s.raise e).draws = s.draws := rfl
@[simp] theorem State.raise_inputs (e : ErrorKind) (s : State) : (s.raise e).inputs = s.inputs := rfl
@[simp] theorem State.raise_replies (e : ErrorKind) (s : State) : (s.raise e).replies = s.replies := rfl

@[simp] theorem State.fillFree_busy (r : ByteRange) (s : State) : (s.fillFree r).busy = s.busy := rfl
@[simp] theorem State.fillFree_ovr (r : ByteRange) (s : State) : (s.fillFree r).ovr = s.ovr := rfl
@[simp] theorem State.fillFree_err (r : ByteRange) (s : State) : (s.fillFree r).err = s.err := rfl
@[simp] theorem State.fillFree_result (r : ByteRange) (s : State) : (s.fillFree r).result = s.result := rfl
@[simp] theorem State.fillFree_argA (r : ByteRange) (s : State) : (s.fillFree r).argA = s.argA := rfl
@[simp] theorem State.fillFree_argB (r : ByteRange) (s : State) : (s.fillFree r).argB = s.argB := rfl
@[simp] theorem State.fillFree_argN (r : ByteRange) (s : State) : (s.fillFree r).argN = s.argN := rfl
@[simp] theorem State.fillFree_lc (r : ByteRange) (s : State) : (s.fillFree r).lc = s.lc := rfl
@[simp] theorem State.fillFree_mem (r : ByteRange) (s : State) : (s.fillFree r).mem = Memory.writeBytes s.mem r.base (r.clip.addrs.map (Config.freeByte s.draws)) := rfl
@[simp] theorem State.fillFree_poly (r : ByteRange) (s : State) : (s.fillFree r).poly = s.poly := rfl
@[simp] theorem State.fillFree_platform (r : ByteRange) (s : State) : (s.fillFree r).platform = s.platform := rfl
@[simp] theorem State.fillFree_inReset (r : ByteRange) (s : State) : (s.fillFree r).inReset = s.inReset := rfl
@[simp] theorem State.fillFree_spoiled (r : ByteRange) (s : State) : (s.fillFree r).spoiled = s.spoiled := rfl
@[simp] theorem State.fillFree_draws (r : ByteRange) (s : State) : (s.fillFree r).draws = s.draws + 1 := rfl
@[simp] theorem State.fillFree_inputs (r : ByteRange) (s : State) : (s.fillFree r).inputs = s.inputs := rfl
@[simp] theorem State.fillFree_replies (r : ByteRange) (s : State) : (s.fillFree r).replies = s.replies := rfl

@[simp] theorem State.freeScalar_busy (s : State) : s.freeScalar.busy = s.busy := rfl
@[simp] theorem State.freeScalar_ovr (s : State) : s.freeScalar.ovr = s.ovr := rfl
@[simp] theorem State.freeScalar_err (s : State) : s.freeScalar.err = s.err := rfl
@[simp] theorem State.freeScalar_result (s : State) : s.freeScalar.result = Config.freeResult s.draws := rfl
@[simp] theorem State.freeScalar_argA (s : State) : s.freeScalar.argA = s.argA := rfl
@[simp] theorem State.freeScalar_argB (s : State) : s.freeScalar.argB = s.argB := rfl
@[simp] theorem State.freeScalar_argN (s : State) : s.freeScalar.argN = s.argN := rfl
@[simp] theorem State.freeScalar_lc (s : State) : s.freeScalar.lc = s.lc := rfl
@[simp] theorem State.freeScalar_mem (s : State) : s.freeScalar.mem = s.mem := rfl
@[simp] theorem State.freeScalar_poly (s : State) : s.freeScalar.poly = s.poly := rfl
@[simp] theorem State.freeScalar_platform (s : State) : s.freeScalar.platform = s.platform := rfl
@[simp] theorem State.freeScalar_inReset (s : State) : s.freeScalar.inReset = s.inReset := rfl
@[simp] theorem State.freeScalar_spoiled (s : State) : s.freeScalar.spoiled = s.spoiled := rfl
@[simp] theorem State.freeScalar_draws (s : State) : s.freeScalar.draws = s.draws + 1 := rfl
@[simp] theorem State.freeScalar_inputs (s : State) : s.freeScalar.inputs = s.inputs := rfl
@[simp] theorem State.freeScalar_replies (s : State) : s.freeScalar.replies = s.replies := rfl

@[simp] theorem State.issue_busy (w : Word) (s : State) : (s.issue w).busy = true := rfl
@[simp] theorem State.issue_ovr (w : Word) (s : State) : (s.issue w).ovr = s.ovr := rfl
@[simp] theorem State.issue_err (w : Word) (s : State) : (s.issue w).err = s.err := rfl
@[simp] theorem State.issue_result (w : Word) (s : State) : (s.issue w).result = s.result := rfl
@[simp] theorem State.issue_argA (w : Word) (s : State) : (s.issue w).argA = s.argA := rfl
@[simp] theorem State.issue_argB (w : Word) (s : State) : (s.issue w).argB = s.argB := rfl
@[simp] theorem State.issue_argN (w : Word) (s : State) : (s.issue w).argN = s.argN := rfl
@[simp] theorem State.issue_lc (w : Word) (s : State) : (s.issue w).lc = s.latch w := rfl
@[simp] theorem State.issue_mem (w : Word) (s : State) : (s.issue w).mem = s.mem := rfl
@[simp] theorem State.issue_poly (w : Word) (s : State) : (s.issue w).poly = s.poly := rfl
@[simp] theorem State.issue_platform (w : Word) (s : State) : (s.issue w).platform = s.platform := rfl
@[simp] theorem State.issue_inReset (w : Word) (s : State) : (s.issue w).inReset = s.inReset := rfl
@[simp] theorem State.issue_spoiled (w : Word) (s : State) : (s.issue w).spoiled = [] := rfl
@[simp] theorem State.issue_draws (w : Word) (s : State) : (s.issue w).draws = s.draws := rfl
@[simp] theorem State.issue_inputs (w : Word) (s : State) : (s.issue w).inputs = s.inputs := rfl
@[simp] theorem State.issue_replies (w : Word) (s : State) : (s.issue w).replies = s.replies := rfl

@[simp] theorem State.reply_busy (r : Reply) (s : State) : (s.reply r).busy = s.busy := rfl
@[simp] theorem State.reply_ovr (r : Reply) (s : State) : (s.reply r).ovr = s.ovr := rfl
@[simp] theorem State.reply_err (r : Reply) (s : State) : (s.reply r).err = s.err := rfl
@[simp] theorem State.reply_result (r : Reply) (s : State) : (s.reply r).result = s.result := rfl
@[simp] theorem State.reply_argA (r : Reply) (s : State) : (s.reply r).argA = s.argA := rfl
@[simp] theorem State.reply_argB (r : Reply) (s : State) : (s.reply r).argB = s.argB := rfl
@[simp] theorem State.reply_argN (r : Reply) (s : State) : (s.reply r).argN = s.argN := rfl
@[simp] theorem State.reply_lc (r : Reply) (s : State) : (s.reply r).lc = s.lc := rfl
@[simp] theorem State.reply_mem (r : Reply) (s : State) : (s.reply r).mem = s.mem := rfl
@[simp] theorem State.reply_poly (r : Reply) (s : State) : (s.reply r).poly = s.poly := rfl
@[simp] theorem State.reply_platform (r : Reply) (s : State) : (s.reply r).platform = s.platform := rfl
@[simp] theorem State.reply_inReset (r : Reply) (s : State) : (s.reply r).inReset = s.inReset := rfl
@[simp] theorem State.reply_spoiled (r : Reply) (s : State) : (s.reply r).spoiled = s.spoiled := rfl
@[simp] theorem State.reply_draws (r : Reply) (s : State) : (s.reply r).draws = s.draws := rfl
@[simp] theorem State.reply_inputs (r : Reply) (s : State) : (s.reply r).inputs = s.inputs := rfl
@[simp] theorem State.reply_replies (r : Reply) (s : State) : (s.reply r).replies = r :: s.replies := rfl

@[simp] theorem State.spoil_busy (s : State) : s.spoil.busy = s.busy := rfl
@[simp] theorem State.spoil_ovr (s : State) : s.spoil.ovr = s.ovr := rfl
@[simp] theorem State.spoil_err (s : State) : s.spoil.err = s.err := rfl
@[simp] theorem State.spoil_result (s : State) : s.spoil.result = s.result := rfl
@[simp] theorem State.spoil_argA (s : State) : s.spoil.argA = s.argA := rfl
@[simp] theorem State.spoil_argB (s : State) : s.spoil.argB = s.argB := rfl
@[simp] theorem State.spoil_argN (s : State) : s.spoil.argN = s.argN := rfl
@[simp] theorem State.spoil_lc (s : State) : s.spoil.lc = s.lc := rfl
@[simp] theorem State.spoil_mem (s : State) : s.spoil.mem = s.mem := rfl
@[simp] theorem State.spoil_poly (s : State) : s.spoil.poly = s.poly := rfl
@[simp] theorem State.spoil_platform (s : State) : s.spoil.platform = s.platform := rfl
@[simp] theorem State.spoil_inReset (s : State) : s.spoil.inReset = s.inReset := rfl
@[simp] theorem State.spoil_spoiled (s : State) : s.spoil.spoiled = s.latchedOutput :: s.spoiled := rfl
@[simp] theorem State.spoil_draws (s : State) : s.spoil.draws = s.draws := rfl
@[simp] theorem State.spoil_inputs (s : State) : s.spoil.inputs = s.inputs := rfl
@[simp] theorem State.spoil_replies (s : State) : s.spoil.replies = s.replies := rfl

@[simp] theorem State.releaseReset_busy (s : State) : s.releaseReset.busy = s.busy := rfl
@[simp] theorem State.releaseReset_ovr (s : State) : s.releaseReset.ovr = s.ovr := rfl
@[simp] theorem State.releaseReset_err (s : State) : s.releaseReset.err = s.err := rfl
@[simp] theorem State.releaseReset_result (s : State) : s.releaseReset.result = s.result := rfl
@[simp] theorem State.releaseReset_argA (s : State) : s.releaseReset.argA = s.argA := rfl
@[simp] theorem State.releaseReset_argB (s : State) : s.releaseReset.argB = s.argB := rfl
@[simp] theorem State.releaseReset_argN (s : State) : s.releaseReset.argN = s.argN := rfl
@[simp] theorem State.releaseReset_lc (s : State) : s.releaseReset.lc = s.lc := rfl
@[simp] theorem State.releaseReset_mem (s : State) : s.releaseReset.mem = s.mem := rfl
@[simp] theorem State.releaseReset_poly (s : State) : s.releaseReset.poly = s.poly := rfl
@[simp] theorem State.releaseReset_platform (s : State) : s.releaseReset.platform = s.platform := rfl
@[simp] theorem State.releaseReset_inReset (s : State) : s.releaseReset.inReset = false := rfl
@[simp] theorem State.releaseReset_spoiled (s : State) : s.releaseReset.spoiled = s.spoiled := rfl
@[simp] theorem State.releaseReset_draws (s : State) : s.releaseReset.draws = s.draws := rfl
@[simp] theorem State.releaseReset_inputs (s : State) : s.releaseReset.inputs = s.inputs := rfl
@[simp] theorem State.releaseReset_replies (s : State) : s.releaseReset.replies = s.replies := rfl

theorem State.afterTable_eq (s : State) :
    s.afterTable = { s with draws := bif s.platform.anyDevice [s.interpTable] then s.draws + 1 else s.draws } := by
  unfold State.afterTable
  cases s.platform.anyDevice [s.interpTable] <;> rfl

@[simp] theorem State.afterTable_busy (s : State) : s.afterTable.busy = s.busy := by rw [State.afterTable_eq]
@[simp] theorem State.afterTable_ovr (s : State) : s.afterTable.ovr = s.ovr := by rw [State.afterTable_eq]
@[simp] theorem State.afterTable_err (s : State) : s.afterTable.err = s.err := by rw [State.afterTable_eq]
@[simp] theorem State.afterTable_result (s : State) : s.afterTable.result = s.result := by rw [State.afterTable_eq]
@[simp] theorem State.afterTable_argA (s : State) : s.afterTable.argA = s.argA := by rw [State.afterTable_eq]
@[simp] theorem State.afterTable_argB (s : State) : s.afterTable.argB = s.argB := by rw [State.afterTable_eq]
@[simp] theorem State.afterTable_argN (s : State) : s.afterTable.argN = s.argN := by rw [State.afterTable_eq]
@[simp] theorem State.afterTable_lc (s : State) : s.afterTable.lc = s.lc := by rw [State.afterTable_eq]
@[simp] theorem State.afterTable_mem (s : State) : s.afterTable.mem = s.mem := by rw [State.afterTable_eq]
@[simp] theorem State.afterTable_poly (s : State) : s.afterTable.poly = s.poly := by rw [State.afterTable_eq]
@[simp] theorem State.afterTable_platform (s : State) : s.afterTable.platform = s.platform := by rw [State.afterTable_eq]
@[simp] theorem State.afterTable_inReset (s : State) : s.afterTable.inReset = s.inReset := by rw [State.afterTable_eq]
@[simp] theorem State.afterTable_spoiled (s : State) : s.afterTable.spoiled = s.spoiled := by rw [State.afterTable_eq]
@[simp] theorem State.afterTable_inputs (s : State) : s.afterTable.inputs = s.inputs := by rw [State.afterTable_eq]
@[simp] theorem State.afterTable_replies (s : State) : s.afterTable.replies = s.replies := by rw [State.afterTable_eq]

/-- A failed check changes what `raise` changes, and of the rest memory and the draw counter at most. -/
theorem State.raiseChecked_eq (e : ErrorKind) (ins : List ByteRange) (out : ByteRange) (s : State) :
    s.raiseChecked e ins out = State.raise e
      { s with mem := (s.raiseChecked e ins out).mem, draws := (s.raiseChecked e ins out).draws } := by
  unfold State.raiseChecked
  cases s.outputIsOpen ins out <;> rfl

@[simp] theorem State.raiseChecked_busy (e : ErrorKind) (ins : List ByteRange) (out : ByteRange) (s : State) :
    (s.raiseChecked e ins out).busy = false := by rw [State.raiseChecked_eq]; rfl
@[simp] theorem State.raiseChecked_ovr (e : ErrorKind) (ins : List ByteRange) (out : ByteRange) (s : State) :
    (s.raiseChecked e ins out).ovr = s.ovr := by rw [State.raiseChecked_eq]; rfl
@[simp] theorem State.raiseChecked_err (e : ErrorKind) (ins : List ByteRange) (out : ByteRange) (s : State) :
    (s.raiseChecked e ins out).err = e.code := by rw [State.raiseChecked_eq]; rfl
@[simp] theorem State.raiseChecked_result (e : ErrorKind) (ins : List ByteRange) (out : ByteRange) (s : State) :
    (s.raiseChecked e ins out).result = s.result := by rw [State.raiseChecked_eq]; rfl
@[simp] theorem State.raiseChecked_argA (e : ErrorKind) (ins : List ByteRange) (out : ByteRange) (s : State) :
    (s.raiseChecked e ins out).argA = s.argA := by rw [State.raiseChecked_eq]; rfl
@[simp] theorem State.raiseChecked_argB (e : ErrorKind) (ins : List ByteRange) (out : ByteRange) (s : State) :
    (s.raiseChecked e ins out).argB = s.argB := by rw [State.raiseChecked_eq]; rfl
@[simp] theorem State.raiseChecked_argN (e : ErrorKind) (ins : List ByteRange) (out : ByteRange) (s : State) :
    (s.raiseChecked e ins out).argN = s.argN := by rw [State.raiseChecked_eq]; rfl
@[simp] theorem State.raiseChecked_lc (e : ErrorKind) (ins : List ByteRange) (out : ByteRange) (s : State) :
    (s.raiseChecked e ins out).lc = Latched.idle := by rw [State.raiseChecked_eq]; rfl
@[simp] theorem State.raiseChecked_poly (e : ErrorKind) (ins : List ByteRange) (out : ByteRange) (s : State) :
    (s.raiseChecked e ins out).poly = s.poly := by rw [State.raiseChecked_eq]; rfl
@[simp] theorem State.raiseChecked_platform (e : ErrorKind) (ins : List ByteRange) (out : ByteRange) (s : State) :
    (s.raiseChecked e ins out).platform = s.platform := by rw [State.raiseChecked_eq]; rfl
@[simp] theorem State.raiseChecked_inReset (e : ErrorKind) (ins : List ByteRange) (out : ByteRange) (s : State) :
    (s.raiseChecked e ins out).inReset = s.inReset := by rw [State.raiseChecked_eq]; rfl
@[simp] theorem State.raiseChecked_spoiled (e : ErrorKind) (ins : List ByteRange) (out : ByteRange) (s : State) :
    (s.raiseChecked e ins out).spoiled = [] := by rw [State.raiseChecked_eq]; rfl
@[simp] theorem State.raiseChecked_inputs (e : ErrorKind) (ins : List ByteRange) (out : ByteRange) (s : State) :
    (s.raiseChecked e ins out).inputs = s.inputs := by rw [State.raiseChecked_eq]; rfl
@[simp] theorem State.raiseChecked_replies (e : ErrorKind) (ins : List ByteRange) (out : ByteRange) (s : State) :
    (s.raiseChecked e ins out).replies = s.replies := by rw [State.raiseChecked_eq]; rfl

/-- Free bytes change the memory and the draw counter, nothing else. -/
theorem State.fillFreeAll_eq : ∀ (rs : List ByteRange) (s : State),
    s.fillFreeAll rs = { s with mem := (s.fillFreeAll rs).mem, draws := (s.fillFreeAll rs).draws }
  | [], _ => rfl
  | r :: rs, s => by
    rw [State.fillFreeAll, State.fillFreeAll_eq rs (s.fillFree r)]
    rfl

@[simp] theorem State.fillFreeAll_busy (rs : List ByteRange) (s : State) : (s.fillFreeAll rs).busy = s.busy := by rw [State.fillFreeAll_eq]
@[simp] theorem State.fillFreeAll_ovr (rs : List ByteRange) (s : State) : (s.fillFreeAll rs).ovr = s.ovr := by rw [State.fillFreeAll_eq]
@[simp] theorem State.fillFreeAll_err (rs : List ByteRange) (s : State) : (s.fillFreeAll rs).err = s.err := by rw [State.fillFreeAll_eq]
@[simp] theorem State.fillFreeAll_result (rs : List ByteRange) (s : State) : (s.fillFreeAll rs).result = s.result := by rw [State.fillFreeAll_eq]
@[simp] theorem State.fillFreeAll_argA (rs : List ByteRange) (s : State) : (s.fillFreeAll rs).argA = s.argA := by rw [State.fillFreeAll_eq]
@[simp] theorem State.fillFreeAll_argB (rs : List ByteRange) (s : State) : (s.fillFreeAll rs).argB = s.argB := by rw [State.fillFreeAll_eq]
@[simp] theorem State.fillFreeAll_argN (rs : List ByteRange) (s : State) : (s.fillFreeAll rs).argN = s.argN := by rw [State.fillFreeAll_eq]
@[simp] theorem State.fillFreeAll_lc (rs : List ByteRange) (s : State) : (s.fillFreeAll rs).lc = s.lc := by rw [State.fillFreeAll_eq]
@[simp] theorem State.fillFreeAll_poly (rs : List ByteRange) (s : State) : (s.fillFreeAll rs).poly = s.poly := by rw [State.fillFreeAll_eq]
@[simp] theorem State.fillFreeAll_platform (rs : List ByteRange) (s : State) : (s.fillFreeAll rs).platform = s.platform := by rw [State.fillFreeAll_eq]
@[simp] theorem State.fillFreeAll_inReset (rs : List ByteRange) (s : State) : (s.fillFreeAll rs).inReset = s.inReset := by rw [State.fillFreeAll_eq]
@[simp] theorem State.fillFreeAll_spoiled (rs : List ByteRange) (s : State) : (s.fillFreeAll rs).spoiled = s.spoiled := by rw [State.fillFreeAll_eq]
@[simp] theorem State.fillFreeAll_inputs (rs : List ByteRange) (s : State) : (s.fillFreeAll rs).inputs = s.inputs := by rw [State.fillFreeAll_eq]
@[simp] theorem State.fillFreeAll_replies (rs : List ByteRange) (s : State) : (s.fillFreeAll rs).replies = s.replies := by rw [State.fillFreeAll_eq]

/-- A reset of an idle core leaves the memory alone (R241). -/
theorem State.abortRunning_of_idle {s : State} (h : s.busy = false) : s.abortRunning = s := by
  simp [State.abortRunning, h]

/-- A reset of a busy core makes its output range unspecified (R242). -/
theorem State.abortRunning_of_busy {s : State} (h : s.busy = true) :
    s.abortRunning = s.fillFreeAll (s.spoiled ++ [s.latchedOutput]) := by
  simp [State.abortRunning, h]

theorem State.abortRunning_eq (s : State) :
    s.abortRunning = { s with mem := s.abortRunning.mem, draws := s.abortRunning.draws } := by
  rcases Bool.eq_false_or_eq_true s.busy with h | h
  swap
  · rw [State.abortRunning_of_idle h]
  · rw [State.abortRunning_of_busy h]
    exact State.fillFreeAll_eq _ s

@[simp] theorem State.abortRunning_busy (s : State) : s.abortRunning.busy = s.busy := by rw [State.abortRunning_eq]
@[simp] theorem State.abortRunning_ovr (s : State) : s.abortRunning.ovr = s.ovr := by rw [State.abortRunning_eq]
@[simp] theorem State.abortRunning_err (s : State) : s.abortRunning.err = s.err := by rw [State.abortRunning_eq]
@[simp] theorem State.abortRunning_result (s : State) : s.abortRunning.result = s.result := by rw [State.abortRunning_eq]
@[simp] theorem State.abortRunning_argA (s : State) : s.abortRunning.argA = s.argA := by rw [State.abortRunning_eq]
@[simp] theorem State.abortRunning_argB (s : State) : s.abortRunning.argB = s.argB := by rw [State.abortRunning_eq]
@[simp] theorem State.abortRunning_argN (s : State) : s.abortRunning.argN = s.argN := by rw [State.abortRunning_eq]
@[simp] theorem State.abortRunning_lc (s : State) : s.abortRunning.lc = s.lc := by rw [State.abortRunning_eq]
@[simp] theorem State.abortRunning_poly (s : State) : s.abortRunning.poly = s.poly := by rw [State.abortRunning_eq]
@[simp] theorem State.abortRunning_platform (s : State) : s.abortRunning.platform = s.platform := by rw [State.abortRunning_eq]
@[simp] theorem State.abortRunning_inReset (s : State) : s.abortRunning.inReset = s.inReset := by rw [State.abortRunning_eq]
@[simp] theorem State.abortRunning_spoiled (s : State) : s.abortRunning.spoiled = s.spoiled := by rw [State.abortRunning_eq]
@[simp] theorem State.abortRunning_inputs (s : State) : s.abortRunning.inputs = s.inputs := by rw [State.abortRunning_eq]
@[simp] theorem State.abortRunning_replies (s : State) : s.abortRunning.replies = s.replies := by rw [State.abortRunning_eq]

@[simp] theorem State.coreReset_busy (s : State) : s.coreReset.busy = false := rfl
@[simp] theorem State.coreReset_ovr (s : State) : s.coreReset.ovr = false := rfl
@[simp] theorem State.coreReset_err (s : State) : s.coreReset.err = 0x00#8 := rfl
@[simp] theorem State.coreReset_result (s : State) : s.coreReset.result = 0x00#8 := rfl
@[simp] theorem State.coreReset_argA (s : State) : s.coreReset.argA = 0#32 := rfl
@[simp] theorem State.coreReset_argB (s : State) : s.coreReset.argB = 0#32 := rfl
@[simp] theorem State.coreReset_argN (s : State) : s.coreReset.argN = 0#16 := rfl
@[simp] theorem State.coreReset_lc (s : State) : s.coreReset.lc = Latched.idle := rfl
@[simp] theorem State.coreReset_mem (s : State) : s.coreReset.mem = s.abortRunning.mem := rfl
@[simp] theorem State.coreReset_poly (s : State) : s.coreReset.poly = s.poly := State.abortRunning_poly s
@[simp] theorem State.coreReset_platform (s : State) : s.coreReset.platform = s.platform := State.abortRunning_platform s
@[simp] theorem State.coreReset_inReset (s : State) : s.coreReset.inReset = s.inReset := State.abortRunning_inReset s
@[simp] theorem State.coreReset_spoiled (s : State) : s.coreReset.spoiled = [] := rfl
@[simp] theorem State.coreReset_draws (s : State) : s.coreReset.draws = s.abortRunning.draws := rfl
@[simp] theorem State.coreReset_inputs (s : State) : s.coreReset.inputs = s.inputs := State.abortRunning_inputs s
@[simp] theorem State.coreReset_replies (s : State) : s.coreReset.replies = s.replies := State.abortRunning_replies s

@[simp] theorem State.assertReset_busy (s : State) : s.assertReset.busy = false := rfl
@[simp] theorem State.assertReset_ovr (s : State) : s.assertReset.ovr = false := rfl
@[simp] theorem State.assertReset_err (s : State) : s.assertReset.err = 0x00#8 := rfl
@[simp] theorem State.assertReset_result (s : State) : s.assertReset.result = 0x00#8 := rfl
@[simp] theorem State.assertReset_argA (s : State) : s.assertReset.argA = 0#32 := rfl
@[simp] theorem State.assertReset_argB (s : State) : s.assertReset.argB = 0#32 := rfl
@[simp] theorem State.assertReset_argN (s : State) : s.assertReset.argN = 0#16 := rfl
@[simp] theorem State.assertReset_lc (s : State) : s.assertReset.lc = Latched.idle := rfl
@[simp] theorem State.assertReset_mem (s : State) : s.assertReset.mem = s.abortRunning.mem := rfl
@[simp] theorem State.assertReset_poly (s : State) : s.assertReset.poly = s.poly := State.abortRunning_poly s
@[simp] theorem State.assertReset_platform (s : State) : s.assertReset.platform = s.platform := State.abortRunning_platform s
@[simp] theorem State.assertReset_inReset (s : State) : s.assertReset.inReset = true := rfl
@[simp] theorem State.assertReset_spoiled (s : State) : s.assertReset.spoiled = [] := rfl
@[simp] theorem State.assertReset_draws (s : State) : s.assertReset.draws = s.abortRunning.draws := rfl
@[simp] theorem State.assertReset_inputs (s : State) : s.assertReset.inputs = s.inputs := State.abortRunning_inputs s
@[simp] theorem State.assertReset_replies (s : State) : s.assertReset.replies = s.replies := State.abortRunning_replies s

end Sys2Proof.Machine
end

