-- ==== Sys2Proof/Laws/Ranges.lean ====
section
/-! SUPPORT. Sys2Proof/Laws/Ranges.lean: the range and platform checks of the model in the terms of Safety.lean. -/

namespace Sys2Proof

@[simp] theorem ByteRange.mem_addrs (r : ByteRange) (a : Nat) : a ∈ r.addrs ↔ r.Holds a := by
  simp only [ByteRange.addrs, ByteRange.Holds, List.mem_map, List.mem_range]
  constructor
  · rintro ⟨i, hi, rfl⟩
    omega
  · rintro ⟨h1, h2⟩
    exact ⟨a - r.base, by omega, by omega⟩

@[simp] theorem ByteRange.length_addrs (r : ByteRange) : r.addrs.length = r.len := by simp [ByteRange.addrs]

theorem ByteRange.getElem_addrs (r : ByteRange) (i : Nat) (h : i < r.addrs.length) : r.addrs[i] = r.base + i := by
  simp [ByteRange.addrs]

theorem ByteRange.covers_iff (r : ByteRange) (a : Nat) : r.covers a = true ↔ r.Holds a := by
  simp [ByteRange.covers, ByteRange.Holds]

theorem ByteRange.valid_iff (r : ByteRange) : r.valid = true ↔ r.base + r.len ≤ memSize := by
  simp [ByteRange.valid]

theorem ByteRange.meets_iff (r q : ByteRange) : r.meets q = true ↔ ∃ a, r.Holds a ∧ q.Holds a := by
  simp only [ByteRange.meets, ByteRange.Holds, Nat.blt_eq]
  constructor
  · intro h
    exact ⟨max r.base q.base, by omega⟩
  · rintro ⟨a, h⟩
    omega

theorem ByteRange.clip_of_valid {r : ByteRange} (h : r.base + r.len ≤ memSize) : r.clip = r := by
  simp only [ByteRange.clip]
  rw [show min r.len (memSize - r.base) = r.len by omega]

theorem ByteRange.clip_end (r : ByteRange) (h : r.base ≤ memSize) : r.base + r.clip.len ≤ memSize := by
  simp only [ByteRange.clip]
  omega

theorem ByteRange.clip_holds {r : ByteRange} {a : Nat} (h : r.clip.Holds a) : r.Holds a := by
  simp only [ByteRange.clip, ByteRange.Holds] at *
  omega

theorem ByteRange.clip_holds_of {r : ByteRange} {a : Nat} (h : r.Holds a) (hlt : a < memSize) : r.clip.Holds a := by
  simp only [ByteRange.clip, ByteRange.Holds] at *
  omega

theorem Platform.allOk_iff (pl : Platform) (d : Dir) (rs : List ByteRange) :
    pl.allOk d rs = true ↔ ∀ r ∈ rs, ∀ a, r.Holds a → pl.memOk a d = true := by
  simp [Platform.allOk]

theorem Platform.anyDevice_iff (pl : Platform) (rs : List ByteRange) :
    pl.anyDevice rs = true ↔ ∃ r ∈ rs, pl.HasDevice r := by
  simp [Platform.anyDevice, Platform.HasDevice]

theorem Platform.anyWindow_iff (pl : Platform) (d : Dir) (rs : List ByteRange) :
    pl.anyWindow d rs = true ↔ ∃ r ∈ rs, pl.ReachesWindow d r := by
  simp [Platform.anyWindow, Platform.ReachesWindow]

theorem Platform.anyDevice_false_iff (pl : Platform) (rs : List ByteRange) :
    pl.anyDevice rs = false ↔ ∀ r ∈ rs, ∀ a, r.Holds a → pl.isDevice a = false := by
  simp [Platform.anyDevice]

theorem Platform.anyWindow_false_iff (pl : Platform) (d : Dir) (rs : List ByteRange) :
    pl.anyWindow d rs = false ↔ ∀ r ∈ rs, pl.NoWindow d r := by
  simp [Platform.anyWindow, Platform.NoWindow]

/-- A range that holds no byte of the window reaches none, in either direction. -/
theorem Platform.noWindow_of_unmapped {pl : Platform} {r : ByteRange} (h : ∀ a, r.Holds a → pl.isWindow a = false)
    (d : Dir) : pl.NoWindow d r := fun a ha hw => by
  rw [h a ha] at hw
  cases hw

theorem Platform.Plain.noWindow {pl : Platform} {d : Dir} {r : ByteRange} (h : pl.Plain d r) : pl.NoWindow d r :=
  Platform.noWindow_of_unmapped (fun a ha => (h a ha).2.2) d

namespace Machine

/-- Where no byte of a range is a device's, the port reads what the memory holds. -/
theorem State.portByte_plain {s : State} {a : Nat} (h : s.platform.isDevice a = false) :
    s.portByte a = Memory.read s.mem a := by
  simp [State.portByte, h]

theorem State.portBytes_plain {s : State} {r : ByteRange} (h : ∀ a, r.Holds a → s.platform.isDevice a = false) :
    s.portBytes r = Memory.readBytes s.mem r.base r.len := by
  simp only [State.portBytes, Memory.readBytes, ByteRange.addrs, List.map_map]
  refine List.map_congr_left fun i hi => ?_
  rw [List.mem_range] at hi
  exact State.portByte_plain (h _ (by simp only [ByteRange.Holds]; omega))

/-- What free bytes leave: the bytes of the range inside the memory space take the values of one draw, and every other byte
reads as before. -/
theorem State.read_fillFree {s : State} (hwf : Memory.wf s.mem = true) (r : ByteRange) (a : Nat) :
    (r.clip.Holds a → Memory.read (s.fillFree r).mem a = Config.freeByte s.draws a) ∧
      (¬ r.Holds a → Memory.read (s.fillFree r).mem a = Memory.read s.mem a) := by
  rw [State.fillFree_mem]
  by_cases hb : r.base ≤ memSize
  · have hlen : r.base + (r.clip.addrs.map (Config.freeByte s.draws)).length ≤ memSize := by
      simpa using r.clip_end hb
    have hread := Memory.read_writeBytes (r.clip.addrs.map (Config.freeByte s.draws)) hwf hlen a
    rw [hread]
    constructor
    · rintro ⟨h1, h2⟩
      have h1' : r.base ≤ a := h1
      have h2' : a < r.base + r.clip.len := h2
      rw [dif_pos ⟨h1', by rw [List.length_map, ByteRange.length_addrs]; exact h2'⟩]
      simp only [List.getElem_map, ByteRange.getElem_addrs]
      exact congrArg _ (by simp only [ByteRange.clip]; omega)
    · intro hout
      rw [dif_neg]
      rintro ⟨h1, h2⟩
      rw [List.length_map, ByteRange.length_addrs] at h2
      exact hout (ByteRange.clip_holds ⟨h1, h2⟩)
  · have h0 : r.clip.len = 0 := by
      simp only [ByteRange.clip]
      omega
    have hnil : r.clip.addrs = [] := by
      rw [← List.length_eq_zero_iff]
      simpa using h0
    rw [hnil]
    refine ⟨fun h => ?_, fun _ => rfl⟩
    exact absurd h (by simp only [ByteRange.Holds, h0]; omega)

/-- Free bytes keep the canonical form. -/
theorem State.wf_fillFree {s : State} (hwf : Memory.wf s.mem = true) (r : ByteRange) :
    Memory.wf (s.fillFree r).mem = true := by
  rw [State.fillFree_mem]
  by_cases hb : r.base ≤ memSize
  · exact Memory.wf_writeBytes _ hwf (by simpa using r.clip_end hb)
  · have hnil : r.clip.addrs = [] := by
      rw [← List.length_eq_zero_iff]
      simp only [ByteRange.length_addrs, ByteRange.clip]
      omega
    rw [hnil]
    exact hwf

theorem State.wf_fillFreeAll : ∀ (rs : List ByteRange) {s : State}, Memory.wf s.mem = true →
    Memory.wf (s.fillFreeAll rs).mem = true
  | [], _, h => h
  | r :: rs, _, h => State.wf_fillFreeAll rs (State.wf_fillFree h r)

/-- Free bytes of several ranges leave every byte outside all of them alone. -/
theorem State.read_fillFreeAll_outside : ∀ (rs : List ByteRange) {s : State}, Memory.wf s.mem = true →
    ∀ {a : Nat}, (∀ r ∈ rs, ¬ r.Holds a) → Memory.read (s.fillFreeAll rs).mem a = Memory.read s.mem a
  | [], _, _, _, _ => rfl
  | r :: rs, s, h, a, hout => by
    rw [State.fillFreeAll, State.read_fillFreeAll_outside rs (State.wf_fillFree h r)
      (fun q hq => hout q (List.mem_cons_of_mem _ hq))]
    exact (State.read_fillFree h r a).2 (hout r List.mem_cons_self)

/-- Free bytes as written bytes: no more than the range holds, and none past the memory space. -/
theorem State.fillFree_writes (s : State) {r : ByteRange} (h : r.base ≤ memSize) :
    ∃ vals : List Byte, s.fillFree r = { s with mem := Memory.writeBytes s.mem r.base vals, draws := s.draws + 1 } ∧
      vals.length ≤ r.len ∧ r.base + vals.length ≤ memSize := by
  refine ⟨r.clip.addrs.map (Config.freeByte s.draws), rfl, ?_, ?_⟩
  · simp only [List.length_map, ByteRange.length_addrs, ByteRange.clip]
    omega
  · simpa using r.clip_end h

/-- Which output ranges are open, in the terms of Safety.lean (R85, R79). -/
theorem State.outputIsOpen_iff (s : State) (ins : List ByteRange) (out : ByteRange) :
    s.outputIsOpen ins out = true ↔ s.OutputOpen ins out := by
  simp only [State.outputIsOpen, State.OutputOpen, Bool.or_eq_true, List.any_eq_true, Platform.anyDevice_iff,
    ByteRange.meets_iff, ByteRange.Apart, not_forall, not_not]

theorem State.outputIsOpen_false_iff (s : State) (ins : List ByteRange) (out : ByteRange) :
    s.outputIsOpen ins out = false ↔ ¬ s.OutputOpen ins out := by
  rw [← State.outputIsOpen_iff, Bool.not_eq_true]

/-- Every byte of several ranges, inside the memory space, is some draw's. -/
theorem State.read_fillFreeAll : ∀ (rs : List ByteRange) {s : State}, Memory.wf s.mem = true → ∀ {r : ByteRange} {a : Nat},
    r ∈ rs → r.Holds a → a < memSize → ∃ n, Memory.read (s.fillFreeAll rs).mem a = Config.freeByte n a
  | q :: rs, s, h, r, a, hr, ha, hlt => by
    by_cases hlater : ∃ p ∈ rs, p.Holds a
    · obtain ⟨p, hp, hpa⟩ := hlater
      exact State.read_fillFreeAll rs (State.wf_fillFree h q) hp hpa hlt
    · simp only [not_exists, not_and] at hlater
      refine ⟨s.draws, ?_⟩
      rw [State.fillFreeAll, State.read_fillFreeAll_outside rs (State.wf_fillFree h q) hlater]
      rcases List.mem_cons.1 hr with rfl | hr
      · exact (State.read_fillFree h r a).1 (ByteRange.clip_holds_of ha hlt)
      · exact absurd ha (hlater r hr)

theorem State.fillFreeAll_append (rs qs : List ByteRange) (s : State) :
    s.fillFreeAll (rs ++ qs) = (s.fillFreeAll rs).fillFreeAll qs := by
  induction rs generalizing s with
  | nil => rfl
  | cons r rs ih => exact ih (s.fillFree r)

end Machine

end Sys2Proof
end

