-- ==== Sys2Proof/Laws/Commands.lean ====
section
/-! SUPPORT. Sys2Proof/Laws/Commands.lean: what the output phase, a command, the core's turn and a host's access can do, each
said once. -/

namespace Sys2Proof.Machine

/-- The output phase, case by case (R70, R215, R85 and R79, then the plain case). -/
theorem State.outputPhase_cases (ins : List ByteRange) (out : ByteRange) (vals : List Byte) (s : State) :
    ((s.platform.anyWindow .read ins = true ∨ s.platform.anyWindow .write [out] = true) ∧
        s.outputPhase ins out vals = .fault .windowThroughMemoryPort) ∨
    ((s.platform.allOk .read ins = false ∨ s.platform.allOk .write [out] = false) ∧
        s.outputPhase ins out vals = .next ((s.fillFree out).raise .busError)) ∨
    (s.outputIsOpen ins out = true ∧ s.outputPhase ins out vals = .next (s.fillFree out).complete) ∨
    (s.outputIsOpen ins out = false ∧
        s.outputPhase ins out vals =
          .next (State.complete { s with mem := Memory.writeBytes s.mem out.base vals })) := by
  unfold State.outputPhase
  cases s.platform.anyWindow .read ins <;> cases s.platform.anyWindow .write [out] <;>
    cases s.platform.allOk .read ins <;> cases s.platform.allOk .write [out] <;>
    cases s.outputIsOpen ins out <;> simp

/-- What the checks and the output phase can do: they complete or raise; of the state they change the draw counter and bytes
of the output range inside the memory space. -/
theorem State.afterChecks_next {failed : Option ErrorKind} {ins : List ByteRange} {out : ByteRange} {vals : List Byte}
    {s t : State} (hb : out.base ≤ memSize) (hv : failed = none → out.base + out.len ≤ memSize)
    (hl : vals.length = out.len) (h : s.afterChecks failed ins out vals = .next t) :
    ∃ (u : State) (bytes : List Byte),
      u = { s with mem := Memory.writeBytes s.mem out.base bytes, draws := u.draws } ∧
      bytes.length ≤ out.len ∧ out.base + bytes.length ≤ memSize ∧ (t = u.complete ∨ ∃ e, t = u.raise e) := by
  obtain ⟨bytes, hf, hlen, hend⟩ := s.fillFree_writes hb
  cases failed with
  | some e =>
    cases h
    cases ho : s.outputIsOpen ins out
    · exact ⟨s, [], rfl, Nat.zero_le _, hb, .inr ⟨e, by simp [State.raiseChecked, ho]⟩⟩
    · exact ⟨s.fillFree out, bytes, hf, hlen, hend, .inr ⟨e, by simp [State.raiseChecked, ho]⟩⟩
  | none =>
    have hv := hv rfl
    simp only [State.afterChecks] at h
    rcases State.outputPhase_cases ins out vals s with ⟨-, hc⟩ | ⟨-, hc⟩ | ⟨-, hc⟩ | ⟨-, hc⟩ <;> rw [hc] at h <;> cases h
    · exact ⟨s.fillFree out, bytes, hf, hlen, hend, .inr ⟨_, rfl⟩⟩
    · exact ⟨s.fillFree out, bytes, hf, hlen, hend, .inl rfl⟩
    · exact ⟨{ s with mem := Memory.writeBytes s.mem out.base vals }, vals, rfl, by omega, by omega, .inl rfl⟩

/-- Every 32-bit address is at most the end of the memory space. -/
theorem Word.toNat_le_memSize (a : Word) : a.toNat ≤ memSize := by
  have := a.isLt
  simp only [memSize]
  omega

theorem State.interpReadsTable_of {s : State} (h0 : s.lc.argN ≠ 0#16) (h1 : s.interpTable.valid = true)
    (h2 : s.platform.allOk .read [s.interpTable] = true) : s.interpReadsTable = true := by
  simp [State.interpReadsTable, h0, h1, h2]

/-- The checks of PEVALV have passed only where its output range is valid. -/
theorem State.pevalvCheck_none {s : State} {x : Byte} {k : Nat} (h : s.pevalvCheck x k = none) :
    s.pevalvOutput.base + s.pevalvOutput.len ≤ memSize := by
  unfold State.pevalvCheck at h
  repeat' split at h
  all_goals first
    | cases h; done
    | exact (ByteRange.valid_iff _).1 (by simp_all)

/-- The checks of INTERP have passed only where its output range is valid. -/
theorem State.interpCheck_none {s : State} (h : s.interpCheck = none) :
    s.interpOutput.base + s.interpOutput.len ≤ memSize := by
  unfold State.interpCheck at h
  repeat' split at h
  all_goals first
    | cases h; done
    | exact (ByteRange.valid_iff _).1 (by simp_all)

/-- What every command can do: it completes or raises; of the state it changes `RESULT` (not where it raises), the draw
counter, and bytes of its output range inside the memory space. -/
theorem exec_next {i : Instr} {s t : State} (h : exec i s = .next t) :
    ∃ (u : State) (vals : List Byte),
      u = { s with result := u.result, mem := Memory.writeBytes s.mem (s.outputOf i).base vals, draws := u.draws } ∧
      vals.length ≤ (s.outputOf i).len ∧ (s.outputOf i).base + vals.length ≤ memSize ∧
      (t = u.complete ∨ ∃ e, t = u.raise e ∧ u.result = s.result) := by
  have quiet : ∀ (u : State) (r : ByteRange), r.base ≤ memSize → u = { s with result := u.result, draws := u.draws } →
      (t = u.complete ∨ ∃ e, t = u.raise e ∧ u.result = s.result) →
      ∃ (u : State) (vals : List Byte),
        u = { s with result := u.result, mem := Memory.writeBytes s.mem r.base vals, draws := u.draws } ∧
        vals.length ≤ r.len ∧ r.base + vals.length ≤ memSize ∧
        (t = u.complete ∨ ∃ e, t = u.raise e ∧ u.result = s.result) :=
    fun u r hb hu ht => ⟨u, [], hu, Nat.zero_le _, hb, ht⟩
  have checked : ∀ (d : Nat) (f : Option ErrorKind) (ins : List ByteRange) (out : ByteRange) (vals : List Byte),
      out.base ≤ memSize → (f = none → out.base + out.len ≤ memSize) → vals.length = out.len →
      State.afterChecks f ins out vals { s with draws := d } = .next t →
      ∃ (u : State) (vals : List Byte),
        u = { s with result := u.result, mem := Memory.writeBytes s.mem out.base vals, draws := u.draws } ∧
        vals.length ≤ out.len ∧ out.base + vals.length ≤ memSize ∧
        (t = u.complete ∨ ∃ e, t = u.raise e ∧ u.result = s.result) := by
    intro d f ins out vals hb hv hl hc
    obtain ⟨u, bytes, hu, hlen, hend, ht⟩ := State.afterChecks_next hb hv hl hc
    have hr : u.result = s.result := by rw [hu]
    exact ⟨u, bytes, by rw [hr]; exact hu, hlen, hend, ht.imp_right fun ⟨e, he⟩ => ⟨e, he, hr⟩⟩
  have zero : (0 : Nat) ≤ memSize := Nat.zero_le _
  cases i with
  | add a b => cases h; exact quiet _ ⟨0, 0⟩ zero rfl (.inl rfl)
  | mul a b => cases h; exact quiet _ ⟨0, 0⟩ zero rfl (.inl rfl)
  | div a b =>
    simp only [exec, execDiv] at h
    split at h <;> cases h
    · exact quiet s ⟨0, 0⟩ zero rfl (.inr ⟨_, rfl, rfl⟩)
    · exact quiet _ ⟨0, 0⟩ zero rfl (.inl rfl)
  | inv a =>
    simp only [exec, execInv] at h
    split at h <;> cases h
    · exact quiet s ⟨0, 0⟩ zero rfl (.inr ⟨_, rfl, rfl⟩)
    · exact quiet _ ⟨0, 0⟩ zero rfl (.inl rfl)
  | pow a e => cases h; exact quiet _ ⟨0, 0⟩ zero rfl (.inl rfl)
  | exp e => cases h; exact quiet _ ⟨0, 0⟩ zero rfl (.inl rfl)
  | log a =>
    simp only [exec, execLog] at h
    split at h <;> cases h
    · exact quiet s ⟨0, 0⟩ zero rfl (.inr ⟨_, rfl, rfl⟩)
    · exact quiet _ ⟨0, 0⟩ zero rfl (.inl rfl)
  | peval x k =>
    simp only [exec, execPeval] at h
    repeat' split at h
    all_goals cases h
    · exact quiet s ⟨0, 0⟩ zero rfl (.inr ⟨_, rfl, rfl⟩)
    · exact quiet s ⟨0, 0⟩ zero rfl (.inr ⟨_, rfl, rfl⟩)
    · exact quiet s ⟨0, 0⟩ zero rfl (.inr ⟨_, rfl, rfl⟩)
    · exact quiet _ ⟨0, 0⟩ zero rfl (.inl rfl)
    · exact quiet _ ⟨0, 0⟩ zero rfl (.inl rfl)
  | pevalv x k =>
    exact checked s.draws _ _ _ _ (Word.toNat_le_memSize _) State.pevalvCheck_none
      (by simp [State.pevalvValues, State.outputOf, State.pevalvOutput]) h
  | interp =>
    have hb : (s.outputOf .interp).base ≤ memSize := by
      simp only [State.outputOf]
      cases s.interpReadsTable
      · exact zero
      · exact Word.toNat_le_memSize _
    simp only [exec, execInterp] at h
    split at h
    · cases h; exact quiet s _ hb rfl (.inr ⟨_, rfl, rfl⟩)
    split at h
    · cases h; exact quiet s _ hb rfl (.inr ⟨_, rfl, rfl⟩)
    split at h
    · cases h
    split at h
    · cases h; exact quiet s _ hb rfl (.inr ⟨_, rfl, rfl⟩)
    rename_i h0 h1 _ h2
    simp only [Bool.not_eq_true', Bool.not_eq_false] at h1 h2
    have hout : s.outputOf .interp = s.interpOutput := by
      simp [State.outputOf, State.interpReadsTable_of h0 h1 h2]
    rw [hout]
    rw [State.afterTable_eq] at h
    exact checked _ _ _ _ _ (Word.toNat_le_memSize _) State.interpCheck_none
      (by simp [State.interpValues, State.interpOutput]) h

/-- The checks and the output phase are not refused. -/
theorem State.afterChecks_not_refused (failed : Option ErrorKind) (ins : List ByteRange) (out : ByteRange)
    (vals : List Byte) (s : State) (r : Refusal) : s.afterChecks failed ins out vals ≠ .refused r := by
  cases failed with
  | some e => simp [State.afterChecks]
  | none =>
    rw [State.afterChecks]
    rcases State.outputPhase_cases ins out vals s with ⟨-, hc⟩ | ⟨-, hc⟩ | ⟨-, hc⟩ | ⟨-, hc⟩ <;> rw [hc] <;> simp

/-- No command is refused. -/
theorem exec_not_refused (i : Instr) (s : State) (r : Refusal) : exec i s ≠ .refused r := by
  cases i <;> simp only [exec, execAdd, execMul, execDiv, execInv, execPow, execExp, execLog, execPeval, execPevalv,
    execInterp] <;> repeat' split
  all_goals first
    | exact State.afterChecks_not_refused _ _ _ _ _ _
    | simp

end Sys2Proof.Machine
end

