-- ==== Sys2Proof/Laws/PerInstr.lean ====
section
/-! SUPPORT. Sys2Proof/Laws/PerInstr.lean: the shape of every command word, per instruction: the opcode of its row of the table
(R102) in bits 7:0 and zero in the reserved field, bits 31:24 (R103). -/

namespace Sys2Proof

theorem packWord_toNat (op a b : Byte) :
    (packWord op a b).toNat = op.toNat + 256 * a.toNat + 65536 * b.toNat := by
  have h1 := op.isLt
  have h2 := a.isLt
  have h3 := b.isLt
  simp only [packWord, BitVec.toNat_append, BitVec.toNat_ofNat]
  rw [← Nat.shiftLeft_add_eq_or_of_lt (by omega), ← Nat.shiftLeft_add_eq_or_of_lt (by omega),
    ← Nat.shiftLeft_add_eq_or_of_lt (by omega)]
  simp only [Nat.shiftLeft_eq]
  omega

end Sys2Proof

namespace Sys2Proof.Laws.CommandWordShape

/-- The opcode of each command (R102). -/
def opcode : Instr → Nat
  | .add _ _ => 0x01
  | .mul _ _ => 0x02
  | .div _ _ => 0x03
  | .inv _ => 0x04
  | .pow _ _ => 0x05
  | .exp _ => 0x06
  | .log _ => 0x07
  | .peval _ _ => 0x10
  | .pevalv _ _ => 0x11
  | .interp => 0x12

/-- The command word of `i` holds `i`'s opcode in bits 7:0 and zero in bits 31:24. -/
def Statement (i : Instr) : Prop := (encode i).toNat % 256 = opcode i ∧ (encode i).toNat / 16777216 = 0

theorem packed (op a b : Byte) :
    (packWord op a b).toNat % 256 = op.toNat ∧ (packWord op a b).toNat / 16777216 = 0 := by
  have h1 := op.isLt
  have h2 := a.isLt
  have h3 := b.isLt
  rw [packWord_toNat]
  omega

theorem add (a b : Byte) : Statement (.add a b) := packed _ _ _
theorem mul (a b : Byte) : Statement (.mul a b) := packed _ _ _
theorem div (a b : Byte) : Statement (.div a b) := packed _ _ _
theorem inv (a : Byte) : Statement (.inv a) := packed _ _ _
theorem pow (a : Byte) (e : Nat) : Statement (.pow a e) := packed _ _ _
theorem exp (i : Nat) : Statement (.exp i) := packed _ _ _
theorem log (a : Byte) : Statement (.log a) := packed _ _ _
theorem peval (x : Byte) (k : Nat) : Statement (.peval x k) := packed _ _ _
theorem pevalv (x : Byte) (k : Nat) : Statement (.pevalv x k) := packed _ _ _
theorem interp : Statement .interp := packed _ _ _

end Sys2Proof.Laws.CommandWordShape
end

