-- ==== Sys2Proof/Laws/Decode.lean ====
section
/-! SUPPORT. Sys2Proof/Laws/Decode.lean: the fields of a word as numbers (R100), and words assembled from fields and bytes. -/

namespace Sys2Proof

theorem fieldOp_toNat (w : Word) : (fieldOp w).toNat = w.toNat % 256 := by
  simp [fieldOp, BitVec.extractLsb'_toNat]

theorem fieldA_toNat (w : Word) : (fieldA w).toNat = w.toNat / 256 % 256 := by
  simp [fieldA, BitVec.extractLsb'_toNat, Nat.shiftRight_eq_div_pow]

theorem fieldB_toNat (w : Word) : (fieldB w).toNat = w.toNat / 65536 % 256 := by
  simp [fieldB, BitVec.extractLsb'_toNat, Nat.shiftRight_eq_div_pow]

theorem fieldRsv_toNat (w : Word) : (fieldRsv w).toNat = w.toNat / 16777216 := by
  have := w.isLt
  simp only [fieldRsv, BitVec.extractLsb'_toNat, Nat.shiftRight_eq_div_pow]
  omega

theorem wordOfBytes_toNat (b0 b1 b2 b3 : Byte) :
    (wordOfBytes b0 b1 b2 b3).toNat = b0.toNat + 256 * b1.toNat + 65536 * b2.toNat + 16777216 * b3.toNat := by
  have h0 := b0.isLt
  have h1 := b1.isLt
  have h2 := b2.isLt
  have h3 := b3.isLt
  simp only [wordOfBytes, BitVec.toNat_append]
  rw [← Nat.shiftLeft_add_eq_or_of_lt (by omega), ← Nat.shiftLeft_add_eq_or_of_lt (by omega),
    ← Nat.shiftLeft_add_eq_or_of_lt (by omega)]
  simp only [Nat.shiftLeft_eq]
  omega

/-- The fields of a word assembled from bytes are the bytes. -/
theorem fields_wordOfBytes (b0 b1 b2 b3 : Byte) :
    fieldOp (wordOfBytes b0 b1 b2 b3) = b0 ∧ fieldA (wordOfBytes b0 b1 b2 b3) = b1 ∧
      fieldB (wordOfBytes b0 b1 b2 b3) = b2 ∧ fieldRsv (wordOfBytes b0 b1 b2 b3) = b3 := by
  have h0 := b0.isLt
  have h1 := b1.isLt
  have h2 := b2.isLt
  have h3 := b3.isLt
  simp only [← BitVec.toNat_inj, fieldOp_toNat, fieldA_toNat, fieldB_toNat, fieldRsv_toNat, wordOfBytes_toNat]
  omega

/-- A word is assembled from its fields. -/
theorem wordOfBytes_fields (w : Word) : wordOfBytes (fieldOp w) (fieldA w) (fieldB w) (fieldRsv w) = w := by
  have := w.isLt
  rw [← BitVec.toNat_inj, wordOfBytes_toNat, fieldOp_toNat, fieldA_toNat, fieldB_toNat, fieldRsv_toNat]
  omega

/-- A packed command word is assembled from its opcode, its operands and a zero reserved field. -/
theorem packWord_eq (op a b : Byte) : packWord op a b = wordOfBytes op a b 0x00#8 := by
  rw [← BitVec.toNat_inj, packWord_toNat, wordOfBytes_toNat]
  simp

end Sys2Proof
end

