-- ==== Sys2Proof/Laws/Gf.lean ====
section
/-! SUPPORT. Sys2Proof/Laws/Gf.lean: multiplication by x, multiplication as a linear map in each operand, an induction
principle over the elements, and what the searches of `gfInv` and `gfLog` find. -/

namespace Sys2Proof

@[simp] theorem gfAdd_eq (a b : Byte) : gfAdd a b = a ^^^ b := rfl

@[simp] theorem gfPow_zero (p : Poly) (a : Byte) : gfPow p a 0 = 0x01#8 := rfl

theorem gfPow_succ (p : Poly) (a : Byte) (e : Nat) : gfPow p a (e + 1) = gfMul p (gfPow p a e) a := rfl

theorem gfExp_eq (p : Poly) (i : Nat) : gfExp p i = gfPow p p.gen i := rfl

@[simp] theorem horner_nil (p : Poly) (x : Byte) : horner p x [] = 0x00#8 := rfl

@[simp] theorem horner_cons (p : Poly) (x c : Byte) (cs : List Byte) :
    horner p x (c :: cs) = gfMul p (horner p x cs) x ^^^ c := rfl

@[simp] theorem xtime_zero (p : Poly) : xtime p 0x00#8 = 0x00#8 := by simp [xtime]

theorem xtime_xor (p : Poly) (r s : Byte) : xtime p (r ^^^ s) = xtime p r ^^^ xtime p s := by
  simp only [xtime, BitVec.getLsbD_xor, BitVec.shiftLeft_xor_distrib]
  cases r.getLsbD 7 <;> cases s.getLsbD 7 <;> ext i hi <;> simp
  all_goals cases p.low[i] <;> cases decide (i < 1) <;> simp

/-- The loop of R131 is linear in its first operand and its partial product together. -/
theorem gfMulFrom_xor_left (p : Poly) (b : Byte) : ∀ (n : Nat) (a a' r r' : Byte),
    gfMulFrom p (a ^^^ a') b n (r ^^^ r') = gfMulFrom p a b n r ^^^ gfMulFrom p a' b n r'
  | 0, _, _, _, _ => rfl
  | n + 1, a, a', r, r' => by
    simp only [gfMulFrom, ← gfMulFrom_xor_left p b n, xtime_xor]
    congr 1
    cases b.getLsbD n
    · rfl
    · simp only [cond_true]
      ac_rfl

/-- The loop of R131 is linear in its second operand and its partial product together. -/
theorem gfMulFrom_xor_right (p : Poly) (a b b' : Byte) : ∀ (n : Nat) (r r' : Byte),
    gfMulFrom p a (b ^^^ b') n (r ^^^ r') = gfMulFrom p a b n r ^^^ gfMulFrom p a b' n r'
  | 0, _, _ => rfl
  | n + 1, r, r' => by
    simp only [gfMulFrom, ← gfMulFrom_xor_right p a b b' n, xtime_xor, BitVec.getLsbD_xor]
    congr 1
    cases b.getLsbD n <;> cases b'.getLsbD n <;> simp only [Bool.xor_false, Bool.xor_true, Bool.not_false, Bool.not_true,
      cond_true, cond_false]
    · ac_rfl
    · ac_rfl
    · rw [show xtime p r ^^^ a ^^^ (xtime p r' ^^^ a) = xtime p r ^^^ xtime p r' ^^^ (a ^^^ a) by ac_rfl]
      simp

theorem gfMulFrom_xtime (p : Poly) (b : Byte) : ∀ (n : Nat) (a r : Byte),
    gfMulFrom p (xtime p a) b n (xtime p r) = xtime p (gfMulFrom p a b n r)
  | 0, _, _ => rfl
  | n + 1, a, r => by
    simp only [gfMulFrom, ← gfMulFrom_xtime p b n]
    congr 1
    cases b.getLsbD n
    · rfl
    · simp only [cond_true, xtime_xor]

theorem gfMul_xor_left (p : Poly) (a a' b : Byte) : gfMul p (a ^^^ a') b = gfMul p a b ^^^ gfMul p a' b := by
  have h := gfMulFrom_xor_left p b 8 a a' 0x00#8 0x00#8
  rwa [BitVec.xor_self] at h

theorem gfMul_xor_right (p : Poly) (a b b' : Byte) : gfMul p a (b ^^^ b') = gfMul p a b ^^^ gfMul p a b' := by
  have h := gfMulFrom_xor_right p a b b' 8 0x00#8 0x00#8
  rwa [BitVec.xor_self] at h

theorem gfMul_xtime_left (p : Poly) (a b : Byte) : gfMul p (xtime p a) b = xtime p (gfMul p a b) := by
  have h := gfMulFrom_xtime p b 8 a 0x00#8
  rwa [xtime_zero] at h

@[simp] theorem gfMul_zero_left (p : Poly) (b : Byte) : gfMul p 0x00#8 b = 0x00#8 := by
  have h := gfMul_xor_left p 0x00#8 0x00#8 b
  rwa [BitVec.xor_self, BitVec.xor_self] at h

@[simp] theorem gfMul_zero_right (p : Poly) (a : Byte) : gfMul p a 0x00#8 = 0x00#8 := by
  have h := gfMul_xor_right p a 0x00#8 0x00#8
  rwa [BitVec.xor_self, BitVec.xor_self] at h

/-- Every element is a sum of the powers 1, x, .., x^7: what holds of 0 and of these and is kept by sums holds of every
element. -/
theorem gf_basis {P : Byte → Prop} (h0 : P 0x00#8) (hpow : ∀ j : Nat, j < 8 → P (0x01#8 <<< j))
    (hadd : ∀ a b, P a → P b → P (a ^^^ b)) (a : Byte) : P a := by
  have hbit : ∀ j : Nat, j < 8 → P (bif a.getLsbD j then 0x01#8 <<< j else 0x00#8) := by
    intro j hj
    cases a.getLsbD j
    · exact h0
    · exact hpow j hj
  have hsum : ∀ b : Byte, b =
      (bif b.getLsbD 0 then 0x01#8 <<< 0 else 0x00#8) ^^^ (bif b.getLsbD 1 then 0x01#8 <<< 1 else 0x00#8) ^^^
      (bif b.getLsbD 2 then 0x01#8 <<< 2 else 0x00#8) ^^^ (bif b.getLsbD 3 then 0x01#8 <<< 3 else 0x00#8) ^^^
      (bif b.getLsbD 4 then 0x01#8 <<< 4 else 0x00#8) ^^^ (bif b.getLsbD 5 then 0x01#8 <<< 5 else 0x00#8) ^^^
      (bif b.getLsbD 6 then 0x01#8 <<< 6 else 0x00#8) ^^^ (bif b.getLsbD 7 then 0x01#8 <<< 7 else 0x00#8) := by
    decide +kernel
  rw [hsum a]
  exact hadd _ _ (hadd _ _ (hadd _ _ (hadd _ _ (hadd _ _ (hadd _ _ (hadd _ _ (hbit 0 (by omega)) (hbit 1 (by omega)))
    (hbit 2 (by omega))) (hbit 3 (by omega))) (hbit 4 (by omega))) (hbit 5 (by omega))) (hbit 6 (by omega)))
    (hbit 7 (by omega))

/-- What holds of 0 and 1 and is kept by multiplication by x and by sums holds of every element. -/
theorem gf_induction (p : Poly) {P : Byte → Prop} (h0 : P 0x00#8) (h1 : P 0x01#8) (hx : ∀ a, P a → P (xtime p a))
    (hadd : ∀ a b, P a → P b → P (a ^^^ b)) (a : Byte) : P a := by
  refine gf_basis h0 (fun j => ?_) hadd a
  induction j with
  | zero => exact fun _ => h1
  | succ j ih =>
    intro hj
    have hstep : xtime p (0x01#8 <<< j) = 0x01#8 <<< (j + 1) := by
      have : j = 0 ∨ j = 1 ∨ j = 2 ∨ j = 3 ∨ j = 4 ∨ j = 5 ∨ j = 6 := by omega
      rcases this with rfl | rfl | rfl | rfl | rfl | rfl | rfl <;> simp [xtime]
    rw [← hstep]
    exact hx _ (ih (by omega))

theorem gfMul_one_left (p : Poly) (b : Byte) : gfMul p 0x01#8 b = b := by
  refine gf_basis (P := fun b => gfMul p 0x01#8 b = b) (gfMul_zero_right p _) ?_ (fun a b ha hb => ?_) b
  · cases p <;> decide +kernel
  · rw [gfMul_xor_right, ha, hb]

/-- A search that finds: `gfInv` is an inverse of every element that has one. -/
theorem gfMul_gfInv_of_exists {p : Poly} {a b : Byte} (h : gfMul p a b = 0x01#8) : gfMul p a (gfInv p a) = 0x01#8 := by
  unfold gfInv
  cases hf : allBytes.find? (fun b => gfMul p a b == 0x01#8) with
  | none =>
    rw [List.find?_eq_none] at hf
    refine absurd (by simpa using h) (hf b ?_)
    exact List.mem_map.2 ⟨b.toNat, List.mem_range.2 b.isLt, by simp⟩
  | some c => simpa using List.find?_some hf

/-- What the search of `gfLog` finds: the first index from `i` on at which the power is `a`. -/
theorem gfLogFrom_spec (p : Poly) (a : Byte) : ∀ (fuel i : Nat),
    (gfLogFrom p a fuel i (gfExp p i) = i + fuel ∧ ∀ j, i ≤ j → j < i + fuel → gfExp p j ≠ a) ∨
    (i ≤ gfLogFrom p a fuel i (gfExp p i) ∧ gfLogFrom p a fuel i (gfExp p i) < i + fuel ∧
      gfExp p (gfLogFrom p a fuel i (gfExp p i)) = a)
  | 0, i => .inl ⟨rfl, fun j h1 h2 => by omega⟩
  | fuel + 1, i => by
    by_cases h : gfExp p i = a
    · have hs : gfLogFrom p a (fuel + 1) i (gfExp p i) = i := by simp [gfLogFrom, h]
      exact .inr ⟨by omega, by omega, by rw [hs, h]⟩
    · have hs : gfLogFrom p a (fuel + 1) i (gfExp p i) = gfLogFrom p a fuel (i + 1) (gfExp p (i + 1)) := by
        have : (gfExp p i == a) = false := by simpa using h
        simp only [gfLogFrom, this, cond_false]
        rfl
      rw [hs]
      rcases gfLogFrom_spec p a fuel (i + 1) with ⟨h1, h2⟩ | ⟨h1, h2, h3⟩
      · refine .inl ⟨by omega, fun j hj hlt => ?_⟩
        rcases Nat.eq_or_lt_of_le hj with rfl | hj
        · exact h
        · exact h2 j (by omega) (by omega)
      · exact .inr ⟨by omega, by omega, h3⟩

theorem gfLog_spec (p : Poly) (a : Byte) :
    (gfLog p a = 255 ∧ ∀ j, j < 255 → gfExp p j ≠ a) ∨ (gfLog p a < 255 ∧ gfExp p (gfLog p a) = a) := by
  rcases gfLogFrom_spec p a 255 0 with ⟨h1, h2⟩ | ⟨-, h2, h3⟩
  · exact .inl ⟨h1, fun j hj => h2 j (Nat.zero_le _) (by omega)⟩
  · exact .inr ⟨h2, h3⟩

end Sys2Proof
end

