-- ==== Sys2Proof/Laws/Phases.lean ====
section
/-! SUPPORT. Sys2Proof/Laws/Phases.lean: completions and the output phase in the terms of Safety.lean: which outcome follows from which
platform. -/

namespace Sys2Proof

theorem ByteRange.valid_of {r : ByteRange} (h : r.base + r.len ≤ memSize) : r.valid = true := r.valid_iff.2 h

theorem ByteRange.not_valid_of {r : ByteRange} (h : memSize < r.base + r.len) : r.valid = false := by
  rw [← Bool.not_eq_true, ByteRange.valid_iff]
  omega

theorem ByteRange.forall_one {P : ByteRange → Prop} {r : ByteRange} (h : P r) : ∀ q ∈ [r], P q := by
  simpa using h

theorem Platform.anyWindow_none {pl : Platform} {d : Dir} {rs : List ByteRange} (h : ∀ r ∈ rs, pl.NoWindow d r) :
    pl.anyWindow d rs = false := (pl.anyWindow_false_iff d rs).2 h

theorem Platform.anyWindow_one {pl : Platform} {d : Dir} {r : ByteRange} (h : pl.NoWindow d r) :
    pl.anyWindow d [r] = false := Platform.anyWindow_none (ByteRange.forall_one h)

theorem Platform.anyDevice_one {pl : Platform} {d : Dir} {r : ByteRange} (h : pl.Plain d r) : pl.anyDevice [r] = false :=
  (pl.anyDevice_false_iff [r]).2 (ByteRange.forall_one (P := fun r => ∀ a, r.Holds a → _) fun a ha => (h a ha).2.1)

theorem Platform.allOk_one {pl : Platform} {d : Dir} {r : ByteRange} (h : ∀ a, r.Holds a → pl.memOk a d = true) :
    pl.allOk d [r] = true := (pl.allOk_iff d [r]).2 (ByteRange.forall_one (P := fun r => ∀ a, r.Holds a → _) h)

theorem Platform.Plain.allOk {pl : Platform} {d : Dir} {r : ByteRange} (h : pl.Plain d r) : pl.allOk d [r] = true :=
  Platform.allOk_one fun a ha => (h a ha).1

theorem Platform.not_allOk {pl : Platform} {d : Dir} {rs : List ByteRange} {r : ByteRange} (hr : r ∈ rs)
    (h : pl.SomeBusError d r) : pl.allOk d rs = false := by
  obtain ⟨a, ha, hbad⟩ := h
  rw [← Bool.not_eq_true, Platform.allOk_iff]
  intro hall
  rw [hall r hr a ha] at hbad
  cases hbad

namespace Machine

/-- A completion of a state that differs from `s` in `RESULT`, memory and the draw counter only keeps the frame. -/
theorem State.frame_complete {s u : State} (h : u = { s with result := u.result, mem := u.mem, draws := u.draws }) :
    s.CommandFrame u.complete := by
  rw [h]
  constructor <;> rfl

theorem State.frame_raise {s u : State} (e : ErrorKind)
    (h : u = { s with result := u.result, mem := u.mem, draws := u.draws }) : s.CommandFrame (u.raise e) := by
  rw [h]
  constructor <;> rfl

/-- `complete(r)` returns `r` (R210). -/
theorem State.returned_completeWith (s : State) (r : Byte) : s.Returned (s.completeWith r) r :=
  ⟨rfl, rfl, rfl, rfl, State.frame_complete (s := s) (u := { s with result := r }) rfl⟩

/-- `raise E` fails with the code of `E` (R211). -/
theorem State.failed_raise (s : State) (e : ErrorKind) : s.Failed (s.raise e) e.code :=
  ⟨rfl, rfl, rfl, State.frame_raise (s := s) e rfl⟩

/-- The output phase over ordinary memory with the output apart from the inputs writes the values. -/
theorem State.outputPhase_plain {ins : List ByteRange} {out : ByteRange} {vals : List Byte} {s : State}
    (hi : ∀ r ∈ ins, s.platform.Plain .read r) (ho : s.platform.Plain .write out) (ha : ∀ r ∈ ins, out.Apart r) :
    s.outputPhase ins out vals = .next (State.complete { s with mem := Memory.writeBytes s.mem out.base vals }) := by
  have h1 : s.platform.anyWindow .read ins = false := Platform.anyWindow_none fun r hr => (hi r hr).noWindow
  have h3 : s.platform.allOk .read ins = true := (s.platform.allOk_iff _ _).2 fun r hr a h => (hi r hr a h).1
  have h5 : s.outputIsOpen ins out = false := by
    rw [State.outputIsOpen_false_iff]
    rintro (⟨r, hr, h⟩ | ⟨r, hr, a, h, hd⟩)
    · exact h (ha r hr)
    · rcases List.mem_cons.1 hr with rfl | hr
      · rw [(ho a h).2.1] at hd
        cases hd
      · rw [(hi r hr a h).2.1] at hd
        cases hd
  simp [State.outputPhase, h1, Platform.anyWindow_one ho.noWindow, h3, ho.allOk, h5]

/-- A bus error in the output phase leaves the output range open (R215). -/
theorem State.outputPhase_busError {ins : List ByteRange} {out : ByteRange} {vals : List Byte} {s : State}
    (hi : ∀ r ∈ ins, s.platform.NoWindow .read r) (ho : s.platform.NoWindow .write out)
    (hb : (∃ r ∈ ins, s.platform.SomeBusError .read r) ∨ s.platform.SomeBusError .write out) :
    s.outputPhase ins out vals = .next ((s.fillFree out).raise .busError) := by
  have h1 := Platform.anyWindow_none hi
  have h2 := Platform.anyWindow_one ho
  rcases hb with ⟨r, hr, hb⟩ | hb
  · simp [State.outputPhase, h1, h2, Platform.not_allOk hr hb]
  · simp [State.outputPhase, h1, h2, Platform.not_allOk (List.mem_singleton.2 rfl) hb]

/-- An overlap or a device leaves the output range open, with success (R85, R79). -/
theorem State.outputPhase_open {ins : List ByteRange} {out : ByteRange} {vals : List Byte} {s : State}
    (hi : ∀ r ∈ ins, ∀ a, r.Holds a → s.platform.memOk a .read = true ∧ s.platform.isWindow a = false)
    (ho : ∀ a, out.Holds a → s.platform.memOk a .write = true ∧ s.platform.isWindow a = false)
    (hb : s.OutputOpen ins out) :
    s.outputPhase ins out vals = .next (s.fillFree out).complete := by
  have h1 : s.platform.anyWindow .read ins = false :=
    Platform.anyWindow_none fun r hr => Platform.noWindow_of_unmapped (fun a ha => (hi r hr a ha).2) _
  have h2 : s.platform.anyWindow .write [out] = false :=
    Platform.anyWindow_one (Platform.noWindow_of_unmapped (fun a ha => (ho a ha).2) _)
  have h3 : s.platform.allOk .read ins = true := (s.platform.allOk_iff _ _).2 fun r hr a h => (hi r hr a h).1
  have h4 : s.platform.allOk .write [out] = true := Platform.allOk_one fun a h => (ho a h).1
  simp [State.outputPhase, h1, h2, h3, h4, (s.outputIsOpen_iff ins out).2 hb]

/-- What the written values leave. -/
theorem State.wrote_complete {s : State} {out : ByteRange} {vals : List Byte} {f : Nat → Byte}
    (hwf : Memory.wf s.mem = true) (hv : out.base + out.len ≤ memSize) (hl : vals.length = out.len)
    (hf : ∀ p (h : p < vals.length), vals[p] = f p) :
    s.Wrote (State.complete { s with mem := Memory.writeBytes s.mem out.base vals }) out f := by
  refine ⟨rfl, rfl, ?_, ?_, rfl, by constructor <;> rfl⟩
  · intro p hp
    show Memory.read (Memory.writeBytes s.mem out.base vals) _ = _
    rw [Memory.read_writeBytes vals hwf (by omega), dif_pos (by omega), ← hf p (by omega)]
    congr 1
    omega
  · intro a ha
    show Memory.read (Memory.writeBytes s.mem out.base vals) _ = _
    rw [Memory.read_writeBytes_outside vals hwf (by omega)]
    simp only [ByteRange.Holds] at ha
    omega

/-- What free bytes and an end leave. -/
theorem State.endedOpen {s : State} (hwf : Memory.wf s.mem = true) (out : ByteRange) :
    (∀ e : ErrorKind, s.EndedOpen ((s.fillFree out).raise e) e.code out) ∧
      s.EndedOpen (s.fillFree out).complete 0x00#8 out := by
  have h1 : s.SameOutside (s.fillFree out) out := fun a ha => (State.read_fillFree hwf out a).2 ha
  have h2 : ∀ a, out.Holds a → a < memSize → Memory.read (s.fillFree out).mem a = Config.freeByte s.draws a :=
    fun a ha hlt => (State.read_fillFree hwf out a).1 (ByteRange.clip_holds_of ha hlt)
  exact ⟨fun e => ⟨rfl, rfl, h1, ⟨_, h2⟩, by constructor <;> rfl⟩, ⟨rfl, rfl, h1, ⟨_, h2⟩, by constructor <;> rfl⟩⟩

/-- What a failed check leaves (R214, R85, R79). -/
theorem State.checkFailed {s : State} (hwf : Memory.wf s.mem = true) (e : ErrorKind) (ins : List ByteRange)
    (out : ByteRange) : s.CheckFailed (s.raiseChecked e ins out) e.code ins out := by
  constructor <;> intro h
  · rw [State.raiseChecked, (s.outputIsOpen_false_iff ins out).2 h]
    exact State.failed_raise s e
  · rw [State.raiseChecked, (s.outputIsOpen_iff ins out).2 h]
    exact (State.endedOpen hwf out).1 e

/-- An output range that R85 or R79 leaves open is open whatever the command ends with. -/
theorem State.afterChecks_open {failed : Option ErrorKind} {ins : List ByteRange} {out : ByteRange} {vals : List Byte}
    {s t : State} (hwf : Memory.wf s.mem = true) (ho : s.OutputOpen ins out)
    (h : s.afterChecks failed ins out vals = .next t) : s.EndedOpen t t.err out := by
  have hopen := (s.outputIsOpen_iff ins out).2 ho
  cases failed with
  | some e =>
    cases h
    rw [State.raiseChecked, hopen]
    exact (State.endedOpen hwf out).1 e
  | none =>
    rw [State.afterChecks] at h
    rcases State.outputPhase_cases ins out vals s with ⟨-, hc⟩ | ⟨-, hc⟩ | ⟨-, hc⟩ | ⟨hn, -⟩
    · rw [hc] at h
      cases h
    · rw [hc] at h
      cases h
      exact (State.endedOpen hwf out).1 .busError
    · rw [hc] at h
      cases h
      exact (State.endedOpen hwf out).2
    · rw [hn] at hopen
      cases hopen

/-- What the error code is after the checks: OK or BUS_ERROR of the output phase, or the code of the failed check, and an
error leaves `RESULT`. -/
theorem State.afterChecks_err {failed : Option ErrorKind} {ins : List ByteRange} {out : ByteRange} {vals : List Byte}
    {s t : State} (h : s.afterChecks failed ins out vals = .next t) :
    t.result = s.result ∧ (∀ e, failed = some e → t.err = e.code) ∧
      (failed = none → t.err = 0x00#8 ∨ t.err = 0x09#8) := by
  cases failed with
  | some e =>
    cases h
    exact ⟨by simp, fun _ he => by cases he; simp, nofun⟩
  | none =>
    rw [State.afterChecks] at h
    rcases State.outputPhase_cases ins out vals s with ⟨-, hc⟩ | ⟨-, hc⟩ | ⟨-, hc⟩ | ⟨-, hc⟩ <;> rw [hc] at h <;> cases h
    · exact ⟨rfl, nofun, fun _ => .inr rfl⟩
    · exact ⟨rfl, nofun, fun _ => .inl rfl⟩
    · exact ⟨rfl, nofun, fun _ => .inl rfl⟩

/-- The checks and the output phase stop only where an access reaches the register window (R70). -/
theorem State.afterChecks_next_or_window (failed : Option ErrorKind) (ins : List ByteRange) (out : ByteRange)
    (vals : List Byte) (s : State) :
    (∃ t, s.afterChecks failed ins out vals = .next t) ∨
      (((∃ r ∈ ins, s.platform.ReachesWindow .read r) ∨ s.platform.ReachesWindow .write out) ∧
        s.afterChecks failed ins out vals = .fault .windowThroughMemoryPort) := by
  cases failed with
  | some e => exact .inl ⟨_, rfl⟩
  | none =>
    rw [State.afterChecks]
    rcases State.outputPhase_cases ins out vals s with ⟨hw, hc⟩ | ⟨-, hc⟩ | ⟨-, hc⟩ | ⟨-, hc⟩
    · rw [Platform.anyWindow_iff, Platform.anyWindow_iff] at hw
      exact .inr ⟨hw.imp_right (by simp), hc⟩
    all_goals exact .inl ⟨_, hc⟩

/-- A command stops only where an access of its ranges reaches the register window (R70). -/
theorem exec_next_or_window (i : Instr) (s : State) :
    (∃ t, exec i s = .next t) ∨
      (((∃ r ∈ s.inputsOf i, s.platform.ReachesWindow .read r) ∨ s.platform.ReachesWindow .write (s.outputOf i)) ∧
        exec i s = .fault .windowThroughMemoryPort) := by
  cases i with
  | add | mul | pow | exp => exact .inl ⟨_, rfl⟩
  | div _ b => simp only [exec, execDiv]; split <;> exact .inl ⟨_, rfl⟩
  | inv a => simp only [exec, execInv]; split <;> exact .inl ⟨_, rfl⟩
  | log a => simp only [exec, execLog]; split <;> exact .inl ⟨_, rfl⟩
  | peval x k =>
    simp only [exec, execPeval]
    repeat' split
    all_goals first
      | exact .inl ⟨_, rfl⟩
      | exact .inr ⟨.inl ((s.platform.anyWindow_iff .read _).1 (by assumption)), rfl⟩
  | pevalv x k => exact State.afterChecks_next_or_window _ _ _ _ _
  | interp =>
    simp only [exec, execInterp]
    split
    · exact .inl ⟨_, rfl⟩
    split
    · exact .inl ⟨_, rfl⟩
    split
    · rename_i hw
      obtain ⟨r, hr, hw⟩ := (s.platform.anyWindow_iff .read _).1 hw
      rw [List.mem_singleton] at hr
      subst hr
      refine .inr ⟨.inl ⟨s.interpTable, ?_, hw⟩, rfl⟩
      simp only [State.inputsOf, State.interpRanges]
      cases s.interpReadsTable <;> exact List.mem_cons_self
    split
    · exact .inl ⟨_, rfl⟩
    rename_i h0 h1 _ h2
    simp only [Bool.not_eq_true', Bool.not_eq_false] at h1 h2
    simp only [State.inputsOf, State.outputOf, State.interpReadsTable_of h0 h1 h2, cond_true]
    simpa using State.afterChecks_next_or_window s.interpCheck s.interpRanges s.interpOutput s.interpValues s.afterTable

/-- PEVALV past its checks (R173). -/
theorem exec_pevalv_checked {s : State} {x : Byte} {k : Nat} (hk : k ≠ 0) (hx : x ≠ 0x00#8)
    (h1 : s.lc.argA.toNat + s.lc.argN.toNat * k ≤ memSize) (h2 : s.lc.argB.toNat + s.lc.argN.toNat ≤ memSize) :
    exec (.pevalv x k) s = s.outputPhase [s.pevalvInput k] s.pevalvOutput (s.pevalvValues x k) := by
  simp [exec, execPevalv, State.afterChecks, State.pevalvCheck, hk, hx, ByteRange.valid_of (r := s.pevalvInput k) h1,
    ByteRange.valid_of (r := s.pevalvOutput) h2]

end Machine

end Sys2Proof
end

