-- ==== Sys2Proof/Laws/Shares.lean ====
section
/-! SUPPORT. Sys2Proof/Laws/Shares.lean: INTERP's descriptors, checks and values over a readable table, in the terms of Safety.lean. -/

namespace Sys2Proof.Machine

/-- A 16-bit little-endian field (R73). -/
theorem half_toNat (lo hi : Byte) : (hi ++ lo : BitVec (8 + 8)).toNat = lo.toNat + 256 * hi.toNat := by
  have h0 := lo.isLt
  have h1 := hi.isLt
  simp only [BitVec.toNat_append]
  rw [← Nat.shiftLeft_add_eq_or_of_lt (by omega)]
  simp only [Nat.shiftLeft_eq]
  omega

theorem State.argN_ne_zero {s : State} (h : s.shareCount ≠ 0) : s.lc.argN ≠ 0#16 :=
  fun h0 => h (by simp [State.shareCount, h0])

theorem State.argN_eq_zero {s : State} (h : s.shareCount = 0) : s.lc.argN = 0#16 := by
  rw [← BitVec.toNat_inj]
  exact h

theorem State.TableReadable.plain {s : State} (h : s.TableReadable) : s.platform.Plain .read s.interpTable := h.2.2

theorem State.TableReadable.reads {s : State} (h : s.TableReadable) : s.interpReadsTable = true :=
  State.interpReadsTable_of (State.argN_ne_zero h.1) (ByteRange.valid_of (r := s.interpTable) h.2.1) h.plain.allOk

/-- The descriptor's fields are the bytes of memory R190 names. -/
theorem State.descriptorAt_fields {s : State} (h : s.TableReadable) {i : Nat} (hi : i < s.shareCount) :
    (s.descriptorAt (s.lc.argA.toNat + 8 * i)).x = s.shareX i ∧
      (s.descriptorAt (s.lc.argA.toNat + 8 * i)).len.toNat = s.shareLen i ∧
      (s.descriptorAt (s.lc.argA.toNat + 8 * i)).yAddr.toNat = s.shareAddr i := by
  have hp : ∀ j, j < 8 →
      s.portByte (s.lc.argA.toNat + 8 * i + j) = Memory.read s.mem (s.lc.argA.toNat + 8 * i + j) := fun j hj =>
    State.portByte_plain
      (h.2.2 _ ⟨by simp only [State.shareTable]; omega, by simp only [State.shareTable]; omega⟩).2.1
  refine ⟨hp 0 (by omega), ?_, ?_⟩
  · simp only [State.descriptorAt, State.portHalf, State.shareLen]
    rw [half_toNat, ← hp 2 (by omega), ← hp 3 (by omega)]
  · simp only [State.descriptorAt, State.portWord, State.shareAddr]
    rw [show s.lc.argA.toNat + 8 * i + 4 + 1 = s.lc.argA.toNat + 8 * i + 5 by omega,
      show s.lc.argA.toNat + 8 * i + 4 + 2 = s.lc.argA.toNat + 8 * i + 6 by omega,
      show s.lc.argA.toNat + 8 * i + 4 + 3 = s.lc.argA.toNat + 8 * i + 7 by omega]
    rw [hp 4 (by omega), hp 5 (by omega), hp 6 (by omega), hp 7 (by omega)]
    exact wordOfBytes_toNat _ _ _ _

theorem State.interpLen_eq {s : State} (h : s.TableReadable) : s.interpLen = s.shareLen 0 := by
  obtain ⟨n, hn⟩ : ∃ n, s.lc.argN.toNat = n + 1 := ⟨s.lc.argN.toNat - 1, by
    have := h.1
    simp only [State.shareCount] at this
    omega⟩
  simp only [State.interpLen, State.interpShares, hn, List.range_succ_eq_map, List.map_cons]
  exact (State.descriptorAt_fields h (Nat.pos_of_ne_zero h.1)).2.1

theorem State.interpXs_eq {s : State} (h : s.TableReadable) : s.interpXs = s.shareXs := by
  simp only [State.interpXs, State.interpShares, State.shareXs, List.map_map]
  exact List.map_congr_left fun i hi => (State.descriptorAt_fields h (List.mem_range.1 hi)).1

theorem State.lengthsDiffer_iff {s : State} (h : s.TableReadable) : s.lengthsDiffer = false ↔ s.LengthsAgree := by
  simp only [State.lengthsDiffer, State.interpShares, List.any_map, List.any_eq_false, List.mem_range, Function.comp,
    State.LengthsAgree, State.interpLen_eq h]
  refine forall_congr' fun i => ⟨fun hh hi => ?_, fun hh hi => ?_⟩
  · have := hh hi
    rw [(State.descriptorAt_fields h hi).2.1] at this
    simpa using this
  · rw [(State.descriptorAt_fields h hi).2.1, hh hi]
    simp

theorem hasDuplicate_iff (xs : List Byte) : hasDuplicate xs = false ↔ xs.Nodup := by
  induction xs with
  | nil => simp [hasDuplicate]
  | cons x xs ih =>
    simp only [hasDuplicate, Bool.or_eq_false_iff, ih, List.nodup_cons, List.any_eq_false, beq_iff_eq]
    refine and_congr_left fun _ => ⟨fun h hx => h x hx rfl, ?_⟩
    rintro h y hy rfl
    exact h hy

theorem State.xsDistinct_iff (s : State) : s.XsDistinct ↔ s.shareXs.Nodup := by
  rw [State.shareXs, State.XsDistinct, List.Nodup, List.pairwise_map, List.pairwise_iff_getElem]
  simp only [List.length_range, List.getElem_range]
  exact ⟨fun h i j hi hj hij => h i j hij hj, fun h i j hij hj => h i j (by omega) hj hij⟩

theorem State.hasDuplicate_interpXs_iff {s : State} (h : s.TableReadable) :
    hasDuplicate s.interpXs = false ↔ s.XsDistinct := by
  rw [State.interpXs_eq h, hasDuplicate_iff, State.xsDistinct_iff]

theorem State.interpInputs_eq {s : State} (h : s.TableReadable) :
    s.interpInputs = (List.range s.shareCount).map s.shareRange := by
  simp only [State.interpInputs, State.interpShares, List.map_map]
  refine List.map_congr_left fun i hi => ?_
  simp only [Function.comp, Descriptor.yRange, (State.descriptorAt_fields h (List.mem_range.1 hi)).2.2,
    State.interpLen_eq h, State.shareRange]

theorem State.interpOutput_eq {s : State} (h : s.TableReadable) : s.interpOutput = s.shareOutput := by
  simp [State.interpOutput, State.shareOutput, State.interpLen_eq h]

theorem State.shareRangesValid_iff {s : State} (h : s.TableReadable) :
    (s.interpInputs.all ByteRange.valid = true ∧ s.interpOutput.valid = true) ↔ s.ShareRangesValid := by
  simp [State.interpInputs_eq h, State.interpOutput_eq h, State.ShareRangesValid, ByteRange.valid_iff, State.shareRange,
    State.shareOutput]

theorem State.afterTable_of_readable {s : State} (h : s.TableReadable) : s.afterTable = s := by
  simp [State.afterTable, Platform.anyDevice_one h.plain]

theorem State.interpRanges_eq {s : State} (h : s.TableReadable) : s.interpRanges = s.shareInputs := by
  rw [State.interpRanges, State.interpInputs_eq h]
  rfl

/-- INTERP over a readable table: the checks that are left, and the output phase (R193). -/
theorem exec_interp_readable {s : State} (h : s.TableReadable) :
    exec .interp s = s.afterChecks s.interpCheck s.shareInputs s.shareOutput s.interpValues := by
  simp [exec, execInterp, State.argN_ne_zero h.1, ByteRange.valid_of (r := s.interpTable) h.2.1,
    Platform.anyWindow_one (d := .read) h.plain.noWindow, h.plain.allOk, State.afterTable_of_readable h,
    State.interpRanges_eq h, State.interpOutput_eq h]

/-- The checks of INTERP over a readable table, in the terms of Safety.lean (R191, R193, R213). -/
theorem State.interpCheck_cases {s : State} (h : s.TableReadable) :
    (¬ s.LengthsAgree ∧ s.interpCheck = some .malformed) ∨
    (s.LengthsAgree ∧ ¬ s.XsDistinct ∧ s.interpCheck = some .duplicate) ∨
    (s.LengthsAgree ∧ s.XsDistinct ∧ ¬ s.ShareRangesValid ∧ s.interpCheck = some .range) ∨
    (s.LengthsAgree ∧ s.XsDistinct ∧ s.ShareRangesValid ∧ s.interpCheck = none) := by
  rw [← State.lengthsDiffer_iff h, ← State.hasDuplicate_interpXs_iff h, ← State.shareRangesValid_iff h, State.interpCheck]
  cases s.lengthsDiffer <;> cases hasDuplicate s.interpXs <;> cases s.interpInputs.all ByteRange.valid <;>
    cases s.interpOutput.valid <;> simp

/-- INTERP past its checks. -/
theorem exec_interp_checked {s : State} (h : s.TableReadable) (h1 : s.LengthsAgree) (h2 : s.XsDistinct)
    (h3 : s.ShareRangesValid) : exec .interp s = s.outputPhase s.shareInputs s.shareOutput s.interpValues := by
  rw [exec_interp_readable h]
  rcases State.interpCheck_cases h with ⟨hn, -⟩ | ⟨-, hn, -⟩ | ⟨-, -, hn, -⟩ | ⟨-, -, -, hc⟩
  · exact absurd h1 hn
  · exact absurd h2 hn
  · exact absurd h3 hn
  · rw [hc]
    rfl

/-- What holds of the table and of every y-value range holds of every input range. -/
theorem State.forall_shareInputs {s : State} {P : ByteRange → Prop} (h1 : P s.shareTable)
    (h2 : ∀ i, i < s.shareCount → P (s.shareRange i)) : ∀ r ∈ s.shareInputs, P r := by
  intro r hr
  rcases List.mem_cons.1 hr with rfl | hr
  · exact h1
  · rw [List.mem_map] at hr
    obtain ⟨i, hi, rfl⟩ := hr
    exact h2 i (List.mem_range.1 hi)

theorem State.shareTable_mem_inputs (s : State) : s.shareTable ∈ s.shareInputs := List.mem_cons_self

theorem State.shareRange_mem_inputs {s : State} {i : Nat} (hi : i < s.shareCount) : s.shareRange i ∈ s.shareInputs :=
  List.mem_cons_of_mem _ (List.mem_map.2 ⟨i, List.mem_range.2 hi, rfl⟩)

/-- The sum over the shares as one loop. -/
theorem lagrangeSum_range (p : Poly) (ys ws : Nat → Byte) (n : Nat) :
    lagrangeSum p ((List.range n).map ys) ((List.range n).map ws) =
      (List.range n).foldl (fun acc i => acc ^^^ gfMul p (ys i) (ws i)) 0x00#8 := by
  have hzip : List.zipWith (gfMul p) ((List.range n).map ys) ((List.range n).map ws) =
      (List.range n).map (fun i => gfMul p (ys i) (ws i)) := by simp [List.zipWith_map]
  rw [lagrangeSum, hzip, List.foldl_map]
  rfl

/-- The bytes INTERP computes, read off memory. -/
theorem State.interpValues_getElem {s : State} (h : s.TableReadable)
    (hr : ∀ i, i < s.shareCount → s.platform.Plain .read (s.shareRange i)) (p : Nat) (hp : p < s.interpValues.length) :
    s.interpValues[p] = s.recoveredByte p := by
  simp only [State.interpValues, List.length_map, List.length_range, State.interpLen_eq h] at hp
  simp only [State.interpValues, List.getElem_map, List.getElem_range]
  have hys : s.interpShares.map (fun d => s.portByte (d.yAddr.toNat + p)) =
      (List.range s.shareCount).map (fun i => Memory.read s.mem (s.shareAddr i + p)) := by
    simp only [State.interpShares, List.map_map]
    refine List.map_congr_left fun i hi => ?_
    rw [List.mem_range] at hi
    simp only [Function.comp, (State.descriptorAt_fields h hi).2.2]
    refine State.portByte_plain (hr i hi _ ?_).2.1
    simp only [State.shareRange, ByteRange.Holds]
    omega
  have hlen : s.shareXs.length = s.shareCount := by simp [State.shareXs]
  rw [hys, lagrangeWeights, State.interpXs_eq h, hlen, lagrangeSum_range]
  rfl

end Sys2Proof.Machine
end

