-- ==== Sys2Proof/Laws/Steps.lean ====
section
/-! SUPPORT. Sys2Proof/Laws/Steps.lean: what the core's turn, a host's access and a step can do, each said once. -/

namespace Sys2Proof.Machine

/-- What the latched command can do, an illegal word among them: as `exec_next`, on the output range of `LC`. -/
theorem State.runLatched_next {s t : State} (h : s.runLatched = .next t) :
    ∃ (u : State) (vals : List Byte),
      u = { s with result := u.result, mem := Memory.writeBytes s.mem s.latchedOutput.base vals, draws := u.draws } ∧
      vals.length ≤ s.latchedOutput.len ∧ s.latchedOutput.base + vals.length ≤ memSize ∧
      (t = u.complete ∨ ∃ e, t = u.raise e ∧ u.result = s.result) := by
  unfold State.runLatched at h
  cases hd : s.lc.decode with
  | ok i =>
    rw [hd] at h
    have hout : s.latchedOutput = s.outputOf i := by simp [State.latchedOutput, hd]
    rw [hout]
    exact exec_next h
  | error e =>
    rw [hd] at h
    cases h
    exact ⟨s, [], rfl, Nat.zero_le _, by simp [State.latchedOutput, hd], .inr ⟨_, rfl, rfl⟩⟩

/-- The core's turn: idle it does nothing, busy it runs the latched command, and a broken host duty spoils the completion. -/
theorem State.coreTurn_next {s t : State} (h : s.coreTurn = .next t) :
    (s.busy = false ∧ t = s) ∨
    (s.busy = true ∧ s.spoiled = [] ∧ s.runLatched = .next t) ∨
    (s.busy = true ∧ s.spoiled ≠ [] ∧ ∃ u, s.runLatched = .next u ∧ t = s.spoilCompletion u) := by
  unfold State.coreTurn at h
  cases hb : s.busy
  · rw [hb] at h
    cases h
    exact .inl ⟨rfl, rfl⟩
  · rw [hb] at h
    simp only [Bool.not_true, Bool.false_eq_true, if_false] at h
    cases hr : s.runLatched with
    | next u =>
      rw [hr] at h
      cases hs : s.spoiled with
      | nil =>
        simp only [hs, List.isEmpty_nil, cond_true] at h
        exact .inr (.inl ⟨rfl, rfl, h⟩)
      | cons r rs =>
        simp only [hs, List.isEmpty_cons, cond_false] at h
        cases h
        exact .inr (.inr ⟨rfl, by simp, u, rfl, rfl⟩)
    | fault f => rw [hr] at h; cases h
    | refused r => rw [hr] at h; cases h

/-- A busy core with no spoiled range runs the latched command. -/
theorem State.coreTurn_busy {s : State} (hb : s.busy = true) (hs : s.spoiled = []) : s.coreTurn = s.runLatched := by
  unfold State.coreTurn
  rw [hb, hs]
  cases s.runLatched <;> rfl

/-- An idle core does nothing. -/
theorem State.coreTurn_idle {s : State} (hb : s.busy = false) : s.coreTurn = .next s := by
  simp [State.coreTurn, hb]

/-- The register an aligned 32-bit access of the window reaches (R33, R75). -/
theorem State.registerAt_word {s : State} {off : Nat} (h1 : off < 64) (h2 : off % 4 = 0)
    (h3 : s.platform.regBase % 4 = 0) (h4 : s.inReset = false) :
    s.registerAt (s.platform.regBase + off) .word = .ok (Reg.atOffset off) := by
  have hw : s.platform.windowOffset (s.platform.regBase + off) = some off := by
    simp [Platform.windowOffset, cond_eq_ite, h1]
  have h5 : (s.platform.regBase + off) % 4 = 0 := by omega
  simp [State.registerAt, hw, h4, h2, h5]

/-- An access that reaches a register is an aligned 32-bit access of the window with the reset input released. -/
theorem State.registerAt_ok {s : State} {addr : Nat} {w : AccessWidth} {r : Reg} (h : s.registerAt addr w = .ok r) :
    ∃ off, addr = s.platform.regBase + off ∧ off < 64 ∧ off % 4 = 0 ∧ addr % 4 = 0 ∧ w = .word ∧
      s.inReset = false ∧ r = Reg.atOffset off := by
  unfold State.registerAt at h
  cases ho : s.platform.windowOffset addr with
  | none => rw [ho] at h; cases h
  | some off =>
    rw [ho] at h
    simp only [Platform.windowOffset, cond_eq_ite, Bool.and_eq_true, Nat.ble_eq, Nat.blt_eq] at ho
    split at ho
    · rename_i hr
      cases ho
      cases hres : s.inReset
      · rw [hres] at h
        simp only [Bool.false_eq_true, if_false] at h
        split at h
        · cases h
        · rename_i hc
          cases h
          simp only [ne_eq, not_or, Decidable.not_not] at hc
          exact ⟨addr - s.platform.regBase, by omega, by omega, hc.2.2, hc.2.1, hc.1, rfl, rfl⟩
      · rw [hres] at h
        cases h
    · cases ho

/-- Which bytes a running command leaves open to a host's read (R84). -/
theorem State.outputCovers_iff (s : State) (a : Word) :
    s.outputCovers a = true ↔ s.busy = true ∧ ∃ r ∈ s.latchedOutput :: s.spoiled, r.Holds a.toNat := by
  simp only [State.outputCovers, Bool.and_eq_true, List.any_eq_true, ByteRange.covers_iff]

/-- Which writes of a host break its duty (R84). -/
theorem State.writeBreaksDuty_iff (s : State) (a : Word) :
    s.writeBreaksDuty a = true ↔ s.busy = true ∧ ∃ r ∈ s.latchedOutput :: s.latchedInputs, r.Holds a.toNat := by
  simp only [State.writeBreaksDuty, Bool.and_eq_true, List.any_eq_true, ByteRange.covers_iff]

/-- What a host's access can do. -/
theorem State.hostAccess_next {s t : State} {h : HostAccess} (hn : s.hostAccess h = .next t) :
    (h = .fence ∧ t = s) ∨
    (∃ r, t = s.reply r) ∨
    (∃ a, h = .memRead a ∧ s.busy = true ∧ (∃ r ∈ s.latchedOutput :: s.spoiled, r.Holds a.toNat) ∧
        t = { s.spoil.reply (.mem (Config.freeByte s.draws a.toNat)) with draws := s.draws + 1 }) ∨
    (∃ a, h = .memRead a ∧ t = { s.reply (.mem (Config.deviceByte s.draws a.toNat)) with draws := s.draws + 1 }) ∨
    (∃ a v, h = .memWrite a v ∧
        t = { s with
          mem := Memory.write s.mem a.toNat v
          spoiled := bif s.writeBreaksDuty a then s.latchedOutput :: s.spoiled else s.spoiled }) ∨
    (∃ addr w v r, h = .regWrite addr w v ∧ s.registerAt addr w = .ok r ∧ t = s.regWrite v r) := by
  cases h with
  | regRead addr w =>
    simp only [State.hostAccess, State.hostRegRead] at hn
    split at hn <;> cases hn
    exact .inr (.inl ⟨_, rfl⟩)
  | regWrite addr w v =>
    simp only [State.hostAccess, State.hostRegWrite] at hn
    split at hn <;> cases hn
    rename_i r hr
    exact .inr (.inr (.inr (.inr (.inr ⟨addr, w, v, r, rfl, hr, rfl⟩))))
  | memRead a =>
    simp only [State.hostAccess, State.hostMemRead] at hn
    split at hn
    · cases hn
    split at hn
    · rename_i hb
      cases hn
      rw [State.outputCovers_iff] at hb
      exact .inr (.inr (.inl ⟨a, rfl, hb.1, hb.2, rfl⟩))
    split at hn <;> cases hn
    · exact .inr (.inr (.inr (.inl ⟨a, rfl, rfl⟩)))
    · exact .inr (.inl ⟨_, rfl⟩)
  | memWrite a v =>
    simp only [State.hostAccess, State.hostMemWrite] at hn
    split at hn <;> cases hn
    exact .inr (.inr (.inr (.inr (.inl ⟨a, v, rfl, rfl⟩))))
  | fence =>
    cases hn
    exact .inl ⟨rfl, rfl⟩

/-- What a step can do: the agent named next moves, with its entry taken off the sequence. -/
theorem step_next {s t : State} (h : step s = .next t) :
    (s.inputs = [] ∧ s.coreTurn = .next t) ∨
    (∃ rest, s.inputs = .core :: rest ∧ State.coreTurn { s with inputs := rest } = .next t) ∨
    (∃ a rest, s.inputs = .host a :: rest ∧ State.hostAccess { s with inputs := rest } a = .next t) ∨
    (∃ rest, s.inputs = .resetAssert :: rest ∧ t = State.assertReset { s with inputs := rest }) ∨
    (∃ rest, s.inputs = .resetRelease :: rest ∧ t = State.releaseReset { s with inputs := rest }) := by
  unfold step at h
  split at h
  · exact .inl ⟨by assumption, h⟩
  · exact .inr (.inl ⟨_, by assumption, h⟩)
  · exact .inr (.inr (.inl ⟨_, _, by assumption, h⟩))
  · cases h
    exact .inr (.inr (.inr (.inl ⟨_, by assumption, rfl⟩)))
  · cases h
    exact .inr (.inr (.inr (.inr ⟨_, by assumption, rfl⟩)))

/-- What a register write does: nothing, or it writes `CTRL`, `CMD` or an argument register. -/
theorem State.regWrite_cases (s : State) (v : Word) (r : Reg) :
    s.regWrite v r = s ∨ (r = .ctrl ∧ s.regWrite v r = s.writeCtrl v) ∨ (r = .cmd ∧ s.regWrite v r = s.writeCmd v) ∨
      s.regWrite v r = { s with argA := v } ∨ s.regWrite v r = { s with argB := v } ∨
      s.regWrite v r = { s with argN := v.setWidth 16 } := by
  cases r <;> simp [State.regWrite]

theorem State.writeCtrl_cases (s : State) (v : Word) :
    (v.getLsbD 0 = true ∧ s.writeCtrl v = s.coreReset) ∨
    (v.getLsbD 0 = false ∧ v.getLsbD 1 = true ∧ s.writeCtrl v = { s with ovr := false }) ∨
    (v.getLsbD 0 = false ∧ v.getLsbD 1 = false ∧ s.writeCtrl v = s) := by
  unfold State.writeCtrl
  cases v.getLsbD 0 <;> cases v.getLsbD 1 <;> simp

theorem State.writeCmd_cases (s : State) (w : Word) :
    (s.busy = true ∧ s.writeCmd w = { s with ovr := true }) ∨ (s.busy = false ∧ s.writeCmd w = s.issue w) := by
  unfold State.writeCmd
  cases s.busy <;> simp

/-- The fields of an issued word are the word's fields, so `LC` decodes as the word does (R39, R104). -/
theorem State.latch_decode (w : Word) (s : State) : (s.latch w).decode = decodeWord w := rfl

end Sys2Proof.Machine
end

