-- ==== Sys2Proof/Laws/Window.lean ====
section
/-! SUPPORT. Sys2Proof/Laws/Window.lean: the core's turn and a host's register accesses as whole steps (R252, R33 to R45), the frame of the core's turn, and what
reset leaves of memory. -/

namespace Sys2Proof.Machine

theorem step_regRead {s : State} {off : Nat} {rest : List Input} (h : s.NextIsRegRead off rest) :
    step s = .next { s with inputs := rest, replies := .reg (s.regRead (Reg.atOffset off)) :: s.replies } := by
  obtain ⟨h1, h2, h3, h4, h5⟩ := h
  have hr : State.registerAt { s with inputs := rest } (s.platform.regBase + off) .word = .ok (Reg.atOffset off) :=
    State.registerAt_word (s := { s with inputs := rest }) h1 h2 h3 h4
  simp only [step, h5, State.hostAccess, State.hostRegRead, hr]
  rfl

theorem step_regWrite {s : State} {off : Nat} {v : Word} {rest : List Input} (h : s.NextIsRegWrite off v rest) :
    step s = .next (State.regWrite { s with inputs := rest } v (Reg.atOffset off)) := by
  obtain ⟨h1, h2, h3, h4, h5⟩ := h
  have hr : State.registerAt { s with inputs := rest } (s.platform.regBase + off) .word = .ok (Reg.atOffset off) :=
    State.registerAt_word (s := { s with inputs := rest }) h1 h2 h3 h4
  simp only [step, h5, State.hostAccess, State.hostRegWrite, hr]

/-- A step in which the core moves is its turn (R252). -/
theorem step_core {s s' : State} (h : s.CoreMoves s') : step s = s'.coreTurn := by
  rcases h with ⟨hi, rfl⟩ | ⟨rest, hi, rfl⟩ <;> simp [step, hi]

/-- The state the core moves from differs in its inputs only. -/
theorem State.CoreMoves.same {s s' : State} (h : s.CoreMoves s') : s' = { s with inputs := s'.inputs } := by
  rcases h with ⟨-, rfl⟩ | ⟨rest, -, rfl⟩ <;> rfl

/-- The offset of `CMD` and the offset of `CTRL` are their own (R33). -/
theorem Reg.atOffset_cmd {off : Nat} (h1 : off < 64) (h : Reg.atOffset off = .cmd) : off = 0x14 := by
  revert h
  revert off
  decide

theorem Reg.atOffset_ctrl {off : Nat} (h1 : off < 64) (h : Reg.atOffset off = .ctrl) : off = 0x04 := by
  revert h
  revert off
  decide

theorem Word.bit0 (v : Word) : v.getLsbD 0 = decide (v.toNat % 2 = 1) := by
  simp [BitVec.getLsbD, Nat.testBit_zero]

theorem Word.bit1 (v : Word) : v.getLsbD 1 = decide (v.toNat / 2 % 2 = 1) := by
  simp [BitVec.getLsbD, Nat.testBit_succ, Nat.testBit_zero]

/-- A write of 1 to `CTRL.SRST` is the soft reset (R35). -/
theorem step_softReset {s : State} {v : Word} {rest : List Input} (h : s.NextIsRegWrite 0x04 v rest)
    (hv : v.toNat % 2 = 1) : step s = .next (State.coreReset { s with inputs := rest }) := by
  rw [step_regWrite h]
  show Host.Outcome.next (State.writeCtrl v _) = _
  rw [State.writeCtrl, Word.bit0, hv]
  rfl

/-- Either reset is `coreReset`, up to the reset input (R240). -/
theorem step_reset {s : State} {rest : List Input} (h : s.NextIsReset rest) :
    ∃ b, step s = .next { State.coreReset { s with inputs := rest } with inReset := b } := by
  rcases h with h | ⟨v, hv, h⟩
  · exact ⟨true, by simp only [step, h]; rfl⟩
  · exact ⟨(State.coreReset { s with inputs := rest }).inReset, step_softReset h hv⟩

/-- `STATUS` as a number (R38). -/
theorem State.statusWord_eq (s : State) :
    s.statusWord = BitVec.ofNat 32 (s.busy.toNat + 2 * s.ovr.toNat + 256 * s.err.toNat) := by
  have hlow : ∀ (x : Nat) (b : Bool), (x <<< 1 ||| b.toNat) = 2 * x + b.toNat := by
    intro x b
    rw [← Nat.shiftLeft_add_eq_or_of_lt (by cases b <;> decide), Nat.shiftLeft_eq]
    omega
  have := s.err.isLt
  rw [← BitVec.toNat_inj]
  simp only [State.statusWord, BitVec.toNat_append, BitVec.toNat_ofNat, BitVec.toNat_ofBool, hlow]
  cases s.busy <;> cases s.ovr <;> simp [Nat.shiftLeft_eq] <;> omega

/-- The frame of the latched command, an illegal word among them (R210, R211). -/
theorem State.runLatched_frame {s u : State} (h : s.runLatched = .next u) : s.CommandFrame u := by
  obtain ⟨v, vals, hv, -, -, ht⟩ := State.runLatched_next h
  rcases ht with rfl | ⟨e, rfl, -⟩ <;> rw [hv] <;> constructor <;> rfl

theorem State.spoilCompletion_frame {s u : State} (h : s.CommandFrame u) : s.CommandFrame (s.spoilCompletion u) := by
  obtain ⟨h1, h2, h3, h4, h5, h6, h7, h8, h9, h10⟩ := h
  unfold State.spoilCompletion
  cases (s.latchedIsPeval && u.err == errOk) <;> constructor <;> simpa

/-- The core's turn does nothing or keeps the frame of a command. -/
theorem State.coreTurn_frame {s t : State} (h : s.coreTurn = .next t) :
    (s.busy = false ∧ t = s) ∨ (s.busy = true ∧ s.CommandFrame t) := by
  rcases State.coreTurn_next h with h | ⟨h1, -, h2⟩ | ⟨h1, -, u, h2, rfl⟩
  · exact .inl h
  · exact .inr ⟨h1, State.runLatched_frame h2⟩
  · exact .inr ⟨h1, State.spoilCompletion_frame (State.runLatched_frame h2)⟩

/-- The latched command leaves the memory in its canonical form and touches its output range only (R78). -/
theorem State.runLatched_memory {s u : State} (hwf : Memory.wf s.mem = true) (h : s.runLatched = .next u) :
    Memory.wf u.mem = true ∧ s.SameOutside u s.latchedOutput := by
  obtain ⟨v, vals, hv, hl, hb, ht⟩ := State.runLatched_next h
  have hm : u.mem = Memory.writeBytes s.mem s.latchedOutput.base vals := by
    rcases ht with rfl | ⟨e, rfl, -⟩ <;> rw [hv] <;> rfl
  rw [hm]
  refine ⟨Memory.wf_writeBytes vals hwf hb, fun a ha => ?_⟩
  rw [hm, Memory.read_writeBytes_outside vals hwf hb]
  simp only [ByteRange.Holds] at ha
  omega

/-- A spoiled completion touches the spoiled ranges and the output range only (R84), and opens the output range. -/
theorem State.spoilCompletion_memory {s u : State} (hwf : Memory.wf u.mem = true) :
    Memory.wf (s.spoilCompletion u).mem = true ∧
      (∀ a, (∀ r ∈ s.latchedOutput :: s.spoiled, ¬ r.Holds a) →
        Memory.read (s.spoilCompletion u).mem a = Memory.read u.mem a) ∧
      ∃ n, ∀ a, s.latchedOutput.Holds a → a < memSize →
        Memory.read (s.spoilCompletion u).mem a = Config.freeByte n a := by
  unfold State.spoilCompletion
  generalize hx : (bif s.latchedIsPeval && u.err == errOk then u.freeScalar else u) = x
  have hm : x.mem = u.mem := by
    subst hx
    cases (s.latchedIsPeval && u.err == errOk) <;> rfl
  have hwx : Memory.wf x.mem = true := by rw [hm]; exact hwf
  refine ⟨State.wf_fillFreeAll _ hwx, fun a ha => ?_, (x.fillFreeAll s.spoiled).draws, fun a ha hlt => ?_⟩
  · rw [State.read_fillFreeAll_outside _ hwx, hm]
    intro r hr
    rcases List.mem_append.1 hr with hr | hr
    · exact ha r (List.mem_cons_of_mem _ hr)
    · exact ha r (List.mem_cons.2 (.inl (List.mem_singleton.1 hr)))
  · rw [State.fillFreeAll_append]
    refine (State.read_fillFree (State.wf_fillFreeAll _ hwx) _ a).1 ?_
    simp only [ByteRange.clip, ByteRange.Holds] at ha ⊢
    omega

/-- Reset leaves memory alone where no command runs; where one runs it opens the output range and touches nothing else
(R241, R242). -/
theorem State.coreReset_memory {s : State} (hwf : Memory.wf s.mem = true) :
    Memory.wf s.coreReset.mem = true ∧ (s.busy = false → s.coreReset.mem = s.mem) ∧
      (∀ a, (∀ r ∈ s.latchedOutput :: s.spoiled, ¬ r.Holds a) →
        Memory.read s.coreReset.mem a = Memory.read s.mem a) ∧
      (s.busy = true → ∃ n, ∀ a, s.latchedOutput.Holds a → a < memSize →
        Memory.read s.coreReset.mem a = Config.freeByte n a) := by
  rw [State.coreReset_mem]
  cases hb : s.busy
  · rw [State.abortRunning_of_idle hb]
    exact ⟨hwf, fun _ => rfl, fun _ _ => rfl, fun h => by cases h⟩
  · rw [State.abortRunning_of_busy hb]
    refine ⟨State.wf_fillFreeAll _ hwf, (fun h => by cases h), fun a ha => ?_,
      fun _ => ⟨(s.fillFreeAll s.spoiled).draws, fun a ha hlt => ?_⟩⟩
    · refine State.read_fillFreeAll_outside _ hwf fun r hr => ?_
      rcases List.mem_append.1 hr with hr | hr
      · exact ha r (List.mem_cons_of_mem _ hr)
      · exact ha r (List.mem_cons.2 (.inl (List.mem_singleton.1 hr)))
    · rw [State.fillFreeAll_append]
      refine (State.read_fillFree (State.wf_fillFreeAll _ hwf) _ a).1 ?_
      simp only [ByteRange.clip, ByteRange.Holds] at ha ⊢
      omega

end Sys2Proof.Machine
end

