-- ==== Sys2Proof/Tests/Slice0.lean ====
section
/-! SUPPORT. Sys2Proof/Tests/Slice0.lean: tests against the words and vectors of the spec (95_test_vectors.md, the examples of
the rules), and for every statement that has hypotheses a witness that meets them. -/

set_option Elab.async false

namespace Sys2Proof.Tests

open Sys2Proof Sys2Proof.Machine

/-! ## Helpers -/

/-- A core built with `p` on a platform with the given special regions, running the word `w` with the given arguments; the
core moves next. -/
def running (p : Poly) (regions : List Region) (mem : Memory) (w a b : Word) (n : Half) : State :=
  { State.resetOf p { regBase := 0x40000000, regions := regions } with
    busy := true, mem := mem, inputs := [.core],
    lc := { op := fieldOp w, a := fieldA w, b := fieldB w, rsv := fieldRsv w, argA := a, argB := b, argN := n } }

/-- An idle core whose next input is the one given. -/
def facing (i : Input) : State :=
  { State.resetOf .p11B { regBase := 0x40000000, regions := [] } with inputs := [i] }

/-- `ERR`, `RESULT` and the bytes of memory at an address after a step. -/
def seen (o : Host.Outcome State Fault Refusal) (base len : Nat) : Option (Byte × Byte × List Byte) :=
  match o with
  | .next t => some (t.err, t.result, Memory.readBytes t.mem base len)
  | .fault _ => none
  | .refused _ => none

/-- `ERR` and `RESULT` after the command `w` of a field unit built with `p`. -/
def field (p : Poly) (w : Word) : Option (Byte × Byte × List Byte) := seen (step (running p [] [] w 0 0 0)) 0 0

def mem1000 (bs : List Byte) : Memory := Memory.writeBytes [] 0x1000 bs

/-- A share table at 0x100, with y-values and the output elsewhere. -/
def table (bs ys : List Byte) : Memory := Memory.writeBytes (Memory.writeBytes [] 0x100 bs) 0x200 ys

/-! ## Well-formedness: an ill-formed term for each check -/

theorem test_wf_pow : (Instr.pow 0x02#8 256).wf = false ∧ (Instr.pow 0x02#8 255).wf = true := by decide
theorem test_wf_exp : (Instr.exp 256).wf = false ∧ (Instr.exp 255).wf = true := by decide
theorem test_wf_peval : (Instr.peval 0x02#8 256).wf = false ∧ (Instr.peval 0x02#8 0).wf = true := by decide
theorem test_wf_pevalv : (Instr.pevalv 0x02#8 256).wf = false ∧ (Instr.pevalv 0x02#8 255).wf = true := by decide

/-! ## Decoding: the words of the rules (R100: RSV, B, A, OP from the top), and their bytes in rising order -/

theorem test_decode_add : decodeWord 0x00CA5301#32 = .ok (.add 0x53#8 0xCA#8) := by decide
theorem test_decode_mul : decodeBytes [0x02#8, 0x57#8, 0x83#8, 0x00#8] = .ok (.mul 0x57#8 0x83#8) := by decide
theorem test_decode_div : decodeTableWord 32 0x0083C103 = some (.div 0xC1#8 0x83#8) := by decide
theorem test_decode_inv : decodeWord 0x00005304#32 = .ok (.inv 0x53#8) := by decide
theorem test_decode_pow : decodeWord 0x00FE5305#32 = .ok (.pow 0x53#8 254) := by decide
theorem test_decode_exp : decodeWord 0x0000FE06#32 = .ok (.exp 254) := by decide
theorem test_decode_log : decodeWord 0x0000FF07#32 = .ok (.log 0xFF#8) := by decide
theorem test_decode_peval : decodeBytes [0x10#8, 0xFF#8, 0x04#8, 0x00#8] = .ok (.peval 0xFF#8 4) := by decide
theorem test_decode_pevalv : decodeTableWord 32 0x00FF0711 = some (.pevalv 0x07#8 255) := by decide
theorem test_decode_interp : decodeTableWord 32 0x00000012 = some .interp := by decide

/-- V-E1 to V-E9: reserved opcodes, `RSV ≠ 0`, and operand fields that must be 0. -/
theorem test_decode_illegal :
    decodeWord 0x00000000#32 = .error .reservedOpcode ∧ decodeWord 0x00000008#32 = .error .reservedOpcode ∧
    decodeWord 0x00000013#32 = .error .reservedOpcode ∧ decodeWord 0x01000001#32 = .error .reservedFieldNotZero ∧
    decodeWord 0xFF535302#32 = .error .reservedFieldNotZero ∧ decodeWord 0x00015304#32 = .error .operandFieldNotZero ∧
    decodeWord 0x00010006#32 = .error .operandFieldNotZero ∧ decodeWord 0x00010007#32 = .error .operandFieldNotZero ∧
    decodeWord 0x00000112#32 = .error .operandFieldNotZero ∧ decodeWord 0x00010012#32 = .error .operandFieldNotZero ∧
    decodeBytes [0x01#8, 0x53#8, 0xCA#8] = .error .wrongLength := by decide

/-- R107: the words of the syntax table. -/
theorem test_encode : encode (.mul 0x53#8 0xCA#8) = 0x00CA5302#32 ∧ encode .interp = 0x00000012#32 ∧
    encode (.pow 0x02#8 8) = 0x00080205#32 ∧ encode (.peval 0x02#8 3) = 0x00030210#32 := by decide

/-! ## One command a step -/

/-- V-F1. -/
theorem test_add : field .p11D 0x00CA5301#32 = some (0x00#8, 0x99#8, []) := by decide +kernel
/-- V-F2 and V-F3: the same word under two polynomials. -/
theorem test_mul : field .p11B 0x00835702#32 = some (0x00#8, 0xC1#8, []) := by decide +kernel
theorem test_mul_11D : field .p11D 0x00835702#32 = some (0x00#8, 0x31#8, []) := by decide +kernel
/-- V-F14 and V-F17a. -/
theorem test_div : field .p11B 0x0083C103#32 = some (0x00#8, 0x57#8, []) := by decide +kernel
theorem test_div_zero : field .p11B 0x00000003#32 = some (0x05#8, 0x00#8, []) := by decide +kernel
/-- V-F11 and V-E6: ILLEGAL, not a result. -/
theorem test_inv : field .p11D 0x00005304#32 = some (0x00#8, 0x8C#8, []) := by decide +kernel
theorem test_inv_illegal : field .p11B 0x00015304#32 = some (0x07#8, 0x00#8, []) := by decide +kernel
/-- V-F18 and V-F19: zero to the power zero. -/
theorem test_pow : field .p11B 0x00080205#32 = some (0x00#8, 0x1B#8, []) := by decide +kernel
theorem test_pow_zero : field .p11B 0x00000005#32 = some (0x00#8, 0x01#8, []) := by decide +kernel
/-- V-F24, index 7. -/
theorem test_exp : field .p11B 0x00000706#32 = some (0x00#8, 0xFF#8, []) := by decide +kernel
/-- V-F26: the logarithm of 0x53 is 48. -/
theorem test_log : field .p11B 0x00005307#32 = some (0x00#8, 0x30#8, []) := by decide +kernel
/-- V-E8: ILLEGAL before ZERO_LOG; V-F27. -/
theorem test_log_zero : field .p11B 0x00010007#32 = some (0x07#8, 0x00#8, []) ∧
    field .p11B 0x00000007#32 = some (0x06#8, 0x00#8, []) := by decide +kernel
/-- V-P1. -/
theorem test_peval : seen (step (running .p11B [] (mem1000 [0x01#8, 0x02#8, 0x03#8]) 0x00030210#32 0x1000#32 0#32 0#16))
    0 0 = some (0x00#8, 0x09#8, []) := by decide +kernel
/-- R76: the last byte of memory is in a valid range, and the range one longer is not. -/
theorem test_peval_range : seen (step (running .p11B [] [] 0x00010210#32 0xFFFFFFFF#32 0#32 0#16)) 0 0 =
      some (0x00#8, 0x00#8, []) ∧
    seen (step (running .p11B [] [] 0x00020210#32 0xFFFFFFFF#32 0#32 0#16)) 0 0 = some (0x08#8, 0x00#8, []) := by
  decide +kernel
/-- V-P7, x = 2. -/
theorem test_pevalv : seen (step (running .p11B []
      (mem1000 [0x01#8, 0xA5#8, 0x3C#8, 0x02#8, 0x5A#8, 0xC3#8, 0x03#8, 0x0F#8, 0xF0#8]) 0x00030211#32
      0x1000#32 0x2000#32 3#16)) 0x1FFF 5 = some (0x00#8, 0x00#8, [0x00#8, 0xA0#8, 0x97#8, 0xF0#8, 0x00#8]) := by
  decide +kernel
/-- V-X5a: PARAM for `x = 0` before any range, even when `N = 0`. -/
theorem test_pevalv_param : seen (step (running .p11B [] [] 0x00030011#32 0#32 0#32 0#16)) 0 0 =
    some (0x01#8, 0x00#8, []) := by decide +kernel
/-- V-I10: a share with `x = 0`, with the descriptors of V-I14's layout and a non-zero reserved byte. -/
theorem test_interp : seen (step (running .p11B []
      (table [0x00#8, 0xFF#8, 0x02#8, 0x00#8, 0x00#8, 0x02#8, 0x00#8, 0x00#8,
              0x05#8, 0x00#8, 0x02#8, 0x00#8, 0x02#8, 0x02#8, 0x00#8, 0x00#8] [0x11#8, 0x22#8, 0x33#8, 0x44#8])
      0x00000012#32 0x100#32 0x300#32 2#16)) 0x2FF 4 = some (0x00#8, 0x00#8, [0x00#8, 0x11#8, 0x22#8, 0x00#8]) := by
  decide +kernel
/-- V-I9, first position: two shares of a threshold-3 secret with a zero leading coefficient. -/
theorem test_interp_two : seen (step (running .p11B []
      (table [0x01#8, 0x00#8, 0x01#8, 0x00#8, 0x00#8, 0x02#8, 0x00#8, 0x00#8,
              0x02#8, 0x00#8, 0x01#8, 0x00#8, 0x01#8, 0x02#8, 0x00#8, 0x00#8] [0xA4#8, 0x50#8])
      0x00000012#32 0x100#32 0x300#32 2#16)) 0x300 1 = some (0x00#8, 0x00#8, [0x01#8]) := by
  decide +kernel

/-! ## Errors that the platform decides -/

/-- V-X14, V-X15 and V-X16: bus errors. -/
theorem test_busError :
    (seen (step (running .p11B [⟨⟨0x1000, 1⟩, .noRead⟩] [] 0x00010210#32 0x1000#32 0#32 0#16)) 0 0 =
      some (0x09#8, 0x00#8, [])) ∧
    (seen (step (running .p11B [⟨⟨0x100, 1⟩, .noRead⟩] [] 0x00000012#32 0x100#32 0#32 1#16)) 0 0 =
      some (0x09#8, 0x00#8, [])) := by decide +kernel

/-- R70: an access mapped to the register window has no defined effect; R9: where the byte answers with a bus error, no
access takes place. -/
theorem test_window : step (running .p11B [⟨⟨0x1000, 64⟩, .window⟩] [] 0x00010210#32 0x103F#32 0#32 0#16) =
      .fault .windowThroughMemoryPort ∧
    seen (step (running .p11B [⟨⟨0x1000, 64⟩, .window⟩, ⟨⟨0x103F, 1⟩, .noRead⟩] [] 0x00010210#32 0x103F#32 0#32 0#16)) 0 0 =
      some (0x09#8, 0x00#8, []) := by
  refine ⟨rfl, ?_⟩
  decide +kernel

/-- R85: an output onto an input byte is any value although the command ends with PARAM; with the ranges apart, PARAM leaves
it. -/
theorem test_overlap_early : (match step (running .p11B [] (mem1000 [0x01#8]) 0x00010011#32 0x1000#32 0x1000#32 1#16) with
      | .next t => some (t.err, t.mem)
      | _ => none) = some (0x01#8, Memory.write (mem1000 [0x01#8]) 0x1000 (Config.freeByte 0 0x1000)) ∧
    seen (step (running .p11B [] (mem1000 [0x01#8]) 0x00010011#32 0x0FFF#32 0x1000#32 1#16)) 0x1000 1 =
      some (0x01#8, 0x00#8, [0x01#8]) := by
  refine ⟨rfl, ?_⟩
  decide +kernel

/-! ## The register window -/

/-- What a register read is answered with. -/
def answer (o : Host.Outcome State Fault Refusal) : Option Reply :=
  match o with
  | .next t => t.replies.head?
  | .fault _ => none
  | .refused _ => none

/-- V-R1. -/
theorem test_registers_read :
    ([0x00, 0x08, 0x0C, 0x10, 0x18, 0x1C, 0x04, 0x14, 0x28].map fun off =>
      answer (step (facing (.host (.regRead (0x40000000 + off) .word))))) =
    [some (.reg 0x47460001#32), some (.reg 0x0000011B#32), some (.reg 0x00000003#32), some (.reg 0#32), some (.reg 0#32),
     some (.reg 0#32), some (.reg 0#32), some (.reg 0#32), some (.reg 0#32)] := by decide +kernel

/-- R38: `BUSY`, `OVR` and `ERR` in `STATUS` (Program 1 reads `0x00000500`). -/
theorem test_status : State.statusWord { State.reset with err := 0x05#8 } = 0x00000500#32 ∧
    State.statusWord { State.reset with busy := true, ovr := true, err := 0x09#8 } = 0x00000903#32 := by decide

/-- V-R2. -/
theorem test_argN_write : (match step (facing (.host (.regWrite 0x40000024 .word 0xFFFFFFFF#32))) with
    | .next t => t.regRead .argN
    | _ => 0#32) = 0x0000FFFF#32 := by decide +kernel

/-- V-R6: a soft reset. -/
theorem test_softReset : (match step ({ facing (.host (.regWrite 0x40000004 .word 0x1#32)) with
      err := 0x05#8, ovr := true, result := 0xCA#8, argA := 0x1000#32 }) with
    | .next t => t == { State.resetOf .p11B { regBase := 0x40000000, regions := [] } with inputs := [] }
    | _ => false) = true := by decide +kernel

/-- R39: issue latches the fields of the word and the arguments. -/
theorem test_issue : (match step ({ facing (.host (.regWrite 0x40000014 .word 0x00030211#32)) with
      argA := 0x1000#32, argB := 0x2000#32, argN := 3#16 }) with
    | .next t => t.busy && t.lc == ⟨0x11#8, 0x02#8, 0x03#8, 0x00#8, 0x1000#32, 0x2000#32, 3#16⟩
    | _ => false) = true := by decide +kernel

/-- `withFetchWord` makes the very next step run the word (V-F1). -/
theorem test_withFetchWord : seen (step (State.reset.withFetchWord 32 0x00CA5301)) 0 0 = some (0x00#8, 0x99#8, []) := by
  decide +kernel

/-! ## Memory -/

theorem test_memory : Memory.wf (mem1000 [0x01#8, 0x00#8, 0x03#8]) = true ∧
    mem1000 [0x01#8, 0x00#8, 0x03#8] = [(0x1000, 0x01#8), (0x1002, 0x03#8)] ∧
    Memory.write (mem1000 [0x01#8]) 0x1000 0x00#8 = [] := by decide

/-! ## Witnesses

For every statement that has hypotheses, a state and operands that meet all of them, a clause at a time. -/

theorem plain_everywhere {pl : Platform} (h : pl.regions = []) (d : Dir) (r : ByteRange) : pl.Plain d r := by
  intro a _
  cases d <;> simp [Platform.memOk, Platform.isDevice, Platform.isWindow, Platform.inKind, h]

/-- No byte of the range is mapped to the register window. -/
def unmapped (pl : Platform) (r : ByteRange) : Bool := r.addrs.all (fun a => !pl.isWindow a)

theorem unmapped_isWindow {pl : Platform} {r : ByteRange} (h : unmapped pl r = true) (a : Nat) (ha : r.Holds a) :
    pl.isWindow a = false := by
  simpa using List.all_eq_true.1 h a ((ByteRange.mem_addrs r a).2 ha)

theorem plain_of_checks {pl : Platform} {d : Dir} {r : ByteRange}
    (h : (pl.allOk d [r] && !pl.anyDevice [r] && unmapped pl r) = true) : pl.Plain d r := by
  simp only [Bool.and_eq_true, Bool.not_eq_true'] at h
  intro a ha
  exact ⟨(pl.allOk_iff _ _).1 h.1.1 r (by simp) a ha, (pl.anyDevice_false_iff _).1 h.1.2 r (by simp) a ha,
    unmapped_isWindow h.2 a ha⟩

theorem okNoWindow_of_checks {pl : Platform} {d : Dir} {r : ByteRange}
    (h : (pl.allOk d [r] && unmapped pl r) = true) (a : Nat) (ha : r.Holds a) :
    pl.memOk a d = true ∧ pl.isWindow a = false := by
  simp only [Bool.and_eq_true] at h
  exact ⟨(pl.allOk_iff _ _).1 h.1 r (by simp) a ha, unmapped_isWindow h.2 a ha⟩

theorem noWindow_of_check {pl : Platform} {d : Dir} {r : ByteRange} (h : pl.anyWindow d [r] = false) : pl.NoWindow d r :=
  (pl.anyWindow_false_iff d _).1 h r (by simp)

theorem reaches_of_check {pl : Platform} {d : Dir} {r : ByteRange} (h : pl.anyWindow d [r] = true) :
    pl.ReachesWindow d r := by
  obtain ⟨q, hq, hw⟩ := (pl.anyWindow_iff d _).1 h
  rw [List.mem_singleton] at hq
  exact hq ▸ hw

theorem holds_of_check {r : ByteRange} {a : Nat} (h : r.covers a = true) : r.Holds a := (ByteRange.covers_iff r a).1 h

theorem apart_of_check {r q : ByteRange} (h : r.meets q = false) : r.Apart q := fun a ha => by
  have := (ByteRange.meets_iff r q).2 ⟨a, ha⟩
  rw [h] at this
  cases this

theorem not_apart_of_check {r q : ByteRange} (h : r.meets q = true) : ¬ r.Apart q := by
  obtain ⟨a, ha⟩ := (ByteRange.meets_iff r q).1 h
  exact fun hn => hn a ha

/-- The state of V-I10: two shares of two bytes, the first with `x = 0`, on a platform with the given regions and the
output at `dst`. -/
def shares (regions : List Region) (dst : Word) : State :=
  running .p11B regions
    (table [0x00#8, 0x00#8, 0x02#8, 0x00#8, 0x00#8, 0x02#8, 0x00#8, 0x00#8,
            0x05#8, 0x00#8, 0x02#8, 0x00#8, 0x02#8, 0x02#8, 0x00#8, 0x00#8] [0x11#8, 0x22#8, 0x33#8, 0x44#8])
    0x00000012#32 0x100#32 dst 2#16

theorem lt_two {i : Nat} (h : i < 2) : i = 0 ∨ i = 1 := by omega

/-- What the memory of `shares` holds, whatever the regions and the output. -/
theorem shares_checked : Memory.wf (shares [] 0#32).mem = true ∧ (shares [] 0#32).shareLen 1 = (shares [] 0#32).shareLen 0 ∧
    (shares [] 0#32).shareX 0 ≠ (shares [] 0#32).shareX 1 ∧ (shares [] 0#32).shareLen 0 = 2 ∧
    (shares [] 0#32).shareAddr 0 = 0x200 ∧ (shares [] 0#32).shareAddr 1 = 0x202 := by decide +kernel

/-- The table of `shares` passes every check up to the ranges. -/
theorem shares_table (regions : List Region) (dst : Word)
    (h : ((shares regions dst).platform.allOk .read [(shares regions dst).shareTable] &&
      !(shares regions dst).platform.anyDevice [(shares regions dst).shareTable] &&
      unmapped (shares regions dst).platform (shares regions dst).shareTable) = true) :
    Memory.wf (shares regions dst).mem = true ∧ (shares regions dst).TableReadable ∧ (shares regions dst).LengthsAgree ∧
      (shares regions dst).XsDistinct := by
  refine ⟨shares_checked.1, ⟨by simp [State.shareCount, shares, running], by
    simp [State.shareCount, shares, running, memSize], plain_of_checks h⟩, fun i hi => ?_, fun i j hij hj => ?_⟩
  · rcases lt_two hi with rfl | rfl
    · rfl
    · exact shares_checked.2.1
  · obtain ⟨rfl, rfl⟩ : i = 0 ∧ j = 1 := by
      have := lt_two hj
      omega
    exact shares_checked.2.2.1

theorem shares_ranges (regions : List Region) (dst : Word) (hd : dst.toNat + 2 ≤ memSize) :
    (shares regions dst).ShareRangesValid := by
  obtain ⟨-, -, -, h2, h0, h1⟩ := shares_checked
  refine ⟨fun i hi => ?_, ?_⟩
  · rcases lt_two hi with rfl | rfl
    · show (shares [] 0#32).shareAddr 0 + (shares [] 0#32).shareLen 0 ≤ memSize
      rw [h0, h2]
      decide
    · show (shares [] 0#32).shareAddr 1 + (shares [] 0#32).shareLen 0 ≤ memSize
      rw [h1, h2]
      decide
  · show dst.toNat + (shares [] 0#32).shareLen 0 ≤ memSize
    rw [h2]
    exact hd

/-- DecodeOfEncode, EncodeOfDecode: the largest integer operand. -/
theorem witness_encoding : (Instr.pow 0x00#8 255).wf = true ∧ decodeWord 0x00FF0005#32 = .ok (.pow 0x00#8 255) ∧
    ([] : List Byte).length ≠ 4 := by decide

/-- IllegalWordsCompleteWithIllegal, and every statement about the core's move: both ways the core can be next. -/
theorem witness_core_moves : ∃ s s' : State, s.busy = true ∧ s.spoiled = [] ∧ s.CoreMoves s' ∧
    s.lc.decode = .error .reservedOpcode :=
  ⟨running .p11B [] [] 0#32 0#32 0#32 0#16, _, rfl, rfl, .inr ⟨[], rfl, rfl⟩, rfl⟩

theorem witness_core_moves_unnamed : ∃ s s' : State, s.busy = true ∧ s.spoiled = [] ∧ s.CoreMoves s' ∧
    s.lc.decode = .error .reservedOpcode :=
  ⟨{ running .p11B [] [] 0#32 0#32 0#32 0#16 with inputs := [] }, _, rfl, rfl, .inl ⟨rfl, rfl⟩, rfl⟩

/-- Whitelist, Generator, FieldLaws, ProductByTheTables, Inverse, Power, Logarithm, Div, Inv, Log: operands that meet their
premises. -/
theorem witness_field : (256 ≤ 256 ∧ 256 < 512) ∧ (2 ≤ (0x08#8 : Byte).toNat ∧ (0x08#8 : Byte).toNat < (Poly.gen .p17B).toNat) ∧
    (0x53#8 : Byte) ≠ 0x00#8 ∧ gfMul .p11B 0x00#8 0x53#8 = 0x00#8 ∧ gfMul .p11B 0x53#8 0xCA#8 = 0x01#8 ∧ 254 + 1 ≤ 255 ∧
    255 < 256 ∧ gfExp .p11B 1 = Poly.gen .p11B := by decide +kernel

/-- PevalReturnsTheValue: the last byte of the memory space. -/
theorem witness_peval : ∃ (s : State) (k : Nat), k ≠ 0 ∧ s.lc.argA.toNat + k = memSize ∧
    s.platform.Plain .read { base := s.lc.argA.toNat, len := k } :=
  ⟨running .p11B [] [] 0x00010010#32 0xFFFFFFFF#32 0#32 0#16, 1, by decide, by decide, plain_everywhere rfl _ _⟩

/-- PevalErrorsInOrder: the range and bus error clauses at their edges. -/
theorem witness_peval_range : ∃ (s : State) (k : Nat), k ≠ 0 ∧ memSize + 1 = s.lc.argA.toNat + k :=
  ⟨running .p11B [] [] 0x00020010#32 0xFFFFFFFF#32 0#32 0#16, 2, by decide, by decide⟩

theorem witness_peval_bus : ∃ (s : State) (k : Nat), k ≠ 0 ∧ s.lc.argA.toNat + k ≤ memSize ∧
    s.platform.NoWindow .read { base := s.lc.argA.toNat, len := k } ∧ s.platform.isWindow s.lc.argA.toNat = true ∧
    s.platform.SomeBusError .read { base := s.lc.argA.toNat, len := k } :=
  ⟨running .p11B [⟨⟨0x1000, 1⟩, .noRead⟩, ⟨⟨0x1000, 1⟩, .window⟩] [] 0x00010010#32 0x1000#32 0#32 0#16, 1, by decide,
    by decide, noWindow_of_check (by decide +kernel), by decide +kernel, 0x1000, holds_of_check (by decide),
    by decide +kernel⟩

/-- A PEVALV of one row of two coefficients at 0x1000. -/
def oneRow (regions : List Region) (dst : Word) : State :=
  running .p11B regions (mem1000 [0x01#8, 0x02#8]) 0x00020311#32 0x1000#32 dst 1#16

/-- PevalvWritesTheValues: an output just past the input. -/
theorem witness_pevalv : ∃ (s : State) (x : Byte) (k : Nat), Memory.wf s.mem = true ∧ k ≠ 0 ∧ x ≠ 0x00#8 ∧
    s.lc.argA.toNat + s.lc.argN.toNat * k ≤ memSize ∧ s.lc.argB.toNat + s.lc.argN.toNat ≤ memSize ∧
    s.platform.Plain .read { base := s.lc.argA.toNat, len := s.lc.argN.toNat * k } ∧
    s.platform.Plain .write { base := s.lc.argB.toNat, len := s.lc.argN.toNat } ∧
    ByteRange.Apart { base := s.lc.argB.toNat, len := s.lc.argN.toNat }
      { base := s.lc.argA.toNat, len := s.lc.argN.toNat * k } :=
  ⟨oneRow [] 0x1002#32, 0x03#8, 2, by decide, by decide, by decide, by decide, by decide, plain_everywhere rfl _ _,
    plain_everywhere rfl _ _, apart_of_check (by decide)⟩

/-- PevalvErrorsInOrder: either range, and an output range that is open and one that is not. -/
theorem witness_pevalv_errors : ∃ (s u : State) (x : Byte) (k : Nat), Memory.wf s.mem = true ∧ k ≠ 0 ∧ x ≠ 0x00#8 ∧
    memSize < s.lc.argA.toNat + s.lc.argN.toNat * k ∧
    (u.lc.argA.toNat + u.lc.argN.toNat * k ≤ memSize ∧ memSize < u.lc.argB.toNat + u.lc.argN.toNat) ∧
    s.OutputOpen [{ base := s.lc.argA.toNat, len := s.lc.argN.toNat * k }]
      { base := s.lc.argB.toNat, len := s.lc.argN.toNat } ∧
    ¬ u.OutputOpen [{ base := u.lc.argA.toNat, len := u.lc.argN.toNat * k }]
      { base := u.lc.argB.toNat, len := u.lc.argN.toNat } :=
  ⟨running .p11B [] [] 0x00020311#32 0xFFFFFFFF#32 0xFFFFFFFF#32 1#16,
    running .p11B [] [] 0x00020311#32 0#32 0xFFFFFFFF#32 2#16, 0x03#8, 2, by decide, by decide, by decide, by decide,
    by decide, (State.outputIsOpen_iff _ _ _).1 (by decide), (State.outputIsOpen_false_iff _ _ _).1 (by decide)⟩

/-- InterpWritesTheRecoveredBytes and ShareAtZeroIsTheOutput. -/
theorem witness_interp : ∃ s : State, Memory.wf s.mem = true ∧ s.TableReadable ∧ s.LengthsAgree ∧ s.XsDistinct ∧
    s.ShareRangesValid ∧ (∀ i, i < s.shareCount → s.platform.Plain .read (s.shareRange i)) ∧
    s.platform.Plain .write s.shareOutput ∧ s.shareOutput.Apart s.shareTable ∧
    (∀ i, i < s.shareCount → s.shareOutput.Apart (s.shareRange i)) ∧ 0 < s.shareCount ∧ s.shareX 0 = 0x00#8 := by
  obtain ⟨h1, h2, h3, h4⟩ := shares_table [] 0x300#32 (by decide +kernel)
  refine ⟨shares [] 0x300#32, h1, h2, h3, h4, shares_ranges _ _ (by decide), fun _ _ => plain_everywhere rfl _ _,
    plain_everywhere rfl _ _, apart_of_check (by decide +kernel), fun i hi => ?_, by decide, by decide +kernel⟩
  rcases lt_two hi with rfl | rfl <;> exact apart_of_check (by decide +kernel)

/-- InterpErrorsInOrder: no share; a table that ends past the memory space; a table that cannot be read. -/
theorem witness_interp_errors : ∃ s u v : State, s.shareCount = 0 ∧
    (u.shareCount ≠ 0 ∧ memSize + 1 = u.lc.argA.toNat + 8 * u.shareCount) ∧
    (v.shareCount ≠ 0 ∧ v.lc.argA.toNat + 8 * v.shareCount = memSize ∧ v.platform.NoWindow .read v.shareTable ∧
      v.platform.SomeBusError .read v.shareTable) :=
  ⟨running .p11B [] [] 0x00000012#32 0#32 0#32 0#16, running .p11B [] [] 0x00000012#32 0xFFFFFFF9#32 0#32 1#16,
    running .p11B [⟨⟨0xFFFFFFFF, 1⟩, .noRead⟩] [] 0x00000012#32 0xFFFFFFF8#32 0#32 1#16, by decide, ⟨by decide, by decide⟩,
    by decide, by decide, noWindow_of_check (by decide +kernel), 0xFFFFFFFF,
    holds_of_check (by decide +kernel), by decide +kernel⟩

/-- InterpErrorsInOrder: unequal lengths (V-X8); equal x-coordinates (V-X9), with an output range onto the table; an output
range that ends past the memory space (V-X13). -/
theorem witness_interp_malformed : ∃ s : State, Memory.wf s.mem = true ∧ s.TableReadable ∧ ¬ s.LengthsAgree :=
  ⟨running .p11B [] (table [0x01#8, 0x00#8, 0x03#8, 0x00#8, 0x00#8, 0x02#8, 0x00#8, 0x00#8,
      0x02#8, 0x00#8, 0x02#8] []) 0x00000012#32 0x100#32 0x300#32 2#16, by decide +kernel,
    ⟨by decide, by decide, plain_everywhere rfl _ _⟩, fun h => absurd (h 1 (by decide)) (by decide +kernel)⟩

theorem witness_interp_duplicate : ∃ s : State, Memory.wf s.mem = true ∧ s.TableReadable ∧ s.LengthsAgree ∧ ¬ s.XsDistinct ∧
    s.OutputOpen s.shareInputs s.shareOutput := by
  refine ⟨running .p11B [] (table [0x01#8, 0x00#8, 0x03#8, 0x00#8, 0x00#8, 0x02#8, 0x00#8, 0x00#8,
      0x01#8, 0x00#8, 0x03#8] []) 0x00000012#32 0x100#32 0x10F#32 2#16, by decide +kernel,
    ⟨by decide, by decide, plain_everywhere rfl _ _⟩, fun i hi => ?_,
    fun h => absurd (h 0 1 (by decide) (by decide)) (by decide +kernel),
    .inl ⟨_, State.shareTable_mem_inputs _, not_apart_of_check (by decide +kernel)⟩⟩
  rcases lt_two hi with rfl | rfl <;> decide +kernel

theorem witness_interp_range : ∃ s : State, Memory.wf s.mem = true ∧ s.TableReadable ∧ s.LengthsAgree ∧ s.XsDistinct ∧
    ¬ s.ShareRangesValid := by
  obtain ⟨h1, h2, h3, h4⟩ := shares_table [] 0xFFFFFFFF#32 (by decide +kernel)
  exact ⟨shares [] 0xFFFFFFFF#32, h1, h2, h3, h4, fun h => absurd h.2 (by decide +kernel)⟩

/-- InterpRecoversTheSecret: two shares, at `x = 1` and `x = 2`, of a polynomial of two coefficients a position (`0xDE` and
`0x01`, then `0xAD` and `0x00`). -/
theorem witness_recover : ∃ (s : State) (k : Nat) (c : Nat → List Byte), Memory.wf s.mem = true ∧ s.TableReadable ∧
    s.LengthsAgree ∧ s.XsDistinct ∧ s.ShareRangesValid ∧
    (∀ i, i < s.shareCount → s.platform.Plain .read (s.shareRange i)) ∧ s.platform.Plain .write s.shareOutput ∧
    s.shareOutput.Apart s.shareTable ∧ (∀ i, i < s.shareCount → s.shareOutput.Apart (s.shareRange i)) ∧ 1 ≤ k ∧
    k ≤ s.shareCount ∧ k = 2 ∧ (∀ p, (c p).length = k) ∧
    (∀ i p, i < s.shareCount → p < s.shareLen 0 →
      Memory.read s.mem (s.shareAddr i + p) = horner s.poly (s.shareX i) (c p)) := by
  let s : State := running .p11B []
    (table [0x01#8, 0x00#8, 0x02#8, 0x00#8, 0x00#8, 0x02#8, 0x00#8, 0x00#8,
            0x02#8, 0x00#8, 0x02#8, 0x00#8, 0x02#8, 0x02#8, 0x00#8, 0x00#8] [0xDF#8, 0xAD#8, 0xDC#8, 0xAD#8])
    0x00000012#32 0x100#32 0x300#32 2#16
  have h2 : s.shareLen 0 = 2 := by decide +kernel
  refine ⟨s, 2, fun p => if p = 0 then [0xDE#8, 0x01#8] else [0xAD#8, 0x00#8], by decide +kernel,
    ⟨by decide, by decide, plain_everywhere rfl _ _⟩, fun i hi => ?_, fun i j hij hj => ?_,
    ⟨fun i hi => ?_, by decide +kernel⟩, fun _ _ => plain_everywhere rfl _ _, plain_everywhere rfl _ _,
    apart_of_check (by decide +kernel), fun i hi => ?_, by decide, by decide, rfl, fun p => ?_, fun i p hi hp => ?_⟩
  · rcases lt_two hi with rfl | rfl <;> decide +kernel
  · obtain ⟨rfl, rfl⟩ : i = 0 ∧ j = 1 := by
      have := lt_two hj
      omega
    decide +kernel
  · rcases lt_two hi with rfl | rfl <;> decide +kernel
  · rcases lt_two hi with rfl | rfl <;> exact apart_of_check (by decide +kernel)
  · by_cases hp : p = 0 <;> simp [hp]
  · rw [h2] at hp
    rcases lt_two hi with rfl | rfl <;> rcases lt_two hp with rfl | rfl <;> decide +kernel

/-- MoreThan256SharesFail: 257 shares, with equal lengths and not. -/
theorem witness_257 : ∃ s : State, Memory.wf s.mem = true ∧ s.TableReadable ∧ s.shareCount = 257 ∧ s.LengthsAgree := by
  refine ⟨running .p11B [] [] 0x00000012#32 0#32 0#32 257#16, rfl, ⟨by decide, by decide, plain_everywhere rfl _ _⟩, by decide,
    fun i _ => ?_⟩
  rfl

theorem witness_257_malformed : ∃ s : State, Memory.wf s.mem = true ∧ s.TableReadable ∧ s.shareCount = 257 ∧ ¬ s.LengthsAgree :=
  ⟨running .p11B [] [(10, 0x01#8)] 0x00000012#32 0#32 0#32 257#16, by decide, ⟨by decide, by decide, plain_everywhere rfl _ _⟩,
    by decide, fun h => absurd (h 1 (by decide)) (by decide +kernel)⟩

/-- LateBusErrorLeavesTheOutputOpen: PEVALV on a read and on a write (V-X15). -/
theorem witness_late_pevalv : ∃ s u : State,
    (Memory.wf s.mem = true ∧ s.lc.argA.toNat + s.lc.argN.toNat * 2 ≤ memSize ∧
      s.lc.argB.toNat + s.lc.argN.toNat ≤ memSize ∧
      s.platform.NoWindow .read { base := s.lc.argA.toNat, len := s.lc.argN.toNat * 2 } ∧
      s.platform.NoWindow .write { base := s.lc.argB.toNat, len := s.lc.argN.toNat } ∧
      s.platform.SomeBusError .read { base := s.lc.argA.toNat, len := s.lc.argN.toNat * 2 }) ∧
    (Memory.wf u.mem = true ∧ u.lc.argA.toNat + u.lc.argN.toNat * 2 ≤ memSize ∧
      u.lc.argB.toNat + u.lc.argN.toNat ≤ memSize ∧
      u.platform.NoWindow .read { base := u.lc.argA.toNat, len := u.lc.argN.toNat * 2 } ∧
      u.platform.NoWindow .write { base := u.lc.argB.toNat, len := u.lc.argN.toNat } ∧
      u.platform.SomeBusError .write { base := u.lc.argB.toNat, len := u.lc.argN.toNat }) :=
  ⟨oneRow [⟨⟨0x1001, 1⟩, .noRead⟩] 0x2000#32, oneRow [⟨⟨0x2000, 1⟩, .noWrite⟩] 0x2000#32,
    ⟨by decide, by decide, by decide, noWindow_of_check (by decide +kernel), noWindow_of_check (by decide +kernel), 0x1001,
      holds_of_check (by decide), by decide +kernel⟩,
    ⟨by decide, by decide, by decide, noWindow_of_check (by decide +kernel), noWindow_of_check (by decide +kernel), 0x2000,
      holds_of_check (by decide), by decide +kernel⟩⟩

/-- LateBusErrorLeavesTheOutputOpen: INTERP on a read and on a write. -/
theorem witness_late_interp : ∃ s u : State,
    (Memory.wf s.mem = true ∧ s.TableReadable ∧ s.LengthsAgree ∧ s.XsDistinct ∧ s.ShareRangesValid ∧
      (∀ i, i < s.shareCount → s.platform.NoWindow .read (s.shareRange i)) ∧ s.platform.NoWindow .write s.shareOutput ∧
      ∃ i, i < s.shareCount ∧ s.platform.SomeBusError .read (s.shareRange i)) ∧
    (Memory.wf u.mem = true ∧ u.TableReadable ∧ u.LengthsAgree ∧ u.XsDistinct ∧ u.ShareRangesValid ∧
      (∀ i, i < u.shareCount → u.platform.NoWindow .read (u.shareRange i)) ∧ u.platform.NoWindow .write u.shareOutput ∧
      u.platform.SomeBusError .write u.shareOutput) := by
  obtain ⟨h1, h2, h3, h4⟩ := shares_table [⟨⟨0x203, 1⟩, .noRead⟩] 0x300#32 (by decide +kernel)
  obtain ⟨g1, g2, g3, g4⟩ := shares_table [⟨⟨0x301, 1⟩, .noWrite⟩] 0x300#32 (by decide +kernel)
  refine ⟨shares [⟨⟨0x203, 1⟩, .noRead⟩] 0x300#32, shares [⟨⟨0x301, 1⟩, .noWrite⟩] 0x300#32,
    ⟨h1, h2, h3, h4, shares_ranges _ _ (by decide), fun i hi => ?_, noWindow_of_check (by decide +kernel), 1, by decide, 0x203,
      holds_of_check (by decide +kernel), by decide +kernel⟩,
    ⟨g1, g2, g3, g4, shares_ranges _ _ (by decide), fun i hi => ?_, noWindow_of_check (by decide +kernel), 0x301,
      holds_of_check (by decide +kernel), by decide +kernel⟩⟩
  · rcases lt_two hi with rfl | rfl <;> exact noWindow_of_check (by decide +kernel)
  · rcases lt_two hi with rfl | rfl <;> exact noWindow_of_check (by decide +kernel)

/-- OverlapLeavesTheOutputOpen: PEVALV onto its own last coefficient; INTERP onto its table and onto its last y-value. -/
theorem witness_overlap : ∃ s u v : State,
    (Memory.wf s.mem = true ∧ s.platform.Plain .read { base := s.lc.argA.toNat, len := s.lc.argN.toNat * 2 } ∧
      s.platform.Plain .write { base := s.lc.argB.toNat, len := s.lc.argN.toNat } ∧
      ¬ ByteRange.Apart { base := s.lc.argB.toNat, len := s.lc.argN.toNat }
        { base := s.lc.argA.toNat, len := s.lc.argN.toNat * 2 }) ∧
    (u.TableReadable ∧ u.LengthsAgree ∧ u.XsDistinct ∧ u.ShareRangesValid ∧ ¬ u.shareOutput.Apart u.shareTable) ∧
    (v.TableReadable ∧ v.LengthsAgree ∧ v.XsDistinct ∧ v.ShareRangesValid ∧
      ¬ v.shareOutput.Apart (v.shareRange 1)) := by
  obtain ⟨-, h2, h3, h4⟩ := shares_table [] 0x10F#32 (by decide +kernel)
  obtain ⟨-, g2, g3, g4⟩ := shares_table [] 0x203#32 (by decide +kernel)
  exact ⟨oneRow [] 0x1001#32, shares [] 0x10F#32, shares [] 0x203#32,
    ⟨by decide, plain_everywhere rfl _ _, plain_everywhere rfl _ _, not_apart_of_check (by decide)⟩,
    ⟨h2, h3, h4, shares_ranges _ _ (by decide), not_apart_of_check (by decide +kernel)⟩,
    ⟨g2, g3, g4, shares_ranges _ _ (by decide), not_apart_of_check (by decide +kernel)⟩⟩

/-- OverlapLeavesTheOutputOpen, DeviceRangesLeaveTheResultOpen: PEVALV with `x = 0`, onto its own first coefficient and onto a
device. -/
theorem witness_open_early : ∃ s t u v : State,
    (Memory.wf s.mem = true ∧ exec (.pevalv 0x00#8 2) s = .next t ∧ t.err = 0x01#8 ∧
      ∃ r ∈ s.inputsOf (.pevalv 0x00#8 2), ¬ (s.outputOf (.pevalv 0x00#8 2)).Apart r) ∧
    (Memory.wf u.mem = true ∧ exec (.pevalv 0x00#8 2) u = .next v ∧ v.err = 0x01#8 ∧
      ∃ r ∈ u.outputOf (.pevalv 0x00#8 2) :: u.inputsOf (.pevalv 0x00#8 2), u.platform.HasDevice r) :=
  ⟨oneRow [] 0x1000#32, _, oneRow [⟨⟨0x2000, 1⟩, .device⟩] 0x2000#32, _,
    ⟨by decide, rfl, rfl, _, .head _, not_apart_of_check (by decide)⟩,
    ⟨by decide, rfl, rfl, _, .head _, 0x2000, holds_of_check (by decide), by decide +kernel⟩⟩

/-- DeviceRangesLeaveTheResultOpen: a device as the last byte of PEVAL's and PEVALV's input, and as INTERP's last output
byte. -/
theorem witness_device : ∃ s v : State,
    ((∀ a, s.lc.argA.toNat ≤ a → a < s.lc.argA.toNat + s.lc.argN.toNat * 2 →
        s.platform.memOk a .read = true ∧ s.platform.isWindow a = false) ∧
      (∀ a, s.lc.argB.toNat ≤ a → a < s.lc.argB.toNat + s.lc.argN.toNat →
        s.platform.memOk a .write = true ∧ s.platform.isWindow a = false) ∧
      ∃ a, s.lc.argA.toNat ≤ a ∧ a < s.lc.argA.toNat + s.lc.argN.toNat * 2 ∧ s.platform.isDevice a = true) ∧
    (v.TableReadable ∧ v.LengthsAgree ∧ v.XsDistinct ∧ v.ShareRangesValid ∧
      (∀ i a, i < v.shareCount → (v.shareRange i).Holds a →
        v.platform.memOk a .read = true ∧ v.platform.isWindow a = false) ∧
      (∀ a, v.shareOutput.Holds a → v.platform.memOk a .write = true ∧ v.platform.isWindow a = false) ∧
      ∃ a, v.shareOutput.Holds a ∧ v.platform.isDevice a = true) := by
  obtain ⟨-, h2, h3, h4⟩ := shares_table [⟨⟨0x301, 1⟩, .device⟩] 0x300#32 (by decide +kernel)
  refine ⟨oneRow [⟨⟨0x1001, 1⟩, .device⟩] 0x2000#32, shares [⟨⟨0x301, 1⟩, .device⟩] 0x300#32,
    ⟨fun a h1 h2 => ?_, fun a h1 h2 => ?_, 0x1001, by decide, by decide, by decide +kernel⟩,
    ⟨h2, h3, h4, shares_ranges _ _ (by decide), fun i a hi ha => ?_, fun a ha => ?_, 0x301,
      holds_of_check (by decide +kernel), by decide +kernel⟩⟩
  · exact okNoWindow_of_checks (r := ⟨0x1000, 2⟩) (by decide +kernel) a ⟨h1, h2⟩
  · exact okNoWindow_of_checks (r := ⟨0x2000, 1⟩) (by decide +kernel) a ⟨h1, h2⟩
  · rcases lt_two hi with rfl | rfl <;> exact okNoWindow_of_checks (by decide +kernel) a ha
  · exact okNoWindow_of_checks (by decide +kernel) a ha

/-- EveryCommandKeepsItsFrame, CommandsReportOnlyTheirErrors, CommandsDependOnlyOnTheirInputs, CommandsRunOnLatchedArguments:
a command that completes, and one that stops. -/
theorem witness_next : ∃ s t u : State, Memory.wf s.mem = true ∧ exec (.pevalv 0x03#8 2) s = .next t ∧
    exec (.peval 0x03#8 1) u = .fault .windowThroughMemoryPort :=
  ⟨oneRow [] 0x2000#32, _, running .p11B [⟨⟨0x1000, 1⟩, .window⟩] [] 0x00010310#32 0x1000#32 0#32 0#16, by decide, rfl, rfl⟩

/-- EarlyErrorsArePrecise: an early error, and a bus error of the table. -/
theorem witness_early : ∃ s t u v : State, Memory.wf s.mem = true ∧ exec (.pevalv 0x00#8 2) s = .next t ∧ t.err ≠ 0x00#8 ∧
    t.err ≠ 0x09#8 ∧ Memory.wf u.mem = true ∧ exec .interp u = .next v ∧ v.err ≠ 0x00#8 ∧
    u.platform.SomeBusError .read u.shareTable := by
  refine ⟨oneRow [] 0x2000#32, _, running .p11B [⟨⟨0x100, 1⟩, .noRead⟩] [] 0x00000012#32 0x100#32 0#32 1#16, _, by decide,
    rfl, ?_, ?_, rfl, rfl, ?_, 0x100, holds_of_check (by decide), by decide +kernel⟩ <;> decide

/-- OnlyTheWindowStopsACommand, EveryRunningCommandCompletes: a window mapped just past the ranges; and one under PEVAL's last
byte and under PEVALV's output. -/
theorem witness_window :
    (∃ s s' : State, s.busy = true ∧ s.CoreMoves s' ∧ s.platform.isWindow 0x2001 = true ∧
      (∀ r ∈ s.latchedInputs, s.platform.NoWindow .read r) ∧ s.platform.NoWindow .write s.latchedOutput) ∧
    (∃ (s : State) (k : Nat), k ≠ 0 ∧ s.lc.argA.toNat + k ≤ memSize ∧
      s.platform.ReachesWindow .read { base := s.lc.argA.toNat, len := k }) ∧
    ∃ s : State, s.lc.argA.toNat + s.lc.argN.toNat * 2 ≤ memSize ∧ s.lc.argB.toNat + s.lc.argN.toNat ≤ memSize ∧
      s.platform.ReachesWindow .write { base := s.lc.argB.toNat, len := s.lc.argN.toNat } :=
  ⟨⟨oneRow [⟨⟨0x2001, 64⟩, .window⟩] 0x2000#32, _, rfl, .inr ⟨[], rfl, rfl⟩, by decide +kernel,
      ByteRange.forall_one (r := ⟨0x1000, 2⟩) (noWindow_of_check (by decide +kernel)), noWindow_of_check (by decide +kernel)⟩,
    ⟨running .p11B [⟨⟨0x1001, 1⟩, .window⟩] [] 0#32 0x1000#32 0#32 0#16, 2, by decide, by decide,
      reaches_of_check (by decide +kernel)⟩,
    ⟨oneRow [⟨⟨0x2000, 64⟩, .window⟩] 0x2000#32, by decide, by decide, reaches_of_check (by decide +kernel)⟩⟩

/-- StepRunsTheDecodedCommand: a kept and a broken host duty. -/
theorem witness_step : ∃ (s s' u u' : State) (i : Instr), (s.busy = true ∧ s.lc.decode = .ok i ∧ s.CoreMoves s' ∧
      s.spoiled = []) ∧ (u.busy = true ∧ u.lc.decode = .ok i ∧ u.CoreMoves u' ∧ u.spoiled ≠ []) :=
  ⟨oneRow [] 0x2000#32, _, { oneRow [] 0x2000#32 with spoiled := [⟨0x2000, 1⟩] }, _, .pevalv 0x03#8 2,
    ⟨rfl, rfl, .inr ⟨[], rfl, rfl⟩, rfl⟩, ⟨rfl, rfl, .inr ⟨[], rfl, rfl⟩, List.cons_ne_nil _ _⟩⟩

/-- IdleCoreDoesNothing, ResultAndErrChangeOnlyAtCompletion, PolynomialAndTablesNeverChange, EveryStepKeepsTheInvariant: an
idle core that is not reset and moves. -/
theorem witness_idle : ∃ s s' t : State, s.busy = false ∧ s.CoreMoves s' ∧ step s = .next t ∧ s.Inv ∧
    (∀ rest, ¬ s.NextIsReset rest) := by
  refine ⟨facing .core, _, _, rfl, .inr ⟨[], rfl, rfl⟩, rfl, ⟨rfl, by decide, fun _ => ⟨rfl, rfl⟩, fun _ => rfl⟩, ?_⟩
  rintro rest (h | ⟨v, -, -, -, -, -, h⟩) <;> cases h

/-- ResultAndErrChangeOnlyAtCompletion, OverrunRisesOnlyByALostCommand, CommandWriteIssuesOrSetsOverrun: a `CMD` write while
busy. -/
theorem witness_overrun : ∃ (s t : State) (w : Word), s.NextIsRegWrite 0x14 w [] ∧ s.busy = true ∧ s.ovr = false ∧
    step s = .next t ∧ t.ovr = true ∧ t.busy = true :=
  ⟨{ oneRow [] 0x2000#32 with inputs := [.host (.regWrite (0x40000000 + 0x14) .word 0#32)] }, _, 0#32,
    ⟨by decide, by decide, by decide, rfl, rfl⟩, rfl, rfl, rfl, rfl, rfl⟩

/-- CoreWritesOnlyItsOutputRange: a byte that a host changes. -/
theorem witness_written : ∃ s t : State, Memory.wf s.mem = true ∧ step s = .next t ∧
    Memory.read t.mem 0xFFFFFFFF ≠ Memory.read s.mem 0xFFFFFFFF := by
  refine ⟨facing (.host (.memWrite 0xFFFFFFFF#32 0x01#8)), _, rfl, rfl, ?_⟩
  decide +kernel

/-- The statements about the register window: a read and a write at the first and the last offset, and the offsets they
name. -/
theorem witness_registers : ∀ off ∈ [0x00, 0x04, 0x08, 0x0C, 0x10, 0x14, 0x18, 0x1C, 0x20, 0x24, 0x28, 0x2C, 0x30, 0x34, 0x38,
    0x3C], ∃ s u : State, s.NextIsRegRead off [] ∧ u.NextIsRegWrite off 0#32 [] := by
  intro off h
  have h2 : off < 64 ∧ off % 4 = 0 := by
    revert h
    revert off
    decide
  have h4 : (0x40000000 : Nat) % 4 = 0 := by decide
  exact ⟨facing (.host (.regRead (0x40000000 + off) .word)), facing (.host (.regWrite (0x40000000 + off) .word 0#32)),
    ⟨h2.1, h2.2, h4, rfl, rfl⟩, ⟨h2.1, h2.2, h4, rfl, rfl⟩⟩

/-- ControlRegisterPulses: values of each clause. -/
theorem witness_control : (0xFFFFFFFF#32 : Word).toNat % 2 = 1 ∧ (0xFFFFFFFE#32 : Word).toNat % 4 = 2 ∧
    (0xFFFFFFFC#32 : Word).toNat % 4 = 0 := by decide

/-- UndefinedRegisterAccessesAreRefused: the first and the last address of the window, in reset and out of it. -/
theorem witness_refused : ∃ s u : State,
    (s.platform.regBase ≤ 0x40000000 ∧ s.inputs = .host (.regRead 0x40000000 .word) :: [] ∧ s.inReset = true) ∧
    (u.platform.regBase ≤ 0x4000003F ∧ 0x4000003F < u.platform.regBase + 64 ∧
      u.inputs = .host (.regWrite 0x4000003F .word 0#32) :: [] ∧ u.inReset = false ∧ 0x4000003F % 4 ≠ 0) :=
  ⟨{ facing (.host (.regRead 0x40000000 .word)) with inReset := true }, facing (.host (.regWrite 0x4000003F .word 0#32)),
    ⟨by decide, rfl, rfl⟩, ⟨by decide, by decide, rfl, rfl, by decide⟩⟩

/-- ResetEffect, ResetWhileRunningLeavesTheOutputOpen, ReleasedResetLeavesTheResetState: both resets, of a running core
(V-R7). -/
theorem witness_reset : ∃ s u v : State, (Memory.wf s.mem = true ∧ s.busy = true ∧ s.NextIsReset []) ∧
    (u.busy = true ∧ u.NextIsReset []) ∧ v.inputs = .resetAssert :: .resetRelease :: [] :=
  ⟨{ oneRow [] 0x2000#32 with inputs := [.host (.regWrite (0x40000000 + 0x04) .word 0x1#32)] },
    { oneRow [] 0x2000#32 with inputs := [.resetAssert] },
    { oneRow [] 0x2000#32 with inputs := [.resetAssert, .resetRelease] },
    ⟨by decide, rfl, .inr ⟨0x1#32, by decide, by decide, by decide, by decide, rfl, rfl⟩⟩, ⟨rfl, .inl rfl⟩, rfl⟩

/-- HostAccessToARunningCommand: a write to the last input byte and one just past it; a read of the output byte, and of a byte
of an earlier output range; a harmless read just past the output; a spoiled completion; and one of a PEVAL. -/
theorem witness_host : ∃ s u v w x t y z : State,
    (s.busy = true ∧ s.platform.isWindow 0x1001 = false ∧ s.inputs = .host (.memWrite 0x1001#32 0x00#8) :: [] ∧
      ∃ r ∈ s.latchedOutput :: s.latchedInputs, r.Holds 0x1001) ∧
    (∀ r ∈ s.latchedOutput :: s.latchedInputs, ¬ r.Holds 0x1002) ∧
    (u.busy = true ∧ u.inputs = .host (.memRead 0x2000#32) :: [] ∧ u.latchedOutput.Holds 0x2000) ∧
    (v.busy = true ∧ v.inputs = .host (.memRead 0x3000#32) :: [] ∧ ¬ v.latchedOutput.Holds 0x3000 ∧
      ∃ r ∈ v.spoiled, r.Holds 0x3000) ∧
    (w.platform.isDevice 0x2001 = false ∧ w.inputs = .host (.memRead 0x2001#32) :: [] ∧
      ∀ r ∈ w.latchedOutput :: w.spoiled, ¬ r.Holds 0x2001) ∧
    (Memory.wf x.mem = true ∧ x.busy = true ∧ x.spoiled ≠ [] ∧ x.inputs = [] ∧ step x = .next t) ∧
    (y.busy = true ∧ y.spoiled ≠ [] ∧ y.lc.decode = .ok (.peval 0x02#8 1) ∧ step y = .next z ∧ z.err = 0x00#8) := by
  refine ⟨{ oneRow [] 0x2000#32 with inputs := [.host (.memWrite 0x1001#32 0x00#8)] },
    { oneRow [] 0x2000#32 with inputs := [.host (.memRead 0x2000#32)] },
    { oneRow [] 0x2000#32 with inputs := [.host (.memRead 0x3000#32)], spoiled := [⟨0x3000, 1⟩] },
    { oneRow [] 0x2000#32 with inputs := [.host (.memRead 0x2001#32)] },
    { oneRow [] 0x2000#32 with inputs := [], spoiled := [⟨0x2000, 1⟩] }, _,
    { running .p11B [] [] 0x00010210#32 0x1000#32 0#32 0#16 with spoiled := [⟨0, 0⟩] }, _,
    ⟨rfl, rfl, rfl, ⟨0x1000, 2⟩, .tail _ (.head _), holds_of_check (by decide)⟩, ?_,
    ⟨rfl, rfl, holds_of_check (by decide)⟩,
    ⟨rfl, rfl, fun h => absurd h.2 (by decide), ⟨0x3000, 1⟩, .head _, holds_of_check (by decide)⟩, ⟨rfl, rfl, ?_⟩,
    ⟨by decide, rfl, List.cons_ne_nil _ _, rfl, rfl⟩, ⟨rfl, List.cons_ne_nil _ _, rfl, rfl, rfl⟩⟩
  · intro r hr hh
    have : (({ oneRow [] 0x2000#32 with inputs := [] } : State).latchedOutput :: (oneRow [] 0x2000#32).latchedInputs) =
        [⟨0x2000, 1⟩, ⟨0x1000, 2⟩] := by decide
    have hr' : r ∈ [(⟨0x2000, 1⟩ : ByteRange), ⟨0x1000, 2⟩] := this ▸ hr
    simp only [List.mem_cons, List.not_mem_nil, or_false] at hr'
    rcases hr' with rfl | rfl <;> simp [ByteRange.Holds] at hh
  · exact ByteRange.forall_one (P := fun r => ¬ r.Holds 0x2001) (r := ⟨0x2000, 1⟩) fun h => absurd h.2 (by decide)

end Sys2Proof.Tests
end

/-! ## Long division of polynomials over GF(2), and the irreducible polynomials of degree 8 (R46) -/

namespace Sys2Proof

/-- The product of `a` and the `n` low bits of `b`. -/
def polyMulUpTo (a b : Nat) : Nat → Nat
  | 0 => 0
  | n + 1 => if b.testBit n then polyMulUpTo a b n ^^^ (a <<< n) else polyMulUpTo a b n

/-- The loop of `polyMul` runs over 16 bits; those that a byte has suffice. -/
theorem polyMul_eq_upTo (a : Nat) {b : Nat} (hb : b < 256) : polyMul a b = polyMulUpTo a b 8 := by
  have hzero : ∀ n, 8 ≤ n → b.testBit n = false := fun n hn =>
    Nat.testBit_lt_two_pow (hb.trans_le (Nat.pow_le_pow_right (n := 2) (by decide) hn))
  show polyMulUpTo a b 16 = _
  simp [polyMulUpTo, hzero]

/-- The first `n` bits of `b` contribute degree less than `n` to the degree of `a`. -/
theorem polyMulUpTo_lt {a i : Nat} (b : Nat) (ha : a < 2 ^ (i + 1)) : ∀ n, polyMulUpTo a b n < 2 ^ (i + n)
  | 0 => Nat.two_pow_pos _
  | n + 1 => by
    have ih := polyMulUpTo_lt b ha n
    have hle : 2 ^ (i + n) ≤ 2 ^ (i + (n + 1)) := Nat.pow_le_pow_right (by decide) (by omega)
    rw [polyMulUpTo]
    split
    · refine Nat.xor_lt_two_pow (ih.trans_le hle) ?_
      rw [Nat.shiftLeft_eq, show i + (n + 1) = (i + 1) + n by omega, Nat.pow_add]
      exact Nat.mul_lt_mul_of_pos_right ha (Nat.two_pow_pos n)
    · exact ih.trans_le hle

/-- Long division by `d`: quotient and remainder of `r`, of degree less than `n` more than the degree of `d`. -/
def polyDivMod (d : Nat) : Nat → Nat → Nat × Nat
  | 0, r => (0, r)
  | n + 1, r =>
    if r.testBit (d.log2 + n) then (polyDivMod d n (r ^^^ (d <<< n))).map (2 ^ n + ·) id else polyDivMod d n r

/-- Long division of a product by its first factor leaves no remainder. -/
theorem polyDivMod_polyMulUpTo {d : Nat} (hd : d ≠ 0) (e : Nat) : ∀ n, (polyDivMod d n (polyMulUpTo d e n)).2 = 0
  | 0 => rfl
  | n + 1 => by
    have ih := polyDivMod_polyMulUpTo hd e n
    have hlow : (polyMulUpTo d e n).testBit (d.log2 + n) = false :=
      Nat.testBit_lt_two_pow (polyMulUpTo_lt e Nat.lt_log2_self n)
    have htop : (d <<< n).testBit (d.log2 + n) = true := by simp [Nat.testBit_shiftLeft, Nat.testBit_log2 hd]
    rw [polyMulUpTo, polyDivMod]
    cases e.testBit n
    · simp [hlow, ih]
    · simp [hlow, htop, ih]

/-- A value of degree 8 that is not in the whitelist has a factor of degree 1 to 4, by which long division leaves no
remainder. -/
theorem exists_factor_of_not_whitelisted : ∀ v < 512, 256 ≤ v → v ∈ Poly.all.map (fun p => p.value.toNat) ∨
    ∃ d < 32, 2 ≤ d ∧ 2 ≤ (polyDivMod d 8 v).1 ∧ (polyDivMod d 8 v).1 < 256 ∧ polyMul d (polyDivMod d 8 v).1 = v := by
  decide +kernel

/-- Long division of a polynomial of the whitelist by one of degree 1 to 7 leaves a remainder. -/
theorem Poly.remainder_ne_zero (p : Poly) : ∀ d < 256, 2 ≤ d → (polyDivMod d 8 p.value.toNat).2 ≠ 0 := by
  cases p <;> decide +kernel

theorem Poly.mem_all (p : Poly) : p ∈ Poly.all := by cases p <;> decide

theorem Poly.exists_value_iff (v : Nat) :
    (∃ p : Poly, p.value.toNat = v) ↔ v ∈ Poly.all.map (fun p => p.value.toNat) := by
  simp [Poly.mem_all]

/-- Settles O6: a product leaves no remainder on long division by its factor, where a polynomial of the whitelist leaves one;
every other value has a factor found by long division. -/
theorem whitelistIsEveryIrreduciblePolynomial : Obligations.WhitelistIsEveryIrreduciblePolynomial := by
  refine ⟨by decide, Poly.mem_all, fun v hlo hhi => ⟨?_, fun hirr => ?_⟩⟩
  · rintro ⟨p, rfl⟩ d e hd hd' - he' h
    refine p.remainder_ne_zero d hd' hd ?_
    rw [← h, polyMul_eq_upTo d he', polyDivMod_polyMulUpTo (by omega)]
  · refine (Poly.exists_value_iff v).2 ((exists_factor_of_not_whitelisted v hhi hlo).resolve_right ?_)
    rintro ⟨d, hd, hd2, hq2, hq, hprod⟩
    exact hirr d _ hd2 (by omega) hq2 hq hprod

end Sys2Proof

/-! ## The generator, the exponentiation table and the logarithm (R47 to R49) -/

namespace Sys2Proof

/-- A power is an iterate of the multiplication by its base. -/
theorem gfPow_eq_iterate (p : Poly) (g : Byte) (n : Nat) : gfPow p g n = (gfMul p · g)^[n] 0x01#8 := by
  induction n with
  | zero => rfl
  | succ n ih => rw [gfPow_succ, ih, Function.iterate_succ_apply']

/-- Once a power is zero, all later ones are. -/
theorem gfPow_add_of_eq_zero {p : Poly} {g : Byte} {i : Nat} (h : gfPow p g i = 0x00#8) (k : Nat) :
    gfPow p g (i + k) = 0x00#8 := by
  induction k with
  | zero => exact h
  | succ k ih => rw [← Nat.add_assoc, gfPow_succ, ih, gfMul_zero_left]

/-- A proper divisor of 255 divides one of its quotients by its prime factors 3, 5 and 17. -/
theorem dvd_of_proper_dvd_255 : ∀ n < 256, n ∣ 255 → n ≠ 255 → n ∣ 85 ∨ n ∣ 51 ∨ n ∣ 15 := by
  decide +kernel

/-- The powers of `GEN` return to 1 at 255, and not at 255 divided by one of its prime factors 3, 5 and 17. -/
theorem gfPow_gen_order (p : Poly) : gfPow p p.gen 255 = 0x01#8 ∧ gfPow p p.gen 85 ≠ 0x01#8 ∧
    gfPow p p.gen 51 ≠ 0x01#8 ∧ gfPow p p.gen 15 ≠ 0x01#8 := by
  cases p <;> decide +kernel

/-- The powers of an element of 2 or more that is below `GEN` return to 1 before 255. -/
theorem gfPow_below_gen (p : Poly) : ∀ g < p.gen.toNat, 2 ≤ g →
    ∃ m ∈ [85, 51, 15], gfPow p (BitVec.ofNat 8 g) m = 0x01#8 := by
  cases p <;> decide +kernel

/-- The powers of `GEN` have the period 255: it divides 255, and no proper divisor of 255 is a period. -/
theorem minimalPeriod_gen (p : Poly) : Function.minimalPeriod (gfMul p · p.gen) 0x01#8 = 255 := by
  obtain ⟨h255, h85, h51, h15⟩ := gfPow_gen_order p
  simp only [gfPow_eq_iterate] at h255 h85 h51 h15
  have hdvd := Function.IsPeriodicPt.minimalPeriod_dvd (f := (gfMul p · p.gen)) h255
  by_contra hne
  rcases dvd_of_proper_dvd_255 _ (Nat.lt_succ_of_le (Nat.le_of_dvd (by decide) hdvd)) hdvd hne with h | h | h
  · exact h85 (Function.isPeriodicPt_iff_minimalPeriod_dvd.2 h)
  · exact h51 (Function.isPeriodicPt_iff_minimalPeriod_dvd.2 h)
  · exact h15 (Function.isPeriodicPt_iff_minimalPeriod_dvd.2 h)

theorem gfExp_255 (p : Poly) : gfExp p 255 = 0x01#8 := (gfPow_gen_order p).1

/-- The entries 0 to 254 of the exponentiation table are distinct. -/
theorem gfExp_inj {p : Poly} {i j : Nat} (hi : i < 255) (hj : j < 255) (h : gfExp p i = gfExp p j) : i = j := by
  rw [gfExp_eq, gfExp_eq, gfPow_eq_iterate, gfPow_eq_iterate] at h
  exact Function.iterate_injOn_Iio_minimalPeriod (by simpa [minimalPeriod_gen] using hi)
    (by simpa [minimalPeriod_gen] using hj) h

/-- The entries 0 to 254 of the exponentiation table are not zero: entry 255 would be zero too. -/
theorem gfExp_ne_zero {p : Poly} {i : Nat} (hi : i < 255) : gfExp p i ≠ 0x00#8 := by
  intro h
  have h255 := gfPow_add_of_eq_zero h (255 - i)
  rw [Nat.add_sub_cancel' hi.le, ← gfExp_eq, gfExp_255] at h255
  exact absurd h255 (by decide)

/-- Every non-zero element stands in the exponentiation table: 255 distinct entries are all 255 of them. -/
theorem exists_gfExp_eq (p : Poly) {a : Byte} (ha : a ≠ 0x00#8) : ∃ i < 255, gfExp p i = a := by
  have hpos : ∀ {b : Byte}, b ≠ 0x00#8 → b.toNat ∈ Finset.Ioo 0 256 := fun {b} hb =>
    Finset.mem_Ioo.2 ⟨Nat.pos_of_ne_zero fun h0 => hb (BitVec.eq_of_toNat_eq h0), b.isLt⟩
  have hsurj := Finset.surjOn_of_injOn_of_card_le (s := Finset.range 255) (t := Finset.Ioo 0 256)
    (fun i => (gfExp p i).toNat) (fun i hi => hpos (gfExp_ne_zero (Finset.mem_range.1 hi)))
    (fun i hi j hj h => gfExp_inj (Finset.mem_range.1 hi) (Finset.mem_range.1 hj) (BitVec.eq_of_toNat_eq h)) (by simp)
  obtain ⟨i, hi, h⟩ := hsurj (hpos ha)
  exact ⟨i, Finset.mem_range.1 hi, BitVec.eq_of_toNat_eq h⟩

/-- The search of `gfLog` finds the index of every non-zero element. -/
theorem gfExp_gfLog (p : Poly) {a : Byte} (ha : a ≠ 0x00#8) : gfLog p a < 255 ∧ gfExp p (gfLog p a) = a := by
  obtain ⟨i, hi, h⟩ := exists_gfExp_eq p ha
  exact (gfLog_spec p a).resolve_left fun ⟨_, hnone⟩ => hnone i hi h

/-- Settles O7: the powers of `GEN` have the period 255, so the first 255 are distinct and none is zero; those of a smaller
element have a shorter period. -/
theorem generatorIsTheSmallestOne : Obligations.GeneratorIsTheSmallestOne := by
  refine ⟨fun p => ⟨by cases p <;> decide, fun i j hij hj h => ?_, fun i hi => gfExp_ne_zero hi, fun g hg2 hg => ?_⟩,
    by decide⟩
  · exact absurd (gfExp_inj (hij.trans hj) hj h) hij.ne
  · obtain ⟨m, hm, h⟩ := gfPow_below_gen p g.toNat hg hg2
    rw [BitVec.ofNat_toNat, BitVec.setWidth_eq] at h
    have hrange : ∀ m ∈ [85, 51, 15], 0 < m ∧ m < 255 := by decide
    exact ⟨0, m, (hrange m hm).1, (hrange m hm).2, h.symm⟩

/-- Settles O13, by the recursion of `gfPow` and the period of the powers of `GEN`. -/
theorem exponentiationTable : Obligations.ExponentiationTable := fun p =>
  ⟨rfl, gfMul_one_left p p.gen, fun _ => rfl, gfExp_255 p⟩

/-- Settles O14: the table's 255 distinct entries are all non-zero elements, so the search of `gfLog` finds each. -/
theorem logarithmTable : Obligations.LogarithmTable := by
  refine ⟨fun p a ha => ?_, fun s => ⟨_, rfl, Machine.State.failed_raise s .zeroLog⟩⟩
  obtain ⟨hlt, hexp⟩ := gfExp_gfLog p ha
  exact ⟨hlt, hexp, fun i hi h => gfExp_inj hi hlt (h.trans hexp.symm)⟩

end Sys2Proof

/-! ## What every step keeps: the polynomial and the platform, and `OVR` but for a lost command -/

namespace Sys2Proof.Machine

/-- A register write changes neither the polynomial nor the platform. -/
theorem State.regWrite_parameters (s : State) (v : Word) (r : Reg) :
    (s.regWrite v r).poly = s.poly ∧ (s.regWrite v r).platform = s.platform := by
  rcases s.regWrite_cases v r with h | ⟨-, h⟩ | ⟨-, h⟩ | h | h | h
  case inr.inl => rcases s.writeCtrl_cases v with ⟨-, hc⟩ | ⟨-, -, hc⟩ | ⟨-, -, hc⟩ <;> simp [h, hc]
  case inr.inr.inl => rcases s.writeCmd_cases v with ⟨-, hc⟩ | ⟨-, hc⟩ <;> simp [h, hc]
  all_goals simp [h]

/-- A register write raises `OVR` only where it is a `CMD` write while a command runs (R38, R39). -/
theorem State.regWrite_ovr {s : State} {v : Word} {r : Reg} (h0 : s.ovr = false) (h1 : (s.regWrite v r).ovr = true) :
    r = .cmd ∧ s.busy = true := by
  rcases s.regWrite_cases v r with h | ⟨-, h⟩ | ⟨hr, h⟩ | h | h | h
  case inr.inl => rcases s.writeCtrl_cases v with ⟨-, hc⟩ | ⟨-, -, hc⟩ | ⟨-, -, hc⟩ <;> simp [h, hc, h0] at h1
  case inr.inr.inl =>
    rcases s.writeCmd_cases v with ⟨hb, -⟩ | ⟨-, hc⟩
    · exact ⟨hr, hb⟩
    · simp [h, hc, h0] at h1
  all_goals simp [h, h0] at h1

/-- A host's access changes neither the polynomial nor the platform. -/
theorem State.hostAccess_parameters {s t : State} {h : HostAccess} (hn : s.hostAccess h = .next t) :
    t.poly = s.poly ∧ t.platform = s.platform := by
  rcases State.hostAccess_next hn with ⟨-, rfl⟩ | ⟨r, rfl⟩ | ⟨a, -, -, -, rfl⟩ | ⟨a, -, rfl⟩ | ⟨a, v, -, rfl⟩ |
    ⟨addr, w, v, r, -, -, rfl⟩
  case inr.inr.inr.inr.inr => exact State.regWrite_parameters _ v r
  all_goals exact ⟨rfl, rfl⟩

/-- A host's access raises `OVR` only where it is a `CMD` write while a command runs (R38, R39). -/
theorem State.hostAccess_ovr {s t : State} {h : HostAccess} (hn : s.hostAccess h = .next t) (h0 : s.ovr = false)
    (h1 : t.ovr = true) : s.busy = true ∧ ∃ v, h = .regWrite (s.platform.regBase + 0x14) .word v := by
  rcases State.hostAccess_next hn with ⟨-, rfl⟩ | ⟨r, rfl⟩ | ⟨a, -, -, -, rfl⟩ | ⟨a, -, rfl⟩ | ⟨a, v, -, rfl⟩ |
    ⟨addr, w, v, r, rfl, hr, rfl⟩
  case inr.inr.inr.inr.inr =>
    obtain ⟨hcmd, hb⟩ := State.regWrite_ovr h0 h1
    obtain ⟨off, rfl, hoff, -, -, rfl, -, rfl⟩ := State.registerAt_ok hr
    rw [Reg.atOffset_cmd hoff hcmd]
    exact ⟨hb, v, rfl⟩
  all_goals simp [h0] at h1

/-- The core's turn changes neither `OVR` nor the parameters. -/
theorem State.coreTurn_kept {s t : State} (h : s.coreTurn = .next t) :
    t.ovr = s.ovr ∧ t.poly = s.poly ∧ t.platform = s.platform := by
  rcases State.coreTurn_frame h with ⟨-, rfl⟩ | ⟨-, hf⟩
  · exact ⟨rfl, rfl, rfl⟩
  · exact ⟨hf.ovr, hf.poly, hf.platform⟩

/-- No step changes the polynomial or the platform. -/
theorem step_parameters {s t : State} (h : step s = .next t) : t.poly = s.poly ∧ t.platform = s.platform := by
  rcases step_next h with ⟨-, h⟩ | ⟨rest, -, h⟩ | ⟨a, rest, -, h⟩ | ⟨rest, -, rfl⟩ | ⟨rest, -, rfl⟩
  · exact (State.coreTurn_kept h).2
  · exact (State.coreTurn_kept h).2
  · exact (State.hostAccess_parameters h :)
  · simp
  · simp

/-- Settles O45, by the agent that moves: only a host's access can raise `OVR`. -/
theorem overrunRisesOnlyByALostCommand : Obligations.OverrunRisesOnlyByALostCommand := by
  intro s t h h0 h1
  rcases step_next h with ⟨-, h⟩ | ⟨rest, -, h⟩ | ⟨a, rest, hin, h⟩ | ⟨rest, -, rfl⟩ | ⟨rest, -, rfl⟩
  · simp [(State.coreTurn_kept h).1, h0] at h1
  · simp [(State.coreTurn_kept h).1, h0] at h1
  · obtain ⟨hb, w, rfl⟩ := State.hostAccess_ovr h h0 h1
    exact ⟨hb, w, rest, hin⟩
  · simp at h1
  · simp [h0] at h1

/-- Settles O47: the tables are functions of the polynomial (log 29), which no step changes. -/
theorem polynomialAndTablesNeverChange : Obligations.PolynomialAndTablesNeverChange := by
  intro s t h
  obtain ⟨hpoly, hplatform⟩ := step_parameters h
  exact ⟨hpoly, hplatform, congrArg gfExp hpoly, congrArg gfLog hpoly⟩

/-! ## The register window (R33 to R45) -/

/-- A 32-bit read at an aligned offset returns what R33 to R45 name for it; only `STATUS` is assembled from bits (R38). -/
theorem State.regRead_atOffset (s : State) {off : Nat} (h1 : off < 64) (h2 : off % 4 = 0) :
    s.regRead (Reg.atOffset off) = s.windowValue off := by
  obtain ⟨k, rfl⟩ : ∃ k, off = 4 * k := ⟨off / 4, by omega⟩
  have hk : k < 16 := by omega
  interval_cases k <;>
    simp [State.windowValue, State.regRead, Reg.atOffset, registerMap, List.lookup, idValue, State.statusWord_eq]

/-- A write to a reserved or read-only register is ignored. -/
theorem State.regWrite_ignored (s : State) (v : Word) {r : Reg}
    (h : r ∈ [Reg.id, .poly, .gen, .status, .result, .reserved]) : s.regWrite v r = s := by
  simp only [List.mem_cons, List.not_mem_nil, or_false] at h
  rcases h with rfl | rfl | rfl | rfl | rfl | rfl <;> rfl

/-- Settles O48, by the value read at each aligned offset. -/
theorem registerReadsReturnTheRegisters : Obligations.RegisterReadsReturnTheRegisters := by
  intro s off rest h
  obtain ⟨hoff, haligned, -, -, -⟩ := id h
  rw [step_regRead h, s.regRead_atOffset hoff haligned]

/-- Settles O49, by the register that each offset holds (R33). -/
theorem reservedAndReadOnlyRegistersIgnoreWrites : Obligations.ReservedAndReadOnlyRegistersIgnoreWrites := by
  refine ⟨fun s off rest hoff h => ?_, fun s off v rest hoff h => ?_⟩
  · have hr : ∀ o ∈ [0x28, 0x2C, 0x30, 0x34, 0x38, 0x3C], Reg.atOffset o = .reserved := by decide
    rw [step_regRead h, hr off hoff]
    rfl
  · have hr : ∀ o ∈ [0x00, 0x08, 0x0C, 0x10, 0x18, 0x28, 0x2C, 0x30, 0x34, 0x38, 0x3C],
        Reg.atOffset o ∈ [Reg.id, .poly, .gen, .status, .result, .reserved] := by decide
    rw [step_regWrite h, State.regWrite_ignored _ v (hr off hoff)]

/-- Settles O50, by the step that a register write is. -/
theorem argumentRegisterWrites : Obligations.ArgumentRegisterWrites := by
  refine fun s v rest => ⟨fun h => step_regWrite h, fun h => step_regWrite h, fun h => ?_⟩
  have hcut : v.setWidth 16 = BitVec.ofNat 16 (v.toNat % 65536) := BitVec.eq_of_toNat_eq (by simp)
  rw [step_regWrite h, ← hcut]
  rfl

/-- Settles O51, by bits 0 and 1 of the value written. -/
theorem controlRegisterPulses : Obligations.ControlRegisterPulses := by
  refine fun s v rest => ⟨fun h => ⟨fun hv => ⟨_, step_softReset h hv, by simp⟩, fun hv => ?_, fun hv => ?_⟩,
    fun h => step_regRead h⟩
  all_goals
    rw [step_regWrite h]
    show Host.Outcome.next (State.writeCtrl v _) = _
    rw [State.writeCtrl, Word.bit0, Word.bit1]
  · rw [show v.toNat % 2 = 0 by omega, show v.toNat / 2 % 2 = 1 by omega]
    rfl
  · rw [show v.toNat % 2 = 0 by omega, show v.toNat / 2 % 2 = 0 by omega]
    rfl

/-- Settles O52, by whether a command runs. -/
theorem commandWriteIssuesOrSetsOverrun : Obligations.CommandWriteIssuesOrSetsOverrun := by
  refine ⟨fun s rest h => step_regRead h, fun s w rest h => ?_⟩
  have hstep : step s = .next (State.writeCmd w { s with inputs := rest }) := step_regWrite h
  refine ⟨fun hb => ⟨s.latch w, ?_, fieldOp_toNat w, fieldA_toNat w, fieldB_toNat w, fieldRsv_toNat w, rfl, rfl, rfl,
    s.latch_decode w⟩, fun hb => ?_⟩
  · rw [hstep, State.writeCmd, hb]
    rfl
  · rw [hstep, State.writeCmd, hb]
    rfl

/-- Settles O57, by the value read at each aligned offset. -/
theorem registersAfterReset : Obligations.RegistersAfterReset := by
  intro p pl
  simp [State.regRead_atOffset, State.windowValue, State.resetOf]

end Sys2Proof.Machine

/-! ## Command bytes, and refused register accesses (R74, R106, R75, R243) -/

namespace Sys2Proof

/-- Settles O5: the fields of the word that four bytes make are the bytes; the decoder has no other case than four. -/
theorem commandBytesAreLittleEndian : Obligations.CommandBytesAreLittleEndian := by
  refine ⟨fun b0 b1 b2 b3 => ?_, fun bs hlen => ?_⟩
  · obtain ⟨h0, h1, h2, h3⟩ := fields_wordOfBytes b0 b1 b2 b3
    rw [decodeBytes, decodeWord, h0, h1, h2, h3]
  · rw [decodeBytes]
    rintro b0 b1 b2 b3 rfl
    exact hlen rfl

end Sys2Proof

namespace Sys2Proof.Machine

/-- A register access is refused where `registerAt` refuses it, read or write. -/
theorem step_registerRefused {s : State} {addr : Nat} {width : AccessWidth} {v : Word} {rest : List Input} {e : Refusal}
    (hin : s.inputs = .host (.regRead addr width) :: rest ∨ s.inputs = .host (.regWrite addr width v) :: rest)
    (h : s.registerAt addr width = .error e) : step s = .refused e := by
  have h' : State.registerAt { s with inputs := rest } addr width = .error e := h
  rcases hin with hin | hin
  · simp only [step, hin, State.hostAccess, State.hostRegRead, h']
  · simp only [step, hin, State.hostAccess, State.hostRegWrite, h']

/-- Settles O53, by the order of the checks at the window: reset, then shape. -/
theorem undefinedRegisterAccessesAreRefused : Obligations.UndefinedRegisterAccessesAreRefused := by
  intro s addr width v rest hlo hhi hin
  have hoff : s.platform.windowOffset addr = some (addr - s.platform.regBase) := by
    simp [Platform.windowOffset, cond_eq_ite, hlo, hhi]
  refine ⟨fun hreset => step_registerRefused hin ?_, fun hreset hbad => step_registerRefused hin ?_⟩
  · simp [State.registerAt, hoff, hreset]
  · have hshape : width ≠ .word ∨ addr % 4 ≠ 0 ∨ (addr - s.platform.regBase) % 4 ≠ 0 := hbad.imp_right .inl
    simp only [State.registerAt, hoff, hreset, Bool.false_eq_true, if_false, if_pos hshape]

end Sys2Proof.Machine

/-! ## Output ranges that an overlap or a device leaves open (R85, R79) -/

namespace Sys2Proof

theorem ByteRange.not_holds_empty (b a : Nat) : ¬ ByteRange.Holds ⟨b, 0⟩ a := by
  simp only [ByteRange.Holds]
  omega

/-- Every access of the range's bytes in the direction `d` completes, in ordinary memory or at a device. -/
def Platform.Completes (pl : Platform) (d : Dir) (r : ByteRange) : Prop :=
  ∀ a, r.Holds a → pl.memOk a d = true ∧ pl.isWindow a = false

theorem Platform.Plain.completes {pl : Platform} {d : Dir} {r : ByteRange} (h : pl.Plain d r) : pl.Completes d r :=
  fun a ha => ⟨(h a ha).1, (h a ha).2.2⟩

theorem Platform.not_reachesWindow {pl : Platform} {d : Dir} {r : ByteRange} (h : pl.NoWindow d r) :
    ¬ pl.ReachesWindow d r := by
  rintro ⟨a, ha, hwin, hok⟩
  rw [h a ha hwin] at hok
  cases hok

namespace Machine

/-- The commands that write memory: PEVALV and INTERP (R173, R193). -/
def WritesMemory (i : Instr) : Prop := (∃ x k, i = .pevalv x k) ∨ i = .interp

/-- Every other command has an empty output range. -/
theorem State.outputOf_of_not_writesMemory (s : State) {i : Instr} (h : ¬ WritesMemory i) : s.outputOf i = ⟨0, 0⟩ := by
  cases i with
  | pevalv x k => exact absurd (.inl ⟨x, k, rfl⟩) h
  | interp => exact absurd (.inr rfl) h
  | _ => rfl

/-- What INTERP does: it ends with an error before its table is read, which leaves it no output range; or it stops at the
window; or it goes on with the checks of its shares. -/
theorem exec_interp_cases (s : State) :
    (s.interpReadsTable = false ∧ ∃ e, exec .interp s = .next (s.raise e)) ∨
    exec .interp s = .fault .windowThroughMemoryPort ∨
    (s.interpReadsTable = true ∧
      exec .interp s = s.afterTable.afterChecks s.interpCheck s.interpRanges s.interpOutput s.interpValues) := by
  simp only [exec, execInterp]
  split
  · rename_i h0
    exact .inl ⟨by simp [State.interpReadsTable, h0], _, rfl⟩
  split
  · rename_i h1
    rw [Bool.not_eq_true'] at h1
    exact .inl ⟨by simp [State.interpReadsTable, h1], _, rfl⟩
  split
  · exact .inr (.inl rfl)
  split
  · rename_i h2
    rw [Bool.not_eq_true'] at h2
    exact .inl ⟨by simp [State.interpReadsTable, h2], _, rfl⟩
  · rename_i h0 h1 _ h2
    rw [Bool.not_eq_true', Bool.not_eq_false] at h1 h2
    exact .inr (.inr ⟨State.interpReadsTable_of h0 h1 h2, rfl⟩)

/-- An error that leaves memory as before leaves an empty output range open. -/
theorem State.Failed.endedOpen {s t : State} {c : Byte} (h : s.Failed t c) {r : ByteRange} (hr : ∀ a, ¬ r.Holds a) :
    s.EndedOpen t c r := by
  obtain ⟨herr, hresult, hmem, hframe⟩ := h
  exact ⟨herr, hresult, fun a _ => by rw [hmem], ⟨0, fun a ha => absurd ha (hr a)⟩, hframe⟩

/-- The reads of the table change the draw counter only, so an end is one from the state before them. -/
theorem State.EndedOpen.of_afterTable {s t : State} {c : Byte} {r : ByteRange} (h : s.afterTable.EndedOpen t c r) :
    s.EndedOpen t c r := by
  rw [State.afterTable_eq] at h
  obtain ⟨herr, hresult, hout, hfree, hframe⟩ := h
  exact ⟨herr, hresult, hout, hfree, { hframe with }⟩

/-- PEVALV and INTERP leave an output range that R85 or R79 opens free, whatever they end with (log 8). -/
theorem exec_endedOpen {i : Instr} {s t : State} (hwf : Memory.wf s.mem = true) (h : exec i s = .next t)
    (hi : WritesMemory i) (ho : s.OutputOpen (s.inputsOf i) (s.outputOf i)) : s.EndedOpen t t.err (s.outputOf i) := by
  rcases hi with ⟨x, k, rfl⟩ | rfl
  · exact State.afterChecks_open hwf ho h
  · rcases exec_interp_cases s with ⟨hread, e, he⟩ | hf | ⟨hread, hc⟩
    · rw [he] at h
      cases h
      simp only [State.outputOf, hread, cond_false]
      exact (State.failed_raise s e).endedOpen (ByteRange.not_holds_empty 0)
    · rw [hf] at h
      cases h
    · rw [hc] at h
      simp only [State.inputsOf, State.outputOf, hread, cond_true] at ho ⊢
      exact (State.afterChecks_open (by simpa using hwf) (by simpa [State.OutputOpen] using ho) h).of_afterTable

/-- PEVALV past its checks succeeds with an open output range where every access completes (R85, R79). -/
theorem exec_pevalv_endedOpen {s : State} {x : Byte} {k : Nat} (hwf : Memory.wf s.mem = true) (hk : k ≠ 0)
    (hx : x ≠ 0x00#8) (h1 : s.lc.argA.toNat + s.lc.argN.toNat * k ≤ memSize)
    (h2 : s.lc.argB.toNat + s.lc.argN.toNat ≤ memSize) (hi : s.platform.Completes .read (s.pevalvInput k)) (ho : s.platform.Completes .write s.pevalvOutput)
    (hopen : s.OutputOpen [s.pevalvInput k] s.pevalvOutput) :
    ∃ t, exec (.pevalv x k) s = .next t ∧ s.EndedOpen t 0x00#8 s.pevalvOutput :=
  ⟨_, (exec_pevalv_checked hk hx h1 h2).trans
    (State.outputPhase_open (ByteRange.forall_one (P := s.platform.Completes .read) hi) ho hopen),
    (State.endedOpen hwf _).2⟩

/-- INTERP over a readable table, past its checks, succeeds with an open output range where every access completes (R85,
R79). -/
theorem exec_interp_endedOpen {s : State} (hwf : Memory.wf s.mem = true) (htable : s.TableReadable) (h1 : s.LengthsAgree)
    (h2 : s.XsDistinct) (h3 : s.ShareRangesValid)
    (hi : ∀ i, i < s.shareCount → s.platform.Completes .read (s.shareRange i))
    (ho : s.platform.Completes .write s.shareOutput) (hopen : s.OutputOpen s.shareInputs s.shareOutput) :
    ∃ t, exec .interp s = .next t ∧ s.EndedOpen t 0x00#8 s.shareOutput :=
  ⟨_, (exec_interp_checked htable h1 h2 h3).trans
    (State.outputPhase_open (State.forall_shareInputs (P := s.platform.Completes .read) htable.plain.completes hi) ho hopen),
    (State.endedOpen hwf _).2⟩

/-- The input and output ranges of INTERP over a readable table are those the table in memory gives (R193). -/
theorem State.interp_ranges_eq {s : State} (h : s.TableReadable) :
    s.inputsOf .interp = s.shareInputs ∧ s.outputOf .interp = s.shareOutput := by
  simp [State.inputsOf, State.outputOf, h.reads, State.interpRanges_eq h, State.interpOutput_eq h]

/-- Settles O33: an overlap opens the output range, which only PEVALV and INTERP have. -/
theorem overlapLeavesTheOutputOpen : Obligations.OverlapLeavesTheOutputOpen := by
  refine ⟨?_, fun s x k => ⟨rfl, rfl, State.interp_ranges_eq⟩, ?_, ?_⟩
  · rintro i s t hwf h hmeet
    have hi : WritesMemory i := by
      by_contra hi
      rw [s.outputOf_of_not_writesMemory hi] at hmeet
      obtain ⟨r, -, hr⟩ := hmeet
      exact hr fun a ha => ByteRange.not_holds_empty 0 a ha.1
    exact exec_endedOpen hwf h hi (.inl hmeet)
  · intro s x k hwf hk hx h1 h2 hi ho hmeet
    exact exec_pevalv_endedOpen hwf hk hx h1 h2 hi.completes ho.completes (.inl ⟨_, List.mem_singleton.2 rfl, hmeet⟩)
  · intro s hwf htable h1 h2 h3 hi ho hmeet
    refine exec_interp_endedOpen hwf htable h1 h2 h3 (fun i hlt => (hi i hlt).completes) ho.completes (.inl ?_)
    rcases hmeet with h | ⟨i, hlt, h⟩
    · exact ⟨_, s.shareTable_mem_inputs, h⟩
    · exact ⟨_, State.shareRange_mem_inputs hlt, h⟩

/-- PEVAL succeeds with a free `RESULT` where its reads complete and one is a device's (R79, log 11). -/
theorem exec_peval_device {s : State} {x : Byte} {k : Nat} (hk : k ≠ 0) (h1 : s.lc.argA.toNat + k ≤ memSize)
    (hi : s.platform.Completes .read (s.pevalInput k)) (hd : s.platform.HasDevice (s.pevalInput k)) :
    exec (.peval x k) s = .next s.freeScalar.complete := by
  have hw := Platform.anyWindow_one (d := .read) (Platform.noWindow_of_unmapped (fun a ha => (hi a ha).2) _)
  have hok := Platform.allOk_one (d := .read) fun a ha => (hi a ha).1
  have hdev : s.platform.anyDevice [s.pevalInput k] = true :=
    (s.platform.anyDevice_iff _).2 ⟨_, List.mem_singleton.2 rfl, hd⟩
  simp [exec, execPeval, hk, ByteRange.valid_of (r := s.pevalInput k) h1, hw, hok, hdev]

/-- Settles O34: a device opens the output range of PEVALV and INTERP, and the result of PEVAL. -/
theorem deviceRangesLeaveTheResultOpen : Obligations.DeviceRangesLeaveTheResultOpen := by
  refine ⟨fun i s t hwf h hi hdev => exec_endedOpen hwf h hi (.inr hdev), ?_, ?_, ?_⟩
  · rintro s x k hk h1 hi ⟨a, hlo, hhi, hdev⟩
    exact ⟨_, exec_peval_device hk h1 (fun a ha => hi a ha.1 ha.2) ⟨a, ⟨hlo, hhi⟩, hdev⟩, rfl, ⟨_, rfl⟩, rfl,
      State.frame_complete rfl⟩
  · rintro s x k hwf hk hx h1 h2 hi ho ⟨a, ha, hdev⟩
    refine exec_pevalv_endedOpen hwf hk hx h1 h2 (fun a ha => hi a ha.1 ha.2) (fun a ha => ho a ha.1 ha.2) (.inr ?_)
    rcases ha with ha | ha
    · exact ⟨s.pevalvInput k, by simp, a, ha, hdev⟩
    · exact ⟨s.pevalvOutput, by simp, a, ha, hdev⟩
  · rintro s hwf htable h1 h2 h3 hi ho ⟨a, ha, hdev⟩
    refine exec_interp_endedOpen hwf htable h1 h2 h3 (fun i hlt a => hi i a hlt) ho (.inr ?_)
    rcases ha with ha | ⟨i, hlt, ha⟩
    · exact ⟨_, List.mem_cons_self, a, ha, hdev⟩
    · exact ⟨_, List.mem_cons_of_mem _ (State.shareRange_mem_inputs hlt), a, ha, hdev⟩

/-! ## The frame and the stops of every command (R78, R70) -/

/-- A command keeps the frame, and memory outside its output range (R78, R210, R211). -/
theorem exec_frame {i : Instr} {s t : State} (hwf : Memory.wf s.mem = true) (h : exec i s = .next t) :
    s.CommandFrame t ∧ s.SameOutside t (s.outputOf i) := by
  obtain ⟨u, vals, hu, hlen, hend, ht⟩ := exec_next h
  have hframe : u = { s with result := u.result, mem := u.mem, draws := u.draws } := by rw [hu]
  have hout : s.SameOutside u (s.outputOf i) := fun a ha => by
    rw [hu]
    refine Memory.read_writeBytes_outside vals hwf hend ?_
    simp only [ByteRange.Holds] at ha
    omega
  rcases ht with rfl | ⟨e, rfl, -⟩
  · exact ⟨State.frame_complete hframe, hout⟩
  · exact ⟨State.frame_raise e hframe, hout⟩

/-- A command with an empty output range leaves memory as it is. -/
theorem exec_mem_of_not_writesMemory {i : Instr} {s t : State} (hi : ¬ WritesMemory i) (h : exec i s = .next t) :
    t.mem = s.mem := by
  obtain ⟨u, vals, hu, hlen, -, ht⟩ := exec_next h
  rw [s.outputOf_of_not_writesMemory hi] at hlen hu
  rw [List.length_eq_zero_iff.1 (Nat.le_zero.1 hlen)] at hu
  have hmem : u.mem = s.mem := by rw [hu]; rfl
  rcases ht with rfl | ⟨e, rfl, -⟩ <;> exact hmem

/-- Settles O35, by what every command can do. -/
theorem everyCommandKeepsItsFrame : Obligations.EveryCommandKeepsItsFrame := by
  intro i s t hwf h
  obtain ⟨hframe, hout⟩ := exec_frame hwf h
  refine ⟨hframe, hout, fun hp hi => exec_mem_of_not_writesMemory ?_ h, ?_, ?_⟩
  · rintro (⟨x, k, rfl⟩ | rfl)
    · exact hp x k rfl
    · exact hi rfl
  · rintro x k rfl
    rfl
  · rintro rfl htable
    exact (State.interp_ranges_eq htable).2

/-- A command that stops has reached the register window (R70). -/
theorem exec_fault {i : Instr} {s : State} {f : Fault} (h : exec i s = .fault f) : f = .windowThroughMemoryPort ∧
    ((∃ r ∈ s.inputsOf i, s.platform.ReachesWindow .read r) ∨ s.platform.ReachesWindow .write (s.outputOf i)) := by
  rcases exec_next_or_window i s with ⟨t, ht⟩ | ⟨hw, hf⟩
  · rw [ht] at h
    cases h
  · rw [hf] at h
    cases h
    exact ⟨rfl, hw⟩

/-- The output phase stops where an access reaches the register window (R70, log 13). -/
theorem State.outputPhase_window {ins : List ByteRange} {out : ByteRange} {vals : List Byte} {s : State}
    (h : (∃ r ∈ ins, s.platform.ReachesWindow .read r) ∨ s.platform.ReachesWindow .write out) :
    s.outputPhase ins out vals = .fault .windowThroughMemoryPort := by
  have hw : (s.platform.anyWindow .read ins || s.platform.anyWindow .write [out]) = true := by
    simpa [Platform.anyWindow_iff] using h
  rw [State.outputPhase, if_pos hw]

/-- PEVAL past its checks stops where a read reaches the register window (R70, log 13). -/
theorem exec_peval_window {s : State} {x : Byte} {k : Nat} (hk : k ≠ 0) (h1 : s.lc.argA.toNat + k ≤ memSize)
    (hw : s.platform.ReachesWindow .read (s.pevalInput k)) : exec (.peval x k) s = .fault .windowThroughMemoryPort := by
  have hw : s.platform.anyWindow .read [s.pevalInput k] = true :=
    (s.platform.anyWindow_iff _ _).2 ⟨_, List.mem_singleton.2 rfl, hw⟩
  simp [exec, execPeval, hk, ByteRange.valid_of (r := s.pevalInput k) h1, hw]

/-- Settles O40: every command completes or has reached the window, and past its checks one that reaches it stops. -/
theorem onlyTheWindowStopsACommand : Obligations.OnlyTheWindowStopsACommand := by
  refine ⟨fun i s f h => exec_fault h, fun i s hi ho => ?_, fun s x k hk h1 => ⟨exec_peval_window hk h1, fun h => ?_⟩,
    fun s x k hk hx h1 h2 => ⟨fun hw => ?_, fun h => ?_⟩⟩
  · refine (exec_next_or_window i s).resolve_right ?_
    rintro ⟨⟨r, hr, hw⟩ | hw, -⟩
    · exact Platform.not_reachesWindow (hi r hr) hw
    · exact Platform.not_reachesWindow ho hw
  · rcases (exec_fault h).2 with hw | ⟨a, ha, -⟩
    · simpa [State.inputsOf, State.pevalInput] using hw
    · exact absurd ha (ByteRange.not_holds_empty 0 a)
  · rw [exec_pevalv_checked hk hx h1 h2]
    exact State.outputPhase_window (by simpa [State.pevalvInput, State.pevalvOutput] using hw)
  · simpa [State.inputsOf, State.outputOf, State.pevalvInput, State.pevalvOutput] using (exec_fault h).2

end Machine

end Sys2Proof

/-! ## Where memory changes, and what hosts do to it (R78, R82, R84, R242) -/

namespace Sys2Proof.Machine

/-- A running command has ended, and the byte is one of its output range or of one that a broken host duty left open (R78,
R84, R242). -/
def State.EndedOver (s t : State) (a : Nat) : Prop :=
  s.busy = true ∧ t.busy = false ∧ ∃ r ∈ s.latchedOutput :: s.spoiled, r.Holds a

/-- The core's turn changes memory only where it ends a command. -/
theorem State.coreTurn_changes {s t : State} {a : Nat} (hwf : Memory.wf s.mem = true) (h : s.coreTurn = .next t)
    (hne : Memory.read t.mem a ≠ Memory.read s.mem a) : s.EndedOver t a := by
  rcases State.coreTurn_frame h with ⟨-, rfl⟩ | ⟨hb, hframe⟩
  · exact absurd rfl hne
  refine ⟨hb, hframe.busy, ?_⟩
  by_contra hout
  simp only [not_exists, not_and] at hout
  rcases State.coreTurn_next h with ⟨hidle, -⟩ | ⟨-, -, hrun⟩ | ⟨-, -, u, hrun, rfl⟩
  · rw [hidle] at hb
    cases hb
  · exact hne ((State.runLatched_memory hwf hrun).2 a (hout _ List.mem_cons_self))
  · obtain ⟨hwfu, hsame⟩ := State.runLatched_memory hwf hrun
    obtain ⟨-, hspoil, -⟩ := State.spoilCompletion_memory (s := s) hwfu
    exact hne ((hspoil a hout).trans (hsame a (hout _ List.mem_cons_self)))

/-- A reset changes memory only where it ends a command (R242). -/
theorem State.coreReset_changes {s : State} {a : Nat} (hwf : Memory.wf s.mem = true)
    (hne : Memory.read s.coreReset.mem a ≠ Memory.read s.mem a) : s.EndedOver s.coreReset a := by
  obtain ⟨-, hidle, hout, -⟩ := State.coreReset_memory hwf
  refine ⟨?_, rfl, ?_⟩
  · by_contra hb
    exact hne (by rw [hidle (by simpa using hb)])
  · by_contra hr
    simp only [not_exists, not_and] at hr
    exact hne (hout a hr)

/-- A register write changes memory only where it is a reset that ends a command. -/
theorem State.regWrite_changes {s : State} {v : Word} {r : Reg} {a : Nat} (hwf : Memory.wf s.mem = true)
    (hne : Memory.read (s.regWrite v r).mem a ≠ Memory.read s.mem a) : s.EndedOver (s.regWrite v r) a := by
  rcases s.regWrite_cases v r with h | ⟨-, h⟩ | ⟨-, h⟩ | h | h | h
  case inr.inl =>
    rcases s.writeCtrl_cases v with ⟨-, hc⟩ | ⟨-, -, hc⟩ | ⟨-, -, hc⟩ <;> rw [h, hc] at hne ⊢
    · exact State.coreReset_changes hwf hne
    · exact absurd rfl hne
    · exact absurd rfl hne
  case inr.inr.inl => rcases s.writeCmd_cases v with ⟨-, hc⟩ | ⟨-, hc⟩ <;> rw [h, hc] at hne <;> exact absurd rfl hne
  all_goals exact absurd (by rw [h]) hne

/-- A host's access changes memory only where it writes there, or where it is a reset that ends a command. -/
theorem State.hostAccess_changes {s t : State} {h : HostAccess} {a : Nat} (hwf : Memory.wf s.mem = true)
    (hn : s.hostAccess h = .next t) (hne : Memory.read t.mem a ≠ Memory.read s.mem a) :
    (∃ (w : Word) (v : Byte), w.toNat = a ∧ h = .memWrite w v) ∨ s.EndedOver t a := by
  rcases State.hostAccess_next hn with ⟨-, rfl⟩ | ⟨r, rfl⟩ | ⟨w, -, -, -, rfl⟩ | ⟨w, -, rfl⟩ | ⟨w, v, rfl, rfl⟩ |
    ⟨addr, w, v, r, -, -, rfl⟩
  case inr.inr.inr.inr.inl =>
    refine .inl ⟨w, v, ?_, rfl⟩
    by_contra hw
    exact hne ((Memory.read_write hwf _ _ _).trans (if_neg hw))
  case inr.inr.inr.inr.inr => exact .inr (State.regWrite_changes hwf hne)
  all_goals exact absurd rfl hne

/-- Settles O46, by the agent that moves. -/
theorem coreWritesOnlyItsOutputRange : Obligations.CoreWritesOnlyItsOutputRange := by
  intro s t a hwf h hne
  rcases step_next h with ⟨-, h⟩ | ⟨rest, -, h⟩ | ⟨x, rest, hin, h⟩ | ⟨rest, -, rfl⟩ | ⟨rest, -, rfl⟩
  · exact .inr (State.coreTurn_changes hwf h hne)
  · exact .inr (State.coreTurn_changes (s := { s with inputs := rest }) hwf h hne)
  · rcases State.hostAccess_changes (s := { s with inputs := rest }) hwf h hne with ⟨w, v, hw, rfl⟩ | hend
    · exact .inl ⟨w, v, rest, hw, hin⟩
    · exact .inr hend
  · exact .inr (State.coreReset_changes (s := { s with inputs := rest }) hwf hne)
  · exact absurd rfl hne

/-- A host's write stores its byte and opens the output range where it breaks the host's duty (R82, R84). -/
theorem step_memWrite {s : State} {a : Word} {v : Byte} {rest : List Input} (hw : s.platform.isWindow a.toNat = false)
    (hin : s.inputs = .host (.memWrite a v) :: rest) :
    step s = .next { s with
      inputs := rest
      mem := Memory.write s.mem a.toNat v
      spoiled := bif s.writeBreaksDuty a then s.latchedOutput :: s.spoiled else s.spoiled } := by
  simp only [step, hin, State.hostAccess, State.hostMemWrite, hw]
  rfl

/-- A host's read of an open byte breaks its duty and returns a free value (R84). -/
theorem step_memRead_open {s : State} {a : Word} {rest : List Input} (hw : s.platform.isWindow a.toNat = false)
    (hin : s.inputs = .host (.memRead a) :: rest) (hc : s.outputCovers a = true) :
    step s = .next { s with
      inputs := rest, replies := .mem (Config.freeByte s.draws a.toNat) :: s.replies,
      spoiled := s.latchedOutput :: s.spoiled, draws := s.draws + 1 } := by
  have hc : State.outputCovers a { s with inputs := rest } = true := hc
  simp only [step, hin, State.hostAccess, State.hostMemRead, hw, hc]
  rfl

/-- Any other read of ordinary memory returns the stored byte (R84, log 20). -/
theorem step_memRead_stored {s : State} {a : Word} {rest : List Input} (hw : s.platform.isWindow a.toNat = false)
    (hd : s.platform.isDevice a.toNat = false) (hin : s.inputs = .host (.memRead a) :: rest)
    (hc : s.outputCovers a = false) :
    step s = .next { s with inputs := rest, replies := .mem (Memory.read s.mem a.toNat) :: s.replies } := by
  have hc : State.outputCovers a { s with inputs := rest } = false := hc
  simp only [step, hin, State.hostAccess, State.hostMemRead, hw, hd, hc]
  rfl

/-- The latched command that ends with an error leaves `RESULT` (R211). -/
theorem State.runLatched_result {s u : State} (h : s.runLatched = .next u) (herr : u.err ≠ errOk) :
    u.result = s.result := by
  obtain ⟨v, vals, -, -, -, rfl | ⟨e, rfl, hresult⟩⟩ := State.runLatched_next h
  · exact absurd rfl herr
  · exact hresult

theorem State.latchedIsPeval_of {s : State} {x : Byte} {k : Nat} (h : s.lc.decode = .ok (.peval x k)) :
    s.latchedIsPeval = true := by
  simp only [State.latchedIsPeval, h]

@[simp] theorem State.spoilCompletion_err (s u : State) : (s.spoilCompletion u).err = u.err := by
  unfold State.spoilCompletion
  cases (s.latchedIsPeval && u.err == errOk) <;> simp

/-- A spoiled completion of a PEVAL leaves a free `RESULT` where it succeeds, and `RESULT` as it is where it fails
(log 11). -/
theorem State.spoilCompletion_result_peval {s : State} (u : State) (h : s.latchedIsPeval = true) :
    (s.spoilCompletion u).result = if u.err = errOk then Config.freeResult u.draws else u.result := by
  simp only [State.spoilCompletion, h, Bool.true_and, cond_eq_ite, beq_iff_eq]
  split <;> simp

/-- A spoiled completion leaves a free value in every byte of the spoiled ranges (R84, log 9). -/
theorem State.spoilCompletion_spoiled {s u : State} (hwf : Memory.wf u.mem = true) {r : ByteRange} (hr : r ∈ s.spoiled)
    {a : Nat} (ha : r.Holds a) (hlt : a < memSize) :
    ∃ n, Memory.read (s.spoilCompletion u).mem a = Config.freeByte n a := by
  unfold State.spoilCompletion
  refine State.read_fillFreeAll _ ?_ (List.mem_append_left _ hr) ha hlt
  cases (s.latchedIsPeval && u.err == errOk) <;> exact hwf

/-- The core's turn in which a broken host duty spoils the completion (R84). -/
theorem State.coreTurn_spoiled {s t : State} (hb : s.busy = true) (hs : s.spoiled ≠ []) (h : s.coreTurn = .next t) :
    ∃ u, s.runLatched = .next u ∧ t = s.spoilCompletion u := by
  rcases State.coreTurn_next h with ⟨hidle, -⟩ | ⟨-, hnone, -⟩ | ⟨-, -, hu⟩
  · rw [hidle] at hb
    cases hb
  · exact absurd hnone hs
  · exact hu

/-- What a spoiled completion leaves: free bytes in the output range and the spoiled ranges, and in `RESULT` of a PEVAL that
succeeds (R84, log 9, log 11). -/
theorem State.coreTurn_spoiled_leaves {s t : State} (hwf : Memory.wf s.mem = true) (hb : s.busy = true)
    (hs : s.spoiled ≠ []) (h : s.coreTurn = .next t) :
    (∃ n, ∀ a, s.latchedOutput.Holds a → a < memSize → Memory.read t.mem a = Config.freeByte n a) ∧
    (∀ r ∈ s.spoiled, ∀ a, r.Holds a → a < memSize → ∃ n, Memory.read t.mem a = Config.freeByte n a) ∧
    (∀ x k, s.lc.decode = .ok (.peval x k) →
      (t.err = 0x00#8 → ∃ n, t.result = Config.freeResult n) ∧ (t.err ≠ 0x00#8 → t.result = s.result)) := by
  obtain ⟨u, hrun, rfl⟩ := State.coreTurn_spoiled hb hs h
  obtain ⟨hwfu, -⟩ := State.runLatched_memory hwf hrun
  obtain ⟨-, -, hopen⟩ := State.spoilCompletion_memory (s := s) hwfu
  refine ⟨hopen, fun r hr a => State.spoilCompletion_spoiled hwfu hr, fun x k hpeval => ?_⟩
  rw [State.spoilCompletion_err, State.spoilCompletion_result_peval u (State.latchedIsPeval_of hpeval)]
  exact ⟨fun herr => ⟨u.draws, if_pos herr⟩, fun herr => (if_neg herr).trans (State.runLatched_result hrun herr)⟩

/-- Settles O58, by the kind of access, and by what a spoiled completion leaves. -/
theorem hostAccessToARunningCommand : Obligations.HostAccessToARunningCommand := by
  refine ⟨fun s a v rest hw hin => ⟨_, step_memWrite hw hin, fun hb hr => ?_, fun hr => ?_⟩,
    fun s a rest hb hw hin hr => ⟨s.draws, step_memRead_open hw hin ((s.outputCovers_iff a).2 ⟨hb, hr⟩)⟩,
    fun s a rest hw hd hin hr => step_memRead_stored hw hd hin ?_, fun s s' t hwf hb hs hmove h => ?_⟩
  · rw [(s.writeBreaksDuty_iff a).2 ⟨hb, hr⟩, cond_true]
  · have hkept : s.writeBreaksDuty a = false := by
      rw [← Bool.not_eq_true, State.writeBreaksDuty_iff]
      rintro ⟨hb, r, hmem, ha⟩
      rcases hr with hidle | hr
      · rw [hidle] at hb
        cases hb
      · exact hr r hmem ha
    rw [hkept, cond_false]
  · rw [← Bool.not_eq_true, State.outputCovers_iff]
    rintro ⟨hb, r, hmem, ha⟩
    exact hr hb r hmem ha
  · rw [step_core hmove] at h
    rw [hmove.same] at h
    exact State.coreTurn_spoiled_leaves (s := { s with inputs := s'.inputs }) hwf hb hs h

end Sys2Proof.Machine

/-! ## Decoding and encoding (R100 to R107) -/

namespace Sys2Proof

/-- Reading a word's bytes as a host sends them is reading the word (R74). -/
theorem decodeBytes_bytesOfWord (w : Word) : decodeBytes (bytesOfWord w) = decodeWord w := by
  rw [bytesOfWord, decodeBytes, wordOfBytes_fields]

/-- A packed word decodes by its opcode and operands (R100). -/
theorem decodeWord_packWord (op a b : Byte) : decodeWord (packWord op a b) = decodeFields op a b 0x00#8 := by
  obtain ⟨hop, ha, hb, hrsv⟩ := fields_wordOfBytes op a b 0x00#8
  rw [packWord_eq, decodeWord, hop, ha, hb, hrsv]

/-- A well-formed command is what its command word decodes to; its integer operand is read back from the field. -/
theorem decodeWord_encode {i : Instr} (h : i.wf = true) : decodeWord (encode i) = .ok i := by
  cases i <;> rw [encode, decodeWord_packWord]
  case pow | exp | peval | pevalv => simp [decodeFields, Nat.mod_eq_of_lt (of_decide_eq_true h)]
  all_goals simp [decodeFields]

/-- The fields of a command word are illegal (R104): `RSV` is not zero, the opcode is not in the table, or an operand field
that must be 0 is not. -/
def FieldsIllegal (op a b rsv : Byte) : Prop :=
  rsv ≠ 0x00#8 ∨
    op ∉ [0x01#8, 0x02#8, 0x03#8, 0x04#8, 0x05#8, 0x06#8, 0x07#8, 0x10#8, 0x11#8, 0x12#8] ∨
    (op ∈ [0x04#8, 0x06#8, 0x07#8] ∧ b ≠ 0x00#8) ∨
    (op = 0x12#8 ∧ (a ≠ 0x00#8 ∨ b ≠ 0x00#8))

/-- Illegal fields are refused. -/
theorem decodeFields_of_illegal {op a b rsv : Byte} (h : FieldsIllegal op a b rsv) :
    ∃ e, decodeFields op a b rsv = .error e := by
  by_cases hrsv : rsv = 0x00#8
  case neg => exact ⟨_, if_pos hrsv⟩
  subst hrsv
  rcases h with h | hop | ⟨hop, hb⟩ | ⟨rfl, hab⟩
  · exact absurd rfl h
  · simp only [List.mem_cons, List.not_mem_nil, or_false, not_or] at hop
    simp [decodeFields, hop]
  · simp only [List.mem_cons, List.not_mem_nil, or_false] at hop
    rcases hop with rfl | rfl | rfl <;> simp [decodeFields, hb]
  · simp [decodeFields, hab]

/-- Legal fields decode to a well-formed command, row by row of the table (R107), and are those of its command word. -/
theorem decodeFields_of_legal {op a b rsv : Byte} (h : ¬ FieldsIllegal op a b rsv) :
    ∃ i : Instr, decodeFields op a b rsv = .ok i ∧ i.wf = true ∧ encode i = wordOfBytes op a b rsv := by
  simp only [FieldsIllegal, not_or, not_not, not_and] at h
  obtain ⟨rfl, hop, hb, hab⟩ := h
  have ha256 : a.toNat < 256 := a.isLt
  have hb256 : b.toNat < 256 := b.isLt
  simp only [List.mem_cons, List.not_mem_nil, or_false] at hop
  rcases hop with rfl | rfl | rfl | rfl | rfl | rfl | rfl | rfl | rfl | rfl
  all_goals simp_all [decodeFields, Instr.wf, encode, packWord_eq]

/-- The command that four fields decode to is well formed, and the fields are those of its command word (R103, R107). -/
theorem encode_of_decodeFields {op a b rsv : Byte} {i : Instr} (h : decodeFields op a b rsv = .ok i) :
    i.wf = true ∧ encode i = wordOfBytes op a b rsv := by
  by_cases hill : FieldsIllegal op a b rsv
  · obtain ⟨e, he⟩ := decodeFields_of_illegal hill
    cases h.symm.trans he
  · obtain ⟨j, hj, hword⟩ := decodeFields_of_legal hill
    cases h.symm.trans hj
    exact hword

/-- Settles O1: a packed word's fields are its opcode and operands, and the four bytes are the word's. -/
theorem decodeOfEncodeIsTheInstruction : Obligations.DecodeOfEncodeIsTheInstruction := fun _ h =>
  ⟨decodeWord_encode h, (decodeBytes_bytesOfWord _).trans (decodeWord_encode h)⟩

/-- Settles O2, by the rows of the decoder; a word is assembled from its fields. -/
theorem encodeOfDecodeIsTheWord : Obligations.EncodeOfDecodeIsTheWord := by
  intro w i h
  obtain ⟨hwf, hword⟩ := encode_of_decodeFields h
  exact ⟨hwf, hword.trans (wordOfBytes_fields w)⟩

/-- Settles O4, by running the decoder on the eleven words. -/
theorem wordsOfTheTableDecode : Obligations.WordsOfTheTableDecode := by
  unfold Obligations.WordsOfTheTableDecode
  decide

/-- The decoder refuses exactly the illegal fields (R104). -/
theorem decodeFields_error_iff (op a b rsv : Byte) :
    (∃ e, decodeFields op a b rsv = .error e) ↔ FieldsIllegal op a b rsv := by
  refine ⟨fun ⟨e, he⟩ => ?_, decodeFields_of_illegal⟩
  by_contra h
  obtain ⟨i, hi, -⟩ := decodeFields_of_legal h
  cases hi.symm.trans he

/-- Which words are illegal (R104), by the numbers that their fields are. -/
theorem decodeWord_error_iff (w : Word) : (∃ e, decodeWord w = .error e) ↔
    w.toNat / 16777216 ≠ 0 ∨
      w.toNat % 256 ∉ [0x01, 0x02, 0x03, 0x04, 0x05, 0x06, 0x07, 0x10, 0x11, 0x12] ∨
      (w.toNat % 256 ∈ [0x04, 0x06, 0x07] ∧ w.toNat / 65536 % 256 ≠ 0) ∨
      (w.toNat % 256 = 0x12 ∧ (w.toNat / 256 % 256 ≠ 0 ∨ w.toNat / 65536 % 256 ≠ 0)) := by
  rw [decodeWord, decodeFields_error_iff, FieldsIllegal]
  simp [← BitVec.toNat_inj, fieldOp_toNat, fieldA_toNat, fieldB_toNat, fieldRsv_toNat]

end Sys2Proof

/-! ## The core's move (R104, R253) -/

namespace Sys2Proof.Machine

/-- A latched word that decodes runs as the command that it decodes to. -/
theorem State.runLatched_ok {s : State} {i : Instr} (h : s.lc.decode = .ok i) : s.runLatched = exec i s := by
  simp only [State.runLatched, h]

/-- A latched word that does not decode completes with ILLEGAL (R104). -/
theorem State.runLatched_error {s : State} {e : DecodeError} (h : s.lc.decode = .error e) :
    s.runLatched = .next (s.raise .illegal) := by
  simp only [State.runLatched, h]

/-- The state that the core moves from has the running command and the spoiled ranges. -/
theorem State.CoreMoves.kept {s s' : State} (h : s.CoreMoves s') :
    s'.busy = s.busy ∧ s'.lc = s.lc ∧ s'.spoiled = s.spoiled := by
  rcases h with ⟨-, rfl⟩ | ⟨rest, -, rfl⟩ <;> exact ⟨rfl, rfl, rfl⟩

/-- The core's move with no broken host duty runs the latched word. -/
theorem step_runLatched {s s' : State} (hb : s.busy = true) (hs : s.spoiled = []) (hmove : s.CoreMoves s') :
    step s = s'.runLatched := by
  obtain ⟨hbusy, -, hspoiled⟩ := hmove.kept
  rw [step_core hmove, State.coreTurn_busy (hbusy.trans hb) (hspoiled.trans hs)]

/-- A broken host duty spoils the completion of the latched word (R84, log 9). -/
theorem State.coreTurn_spoils {s t : State} (hb : s.busy = true) (hs : s.spoiled ≠ []) (h : s.runLatched = .next t) :
    s.coreTurn = .next (s.spoilCompletion t) := by
  simp [State.coreTurn, hb, h, List.isEmpty_eq_false_iff.2 hs]

/-- A latched command that stops stops the core's turn. -/
theorem State.coreTurn_fault {s : State} {f : Fault} (hb : s.busy = true) (h : s.runLatched = .fault f) :
    s.coreTurn = .fault f := by
  simp [State.coreTurn, hb, h]

/-- Settles O3, by the fields of a word, and by the step that the move over an illegal word is. -/
theorem illegalWordsCompleteWithIllegal : Obligations.IllegalWordsCompleteWithIllegal := by
  refine ⟨decodeWord_error_iff, fun s s' e hb hs hmove hdecode => ?_⟩
  obtain ⟨-, hlc, -⟩ := hmove.kept
  refine ⟨s'.raise .illegal, ?_, State.failed_raise s' .illegal⟩
  rw [step_runLatched hb hs hmove, State.runLatched_error (hlc ▸ hdecode)]

/-- Settles O41, by whether a host duty was broken, and by the outcome of `exec` where one was. -/
theorem stepRunsTheDecodedCommand : Obligations.StepRunsTheDecodedCommand := by
  intro s s' i hb hdecode hmove
  obtain ⟨hbusy, hlc, hspoiled⟩ := hmove.kept
  have hrun : s'.runLatched = exec i s' := State.runLatched_ok (hlc ▸ hdecode)
  refine ⟨fun hs => (step_runLatched hb hs hmove).trans hrun, fun hs => ?_⟩
  rw [step_core hmove]
  exact ⟨fun t ht => State.coreTurn_spoils (hbusy.trans hb) (hspoiled ▸ hs) (hrun.trans ht),
    fun f hf => State.coreTurn_fault (hbusy.trans hb) (hrun.trans hf)⟩

end Sys2Proof.Machine

/-! ## The laws of the field (R130 to R134, R143) -/

namespace Sys2Proof

theorem gfMul_one_right (p : Poly) (a : Byte) : gfMul p a 0x01#8 = a := by
  refine gf_induction p (P := fun a => gfMul p a 0x01#8 = a) (gfMul_zero_left p _) (gfMul_one_left p _)
    (fun a ha => ?_) (fun a b ha hb => ?_) a
  · rw [gfMul_xtime_left, ha]
  · rw [gfMul_xor_left, ha, hb]

theorem gfMul_assoc (p : Poly) (a b c : Byte) : gfMul p (gfMul p a b) c = gfMul p a (gfMul p b c) := by
  refine gf_induction p (P := fun a => gfMul p (gfMul p a b) c = gfMul p a (gfMul p b c)) (by simp)
    (by simp only [gfMul_one_left]) (fun a ha => ?_) (fun a a' ha ha' => ?_) a
  · simp only [gfMul_xtime_left, ha]
  · simp only [gfMul_xor_left, ha, ha']

theorem gfMul_xtime_right (p : Poly) (a b : Byte) : gfMul p a (xtime p b) = xtime p (gfMul p a b) := by
  refine gf_induction p (P := fun a => gfMul p a (xtime p b) = xtime p (gfMul p a b)) (by simp)
    (by simp only [gfMul_one_left]) (fun a ha => ?_) (fun a a' ha ha' => ?_) a
  · rw [gfMul_xtime_left, gfMul_xtime_left, ha]
  · rw [gfMul_xor_left, gfMul_xor_left, ha, ha', xtime_xor]

theorem gfMul_comm (p : Poly) (a b : Byte) : gfMul p a b = gfMul p b a := by
  refine gf_induction p (P := fun b => gfMul p a b = gfMul p b a) (by simp)
    (by rw [gfMul_one_left, gfMul_one_right]) (fun b hb => ?_) (fun b b' hb hb' => ?_) b
  · rw [gfMul_xtime_left, gfMul_xtime_right, hb]
  · rw [gfMul_xor_left, gfMul_xor_right, hb, hb']

/-! ### Powers -/

theorem gfPow_base_one (p : Poly) (n : Nat) : gfPow p 0x01#8 n = 0x01#8 := by
  induction n with
  | zero => rfl
  | succ n ih => rw [gfPow_succ, ih, gfMul_one_left]

theorem gfPow_base_zero (p : Poly) {n : Nat} (hn : n ≠ 0) : gfPow p 0x00#8 n = 0x00#8 := by
  obtain ⟨m, rfl⟩ := Nat.exists_eq_succ_of_ne_zero hn
  exact gfMul_zero_right p _

theorem gfPow_exponent_one (p : Poly) (a : Byte) : gfPow p a 1 = a := gfMul_one_left p a

theorem gfPow_add (p : Poly) (a : Byte) (m n : Nat) : gfPow p a (m + n) = gfMul p (gfPow p a m) (gfPow p a n) := by
  induction n with
  | zero => exact (gfMul_one_right p _).symm
  | succ n ih => rw [← Nat.add_assoc, gfPow_succ, ih, gfPow_succ, gfMul_assoc]

theorem gfPow_mul (p : Poly) (a : Byte) (m n : Nat) : gfPow p a (m * n) = gfPow p (gfPow p a m) n := by
  induction n with
  | zero => rfl
  | succ n ih => rw [Nat.mul_succ, gfPow_add, ih, gfPow_succ]

/-- Every non-zero element is a power of `GEN`, whose power 255 is 1. -/
theorem gfPow_255 (p : Poly) {a : Byte} (ha : a ≠ 0x00#8) : gfPow p a 255 = 0x01#8 := by
  obtain ⟨i, -, rfl⟩ := exists_gfExp_eq p ha
  rw [gfExp_eq, ← gfPow_mul, Nat.mul_comm, gfPow_mul, ← gfExp_eq, gfExp_255, gfPow_base_one]

/-- Exponents of a non-zero element count modulo 255. -/
theorem gfPow_mod_255 (p : Poly) {a : Byte} (ha : a ≠ 0x00#8) (n : Nat) : gfPow p a (n % 255) = gfPow p a n := by
  conv_rhs => rw [← Nat.div_add_mod n 255, gfPow_add, gfPow_mul, gfPow_255 p ha, gfPow_base_one, gfMul_one_left]

theorem Poly.gen_ne_zero (p : Poly) : p.gen ≠ 0x00#8 := by cases p <;> decide

theorem gfExp_mod_255 (p : Poly) (n : Nat) : gfExp p (n % 255) = gfExp p n := gfPow_mod_255 p p.gen_ne_zero n

theorem gfLog_gfExp (p : Poly) {i : Nat} (hi : i < 255) : gfLog p (gfExp p i) = i := by
  obtain ⟨hlt, hexp⟩ := gfExp_gfLog p (gfExp_ne_zero (p := p) hi)
  exact gfExp_inj hlt hi hexp

theorem gfLog_one (p : Poly) : gfLog p 0x01#8 = 0 := gfLog_gfExp p (i := 0) (by decide)

theorem gfExp_one (p : Poly) : gfExp p 1 = p.gen := gfPow_exponent_one p p.gen

theorem gfLog_gen (p : Poly) : gfLog p p.gen = 1 := by
  rw [← gfExp_one p, gfLog_gfExp p (by decide)]

/-- R132 on operands that have logarithms. -/
theorem gfMul_eq_gfExp (p : Poly) {a b : Byte} (ha : a ≠ 0x00#8) (hb : b ≠ 0x00#8) :
    gfMul p a b = gfExp p ((gfLog p a + gfLog p b) % 255) := by
  rw [gfExp_mod_255, gfExp_eq, gfPow_add, ← gfExp_eq, ← gfExp_eq, (gfExp_gfLog p ha).2, (gfExp_gfLog p hb).2]

/-- R134's three cases, for every exponent. -/
theorem gfPow_by_tables (p : Poly) (a : Byte) (e : Nat) : gfPow p a e =
    if e = 0 then 0x01#8 else if a = 0x00#8 then 0x00#8 else gfExp p ((gfLog p a * e) % 255) := by
  split
  · next he => rw [he, gfPow_zero]
  · next he =>
    split
    · next ha => rw [ha, gfPow_base_zero p he]
    · next ha => rw [gfExp_mod_255, gfExp_eq, gfPow_mul, ← gfExp_eq, (gfExp_gfLog p ha).2]

/-! ### Inverses -/

/-- The inverse is unique: two factors that give 1 cancel. -/
theorem eq_gfInv_of_gfMul_eq_one {p : Poly} {a b : Byte} (h : gfMul p a b = 0x01#8) : b = gfInv p a :=
  calc b = gfMul p b (gfMul p a (gfInv p a)) := by rw [gfMul_gfInv_of_exists h, gfMul_one_right]
    _ = gfMul p (gfMul p a b) (gfInv p a) := by rw [← gfMul_assoc, gfMul_comm p b a]
    _ = gfInv p a := by rw [h, gfMul_one_left]

/-- A non-zero element times its power 254 is its power 255. -/
theorem gfMul_gfPow_254 (p : Poly) {a : Byte} (ha : a ≠ 0x00#8) : gfMul p a (gfPow p a 254) = 0x01#8 := by
  rw [gfMul_comm, ← gfPow_succ, gfPow_255 p ha]

theorem gfPow_254 (p : Poly) {a : Byte} (ha : a ≠ 0x00#8) : gfPow p a 254 = gfInv p a :=
  eq_gfInv_of_gfMul_eq_one (gfMul_gfPow_254 p ha)

theorem gfMul_gfInv (p : Poly) {a : Byte} (ha : a ≠ 0x00#8) : gfMul p a (gfInv p a) = 0x01#8 :=
  gfMul_gfInv_of_exists (gfMul_gfPow_254 p ha)

theorem gfMul_gfInv_left (p : Poly) {a : Byte} (ha : a ≠ 0x00#8) : gfMul p (gfInv p a) a = 0x01#8 := by
  rw [gfMul_comm, gfMul_gfInv p ha]

theorem gfInv_gfInv (p : Poly) {a : Byte} (ha : a ≠ 0x00#8) : gfInv p (gfInv p a) = a :=
  (eq_gfInv_of_gfMul_eq_one (gfMul_gfInv_left p ha)).symm

theorem gfInv_one (p : Poly) : gfInv p 0x01#8 = 0x01#8 := (eq_gfInv_of_gfMul_eq_one (gfMul_one_left p _)).symm

/-- R133: the exponents of an element and of its inverse sum to 255. -/
theorem gfInv_by_tables (p : Poly) {a : Byte} (ha : a ≠ 0x00#8) : gfInv p a = gfExp p ((255 - gfLog p a) % 255) := by
  obtain ⟨hlt, hexp⟩ := gfExp_gfLog p ha
  refine (eq_gfInv_of_gfMul_eq_one ?_).symm
  calc gfMul p a (gfExp p ((255 - gfLog p a) % 255))
      = gfMul p (gfExp p (gfLog p a)) (gfExp p (255 - gfLog p a)) := by rw [hexp, gfExp_mod_255]
    _ = gfExp p 255 := by rw [gfExp_eq, gfExp_eq, ← gfPow_add, Nat.add_sub_cancel' hlt.le, ← gfExp_eq]
    _ = 0x01#8 := gfExp_255 p

/-- A quotient times its divisor is the dividend. -/
theorem gfMul_gfInv_mul_cancel (p : Poly) (a : Byte) {b : Byte} (hb : b ≠ 0x00#8) :
    gfMul p (gfMul p a (gfInv p b)) b = a := by
  rw [gfMul_assoc, gfMul_gfInv_left p hb, gfMul_one_right]

/-- The field has no zero divisors. -/
theorem eq_zero_or_eq_zero_of_gfMul_eq_zero {p : Poly} {a b : Byte} (h : gfMul p a b = 0x00#8) : a = 0x00#8 ∨ b = 0x00#8 := by
  by_cases hb : b = 0x00#8
  · exact .inr hb
  · refine .inl ?_
    rw [← gfMul_one_right p a, ← gfMul_gfInv p hb, ← gfMul_assoc, h, gfMul_zero_left]

/-- Settles O9: the laws of the product by induction over the elements, those of inverses and powers from the exponents of
`GEN`. -/
theorem fieldLaws : Obligations.FieldLaws := fun p a b c =>
  ⟨⟨BitVec.xor_self, BitVec.xor_zero, BitVec.xor_assoc a b c, BitVec.xor_comm a b⟩,
    ⟨gfMul_comm p a b, gfMul_xor_right p a b c, gfMul_assoc p a b c, gfMul_one_right p a, gfMul_zero_right p a⟩,
    gfMul_gfInv p, eq_zero_or_eq_zero_of_gfMul_eq_zero, fun ha => ⟨gfPow_255 p ha, gfPow_254 p ha⟩,
    fun e1 e2 _ => (gfPow_add p a e1 e2).symm⟩

/-- Settles O10: products of powers add their exponents, which count modulo 255. -/
theorem productByTheTables : Obligations.ProductByTheTables := by
  refine ⟨fun p a b => ?_, fun p g i j hg => by rw [gfPow_mod_255 p hg, gfPow_add]⟩
  split
  · next h => rcases h with rfl | rfl <;> simp
  · next h =>
    obtain ⟨ha, hb⟩ := not_or.1 h
    exact gfMul_eq_gfExp p ha hb

/-- Settles O11, by cancellation, and by the sum 255 of the two exponents. -/
theorem inverseIsUniqueAndByTheTables : Obligations.InverseIsUniqueAndByTheTables :=
  ⟨fun p _ ha => ⟨gfMul_gfInv p ha, fun _ => eq_gfInv_of_gfMul_eq_one, gfInv_by_tables p ha, gfInv_one p⟩,
    fun s _ => ⟨⟨_, rfl, Machine.State.failed_raise s .zeroInverse⟩, _, rfl, Machine.State.failed_raise s .zeroInverse⟩⟩

/-- Settles O12, by R134's three cases. -/
theorem powerByTheTables : Obligations.PowerByTheTables := fun p a e _ => gfPow_by_tables p a e

end Sys2Proof

/-! ## The product as a remainder by `POLY` (R131) -/

namespace Sys2Proof

theorem polyMul_eq_upTo_16 (a b : Nat) : polyMul a b = polyMulUpTo a b 16 := rfl

theorem polyMulUpTo_xor_left (a a' b : Nat) : ∀ n,
    polyMulUpTo (a ^^^ a') b n = polyMulUpTo a b n ^^^ polyMulUpTo a' b n
  | 0 => (Nat.xor_self 0).symm
  | n + 1 => by
    rw [polyMulUpTo, polyMulUpTo, polyMulUpTo, polyMulUpTo_xor_left a a' b n]
    split
    · rw [Nat.shiftLeft_xor_distrib]
      ac_rfl
    · rfl

theorem polyMulUpTo_shiftLeft (a b m : Nat) : ∀ n, polyMulUpTo (a <<< m) b n = polyMulUpTo a b n <<< m
  | 0 => (Nat.zero_shiftLeft m).symm
  | n + 1 => by
    rw [polyMulUpTo, polyMulUpTo, polyMulUpTo_shiftLeft a b m n]
    split
    · rw [Nat.shiftLeft_xor_distrib, ← Nat.shiftLeft_add, ← Nat.shiftLeft_add, Nat.add_comm]
    · rfl

theorem polyMulUpTo_one_value (p : Poly) : polyMulUpTo 1 p.value.toNat 16 = p.value.toNat := by cases p <;> rfl

/-- One more bit of the quotient adds `POLY`, shifted. -/
theorem polyMul_xor_one_shiftLeft (p : Poly) (q n : Nat) :
    polyMul (q ^^^ 1 <<< n) p.value.toNat = polyMul q p.value.toNat ^^^ p.value.toNat <<< n := by
  rw [polyMul_eq_upTo_16, polyMul_eq_upTo_16, polyMulUpTo_xor_left, polyMulUpTo_shiftLeft, polyMulUpTo_one_value]

/-- `xtime` is a shift, reduced by `POLY` where the bit shifted out is 1. -/
theorem shiftLeft_one_eq_xtime (p : Poly) (r : Byte) :
    r.toNat <<< 1 = (if r.getLsbD 7 then p.value.toNat else 0) ^^^ (xtime p r).toNat := by
  have hpoly : p.value.toNat = 0x100 ^^^ p.low.toNat := by cases p <;> rfl
  have hshift : ∀ r : Byte, r.toNat <<< 1 = (if r.getLsbD 7 then 0x100 else 0) ^^^ (r <<< 1).toNat := by decide +kernel
  rw [hshift, hpoly, xtime, BitVec.toNat_xor]
  cases r.getLsbD 7
  · simp
  · simp only [if_true, cond_true, Nat.xor_assoc]
    rw [Nat.xor_comm (r <<< 1).toNat, ← Nat.xor_assoc p.low.toNat, Nat.xor_self, Nat.zero_xor]

/-- One step of the loop of R131 takes one bit of `b` into the partial product, but for a multiple of `POLY`. -/
theorem gfMul_step_reduces (p : Poly) (a b r : Byte) (n : Nat) :
    r.toNat <<< (n + 1) ^^^ polyMulUpTo a.toNat b.toNat (n + 1) = (if r.getLsbD 7 then p.value.toNat <<< n else 0) ^^^
      ((bif b.getLsbD n then xtime p r ^^^ a else xtime p r).toNat <<< n ^^^ polyMulUpTo a.toNat b.toNat n) := by
  have hr : r.toNat <<< (n + 1) =
      (if r.getLsbD 7 then p.value.toNat <<< n else 0) ^^^ (xtime p r).toNat <<< n := by
    rw [Nat.add_comm, Nat.shiftLeft_add, shiftLeft_one_eq_xtime p, Nat.shiftLeft_xor_distrib]
    cases r.getLsbD 7 <;> simp
  rw [hr, polyMulUpTo, BitVec.testBit_toNat]
  cases b.getLsbD n
  · simp only [Bool.false_eq_true, if_false, cond_false]
    ac_rfl
  · simp only [if_true, cond_true, BitVec.toNat_xor, Nat.shiftLeft_xor_distrib]
    ac_rfl

/-- What the loop of R131 computes from the partial product `r` on: `r` shifted past the `n` bits to come, plus `a` times these
bits, reduced by a multiple of `POLY`. -/
theorem gfMulFrom_reduces (p : Poly) (a b : Byte) : ∀ (n : Nat) (r : Byte), ∃ q < 2 ^ n,
    r.toNat <<< n ^^^ polyMulUpTo a.toNat b.toNat n = polyMul q p.value.toNat ^^^ (gfMulFrom p a b n r).toNat
  | 0, r => ⟨0, by decide, by simp [polyMulUpTo, gfMulFrom, polyMul]⟩
  | n + 1, r => by
    obtain ⟨q, hq, h⟩ := gfMulFrom_reduces p a b n (bif b.getLsbD n then xtime p r ^^^ a else xtime p r)
    have hle : 2 ^ n < 2 ^ (n + 1) := Nat.pow_lt_pow_right (by decide) (Nat.lt_succ_self n)
    rw [gfMul_step_reduces p, h, gfMulFrom]
    cases r.getLsbD 7
    · exact ⟨q, hq.trans hle, Nat.zero_xor _⟩
    · refine ⟨q ^^^ 1 <<< n, Nat.xor_lt_two_pow (hq.trans hle) (by rwa [Nat.one_shiftLeft]), ?_⟩
      rw [if_pos rfl, polyMul_xor_one_shiftLeft p]
      ac_rfl

/-- The product of the polynomials is `a ⊗ b` but for a multiple of `POLY` (R131): the first of the eight steps reduces
nothing, so the quotient has seven bits. -/
theorem exists_quotient_gfMul (p : Poly) (a b : Byte) : ∃ q < 128,
    polyMul a.toNat b.toNat = polyMul q p.value.toNat ^^^ (gfMul p a b).toNat := by
  obtain ⟨q, hq, h⟩ := gfMulFrom_reduces p a b 7 (bif b.getLsbD 7 then xtime p 0x00#8 ^^^ a else xtime p 0x00#8)
  have hfirst : 0 <<< 8 ^^^ polyMulUpTo a.toNat b.toNat 8 = 0 ^^^ (polyMul q p.value.toNat ^^^ (gfMul p a b).toNat) :=
    (gfMul_step_reduces p a b 0x00#8 7).trans (congrArg _ h)
  rw [Nat.zero_shiftLeft, Nat.zero_xor, Nat.zero_xor] at hfirst
  exact ⟨q, hq, (polyMul_eq_upTo _ b.isLt).trans hfirst⟩

/-- Settles O8, by the quotient that the loop of R131 leaves. -/
theorem productIsReducedModuloPoly : Obligations.ProductIsReducedModuloPoly := exists_quotient_gfMul

end Sys2Proof

/-! ## The words and the commands of the field unit (R102 to R107, R136 to R142) -/

namespace Sys2Proof

/-- A command's word, written as the number that its three fields make, decodes to the command (R100, R107). -/
theorem decodeWord_fields {i : Instr} {op a b : Byte} (hwf : i.wf = true) (h : encode i = packWord op a b) :
    decodeWord (BitVec.ofNat 32 (65536 * b.toNat + 256 * a.toNat + op.toNat)) = .ok i := by
  have hnum : 65536 * b.toNat + 256 * a.toNat + op.toNat = (encode i).toNat := by
    rw [h, packWord_toNat]
    omega
  rw [hnum, BitVec.ofNat_toNat, BitVec.setWidth_eq, decodeWord_encode hwf]

/-- A command's word whose field `B` is zero, written as a number, decodes to the command (R103). -/
theorem decodeWord_fields_unary {i : Instr} {op a : Byte} (hwf : i.wf = true) (h : encode i = packWord op a 0x00#8) :
    decodeWord (BitVec.ofNat 32 (256 * a.toNat + op.toNat)) = .ok i := by
  simpa using decodeWord_fields hwf h

namespace Machine

/-- The words of a command with two operand fields are illegal exactly where `RSV` is not zero (R104). -/
theorem illegalExactlyIf_rsvNotZero {op : Nat} (hop : op ∈ [0x01, 0x02, 0x03, 0x05, 0x10, 0x11]) :
    IllegalExactlyIf op RsvNotZero := by
  intro w hw
  rw [decodeWord_error_iff, hw]
  simp only [List.mem_cons, List.not_mem_nil, or_false] at hop
  rcases hop with rfl | rfl | rfl | rfl | rfl | rfl <;> simp [RsvNotZero]

/-- The words of a command with one operand field are illegal exactly where `RSV` or `B` is not zero (R104). -/
theorem illegalExactlyIf_rsvNotZero_or_fieldBNotZero {op : Nat} (hop : op ∈ [0x04, 0x06, 0x07]) :
    IllegalExactlyIf op (fun w => RsvNotZero w ∨ FieldBNotZero w) := by
  intro w hw
  rw [decodeWord_error_iff, hw]
  simp only [List.mem_cons, List.not_mem_nil, or_false] at hop
  rcases hop with rfl | rfl | rfl <;> simp [RsvNotZero, FieldBNotZero]

theorem exec_div_nonzero (s : State) (a : Byte) {b : Byte} (hb : b ≠ 0x00#8) :
    exec (.div a b) s = .next (s.completeWith (gfMul s.poly a (gfInv s.poly b))) := if_neg hb

theorem exec_inv_nonzero (s : State) {a : Byte} (ha : a ≠ 0x00#8) :
    exec (.inv a) s = .next (s.completeWith (gfInv s.poly a)) := if_neg ha

theorem exec_log_nonzero (s : State) {a : Byte} (ha : a ≠ 0x00#8) :
    exec (.log a) s = .next (s.completeWith (BitVec.ofNat 8 (gfLog s.poly a))) := if_neg ha

/-- Settles O16, by the completion of ADD. -/
theorem addReturnsTheSum : Obligations.AddReturnsTheSum :=
  ⟨illegalExactlyIf_rsvNotZero (by decide), fun _ => ⟨BitVec.xor_self, BitVec.xor_zero⟩, fun s a b =>
    ⟨decodeWord_fields (op := 0x01#8) rfl rfl, _, rfl, s.returned_completeWith (a ^^^ b)⟩⟩

/-- Settles O17, by the quotient that the loop of R131 leaves. -/
theorem mulReturnsTheReducedProduct : Obligations.MulReturnsTheReducedProduct :=
  ⟨illegalExactlyIf_rsvNotZero (by decide), fun s a b =>
    ⟨decodeWord_fields (op := 0x02#8) rfl rfl, _, _, rfl, s.returned_completeWith _, exists_quotient_gfMul s.poly a b⟩⟩

/-- Settles O18, by whether `b` is zero; the inverse of `b` cancels it. -/
theorem divReturnsTheQuotient : Obligations.DivReturnsTheQuotient := by
  refine ⟨illegalExactlyIf_rsvNotZero (by decide), fun s a b =>
    ⟨decodeWord_fields (op := 0x03#8) rfl rfl, fun hb => ?_, ?_⟩⟩
  · exact ⟨_, _, exec_div_nonzero s a hb, s.returned_completeWith _, rfl, gfMul_gfInv_mul_cancel s.poly a hb⟩
  · rintro rfl
    exact ⟨_, rfl, s.failed_raise .zeroInverse⟩

/-- Settles O19, by whether `a` is zero; the inverse is unique. -/
theorem invReturnsTheInverse : Obligations.InvReturnsTheInverse := by
  refine ⟨illegalExactlyIf_rsvNotZero_or_fieldBNotZero (by decide), fun s a =>
    ⟨decodeWord_fields_unary (op := 0x04#8) rfl rfl, fun ha => ?_, ?_⟩⟩
  · refine ⟨_, _, exec_inv_nonzero s ha, s.returned_completeWith _, gfMul_gfInv s.poly ha, gfInv_gfInv s.poly ha, ?_⟩
    rintro rfl
    exact gfInv_one s.poly
  · rintro rfl
    exact ⟨_, rfl, s.failed_raise .zeroInverse⟩

/-- Settles O20, by R134's three cases, and by the powers 1, 254 and 255. -/
theorem powReturnsThePower : Obligations.PowReturnsThePower := by
  refine ⟨illegalExactlyIf_rsvNotZero (by decide), fun s a e =>
    ⟨decodeWord_fields (op := 0x05#8) (decide_eq_true e.isLt) (by simp [encode]), _, _, rfl, s.returned_completeWith _,
      ?_, ?_, fun ha => ?_, fun ha => ?_⟩⟩
  · rw [gfPow_by_tables]
    simp only [← BitVec.toNat_inj (x := e), BitVec.toNat_ofNat, Nat.zero_mod]
  · rintro rfl
    exact gfPow_exponent_one s.poly a
  · rintro rfl
    exact gfPow_255 s.poly ha
  · rintro rfl
    exact gfPow_254 s.poly ha

/-- Settles O21, by the entries 0, 1 and 255 of the table. -/
theorem expReturnsTheTableEntry : Obligations.ExpReturnsTheTableEntry := by
  refine ⟨illegalExactlyIf_rsvNotZero_or_fieldBNotZero (by decide), fun s i =>
    ⟨decodeWord_fields_unary (op := 0x06#8) (decide_eq_true i.isLt) (by simp [encode]), _, _, rfl,
      s.returned_completeWith _, gfExp_eq s.poly i.toNat, ?_, ?_⟩⟩
  · rintro (rfl | rfl)
    · rfl
    · exact gfExp_255 s.poly
  · rintro rfl
    exact gfExp_one s.poly

/-- Settles O22, by whether `a` is zero; a logarithm is below 255, so that it fits the result byte. -/
theorem logReturnsTheIndex : Obligations.LogReturnsTheIndex := by
  refine ⟨illegalExactlyIf_rsvNotZero_or_fieldBNotZero (by decide), fun s a =>
    ⟨decodeWord_fields_unary (op := 0x07#8) rfl rfl, fun ha => ?_, ?_⟩⟩
  · obtain ⟨hlt, hexp⟩ := gfExp_gfLog s.poly ha
    have hbyte : (BitVec.ofNat 8 (gfLog s.poly a)).toNat = gfLog s.poly a := by
      rw [BitVec.toNat_ofNat, Nat.mod_eq_of_lt (by omega)]
    refine ⟨_, _, exec_log_nonzero s ha, s.returned_completeWith _, hbyte.trans_lt hlt, by rw [hbyte, hexp], ?_, ?_⟩
    · rintro rfl
      rw [gfLog_one]
    · rintro rfl
      rw [gfLog_gen]
  · rintro rfl
    exact ⟨_, rfl, s.failed_raise .zeroLog⟩

end Machine

end Sys2Proof

/-! ## The polynomial evaluator (R170 to R173) -/

namespace Sys2Proof

/-- A new leading coefficient adds its product with the next power of `x`. -/
theorem horner_append_singleton (p : Poly) (x : Byte) (c : List Byte) (d : Byte) :
    horner p x (c ++ [d]) = horner p x c ^^^ gfMul p d (gfPow p x c.length) := by
  induction c with
  | nil => simp [gfMul_one_right]
  | cons c₀ cs ih =>
    rw [List.cons_append, horner_cons, ih, gfMul_xor_left, gfMul_assoc, ← gfPow_succ, horner_cons, List.length_cons]
    ac_rfl

/-- Horner's method over the first `n` coefficients is the sum of their products with the powers of `x` (R171). -/
theorem horner_map_range (p : Poly) (x : Byte) (c : Nat → Byte) (n : Nat) : horner p x ((List.range n).map c) =
    (List.range n).foldl (fun r i => r ^^^ gfMul p (c i) (gfPow p x i)) 0x00#8 := by
  induction n with
  | zero => rfl
  | succ n ih => simp [List.range_succ, horner_append_singleton, ih]

/-- Settles O15: each coefficient adds its product with its power of `x`, which for a zero coefficient is zero. -/
theorem hornerIsTheSumOfPowers : Obligations.HornerIsTheSumOfPowers := by
  refine fun p x c => ⟨?_, by simp [horner_append_singleton]⟩
  have hc : c = (List.range c.length).map (c.getD · 0x00#8) :=
    List.ext_getElem (by simp) fun i hi _ => by simp [hi]
  rw [← horner_map_range, ← hc]

namespace Machine

/-! ### PEVAL -/

theorem exec_peval_param (x : Byte) (s : State) : exec (.peval x 0) s = .next (s.raise .param) := rfl

/-- PEVAL of an invalid range (R172). -/
theorem exec_peval_range {s : State} {x : Byte} {k : Nat} (hk : k ≠ 0) (h1 : memSize < s.lc.argA.toNat + k) :
    exec (.peval x k) s = .next (s.raise .range) := by
  simp [exec, execPeval, hk, ByteRange.not_valid_of (r := s.pevalInput k) h1]

/-- PEVAL past its checks whose reads meet a bus error and not the window (R172). -/
theorem exec_peval_busError {s : State} {x : Byte} {k : Nat} (hk : k ≠ 0) (h1 : s.lc.argA.toNat + k ≤ memSize)
    (hw : s.platform.NoWindow .read (s.pevalInput k)) (hb : s.platform.SomeBusError .read (s.pevalInput k)) :
    exec (.peval x k) s = .next (s.raise .busError) := by
  simp [exec, execPeval, hk, ByteRange.valid_of (r := s.pevalInput k) h1, Platform.anyWindow_one hw,
    Platform.not_allOk (List.mem_singleton.2 rfl) hb]

/-- PEVAL past its checks over ordinary memory (R172). -/
theorem exec_peval_plain {s : State} {x : Byte} {k : Nat} (hk : k ≠ 0) (h1 : s.lc.argA.toNat + k ≤ memSize)
    (hi : s.platform.Plain .read (s.pevalInput k)) :
    exec (.peval x k) s =
      .next (s.completeWith (horner s.poly x (Memory.readBytes s.mem s.lc.argA.toNat k))) := by
  have hbytes : s.portBytes (s.pevalInput k) = Memory.readBytes s.mem s.lc.argA.toNat k :=
    State.portBytes_plain fun a ha => (hi a ha).2.1
  simp [exec, execPeval, hk, ByteRange.valid_of (r := s.pevalInput k) h1, Platform.anyWindow_one hi.noWindow, hi.allOk,
    Platform.anyDevice_one hi, hbytes]

/-- Settles O23: the value that Horner's method returns is the sum of powers. -/
theorem pevalReturnsTheValue : Obligations.PevalReturnsTheValue := fun s x k hk h1 hi =>
  ⟨_, _, exec_peval_plain hk h1 hi, s.returned_completeWith _,
    horner_map_range s.poly x (fun i => Memory.read s.mem (s.lc.argA.toNat + i)) k⟩

/-- Settles O24, by the check or the phase that raises each error. -/
theorem pevalErrorsInOrder : Obligations.PevalErrorsInOrder := by
  refine fun s x k => ⟨?_, fun hk h1 => ?_, fun hk h1 hw hb => ?_⟩
  · rintro rfl
    exact ⟨_, exec_peval_param x s, s.failed_raise .param⟩
  · exact ⟨_, exec_peval_range hk h1, s.failed_raise .range⟩
  · exact ⟨_, exec_peval_busError hk h1 hw hb, s.failed_raise .busError⟩

/-! ### PEVALV -/

/-- The rows of PEVALV lie in its input range (R173). -/
theorem State.pevalvInput_holds_of_row {s : State} {k p a : Nat} (hp : p < s.lc.argN.toNat)
    (h : (s.pevalvRow k p).Holds a) : (s.pevalvInput k).Holds a := by
  have hend : (p + 1) * k ≤ s.lc.argN.toNat * k := Nat.mul_le_mul_right k hp
  simp only [State.pevalvRow, State.pevalvInput, ByteRange.Holds, Nat.add_mul] at *
  omega

@[simp] theorem State.length_pevalvValues (x : Byte) (k : Nat) (s : State) :
    (s.pevalvValues x k).length = s.lc.argN.toNat := by
  simp [State.pevalvValues]

/-- The bytes PEVALV computes over ordinary memory: its rows, evaluated at `x` (R173). -/
theorem State.pevalvValues_getElem {s : State} {x : Byte} {k : Nat} (hi : s.platform.Plain .read (s.pevalvInput k))
    (p : Nat) (hp : p < (s.pevalvValues x k).length) :
    (s.pevalvValues x k)[p] = horner s.poly x (Memory.readBytes s.mem (s.lc.argA.toNat + p * k) k) := by
  have hrow : s.portBytes (s.pevalvRow k p) = Memory.readBytes s.mem (s.lc.argA.toNat + p * k) k :=
    State.portBytes_plain fun a ha => (hi a (State.pevalvInput_holds_of_row (by simpa using hp) ha)).2.1
  simp only [State.pevalvValues, List.getElem_map, List.getElem_range, hrow]

/-- Settles O25: past its checks PEVALV writes its rows' values to ordinary memory. -/
theorem pevalvWritesTheValues : Obligations.PevalvWritesTheValues := fun s x k hwf hk hx h1 h2 hi ho ha =>
  ⟨_, (exec_pevalv_checked hk hx h1 h2).trans
      (State.outputPhase_plain (ByteRange.forall_one (r := s.pevalvInput k) hi) ho
        (ByteRange.forall_one (r := s.pevalvInput k) ha)),
    State.wrote_complete hwf h2 (s.length_pevalvValues x k) (State.pevalvValues_getElem hi)⟩

/-- PEVALV rejects `K = 0` and `x = 0` first (R173). -/
theorem State.pevalvCheck_param {x : Byte} {k : Nat} (s : State) (h : k = 0 ∨ x = 0x00#8) :
    s.pevalvCheck x k = some .param := by
  unfold State.pevalvCheck
  by_cases hk : k = 0
  · rw [if_pos hk]
  · rw [if_neg hk, if_pos (h.resolve_left hk)]

/-- PEVALV rejects an invalid input or output range next (R173). -/
theorem State.pevalvCheck_range {s : State} {x : Byte} {k : Nat} (hk : k ≠ 0) (hx : x ≠ 0x00#8)
    (h : (s.pevalvInput k).valid = false ∨ s.pevalvOutput.valid = false) : s.pevalvCheck x k = some .range := by
  rw [State.pevalvCheck, if_neg hk, if_neg hx]
  rcases h with h | h <;> simp [h]

/-- A check of PEVALV that fails ends it with its error, memory as before but for an open output range (R213, log 8). -/
theorem exec_pevalv_checkFailed {s : State} {x : Byte} {k : Nat} {e : ErrorKind} (hwf : Memory.wf s.mem = true)
    (h : s.pevalvCheck x k = some e) : ∃ t, exec (.pevalv x k) s = .next t ∧
      s.CheckFailed t e.code [s.pevalvInput k] s.pevalvOutput :=
  ⟨s.raiseChecked e [s.pevalvInput k] s.pevalvOutput, by simp only [exec, execPevalv, h, State.afterChecks],
    State.checkFailed hwf e _ _⟩

/-- Settles O26, by the first check of PEVALV that fails. -/
theorem pevalvErrorsInOrder : Obligations.PevalvErrorsInOrder := by
  refine fun s x k hwf => ⟨fun h => ?_, fun hk hx h => ?_⟩
  · exact exec_pevalv_checkFailed hwf (s.pevalvCheck_param h)
  · exact exec_pevalv_checkFailed hwf (State.pevalvCheck_range hk hx
      (h.imp (ByteRange.not_valid_of (r := s.pevalvInput k)) (ByteRange.not_valid_of (r := s.pevalvOutput))))

end Machine

end Sys2Proof

/-! ## INTERP: completion and errors (R190, R191, R193) -/

namespace Sys2Proof.Machine

/-! ### What INTERP does, by the first check that fails -/

/-- INTERP without a share (R191). -/
theorem exec_interp_insufficient {s : State} (h : s.shareCount = 0) :
    exec .interp s = .next (s.raise .insufficient) := if_pos (State.argN_eq_zero h)

/-- INTERP of a table that ends past the memory space (R193). -/
theorem exec_interp_tableRange {s : State} (h0 : s.shareCount ≠ 0) (h1 : memSize < s.lc.argA.toNat + 8 * s.shareCount) :
    exec .interp s = .next (s.raise .range) := by
  simp [exec, execInterp, State.argN_ne_zero h0, ByteRange.not_valid_of (r := s.interpTable) h1]

/-- INTERP of a table whose reads meet a bus error and not the window (R193). -/
theorem exec_interp_tableBusError {s : State} (h0 : s.shareCount ≠ 0)
    (h1 : s.lc.argA.toNat + 8 * s.shareCount ≤ memSize) (hw : s.platform.NoWindow .read s.interpTable)
    (hb : s.platform.SomeBusError .read s.interpTable) : exec .interp s = .next (s.raise .busError) := by
  simp [exec, execInterp, State.argN_ne_zero h0, ByteRange.valid_of (r := s.interpTable) h1, Platform.anyWindow_one hw,
    Platform.not_allOk (List.mem_singleton.2 rfl) hb]

theorem State.interpCheck_malformed {s : State} (h : s.TableReadable) (h1 : ¬ s.LengthsAgree) :
    s.interpCheck = some .malformed := by
  simpa [h1] using State.interpCheck_cases h

theorem State.interpCheck_duplicate {s : State} (h : s.TableReadable) (h1 : s.LengthsAgree) (h2 : ¬ s.XsDistinct) :
    s.interpCheck = some .duplicate := by
  simpa [h1, h2] using State.interpCheck_cases h

theorem State.interpCheck_range {s : State} (h : s.TableReadable) (h1 : s.LengthsAgree) (h2 : s.XsDistinct)
    (h3 : ¬ s.ShareRangesValid) : s.interpCheck = some .range := by
  simpa [h1, h2, h3] using State.interpCheck_cases h

/-- A check of INTERP over a readable table that fails ends it with its error, memory as before but for an open output range
(R213, log 8). -/
theorem exec_interp_checkFailed {s : State} {e : ErrorKind} (hwf : Memory.wf s.mem = true) (h : s.TableReadable)
    (he : s.interpCheck = some e) :
    ∃ t, exec .interp s = .next t ∧ s.CheckFailed t e.code s.shareInputs s.shareOutput :=
  ⟨s.raiseChecked e s.shareInputs s.shareOutput, by rw [exec_interp_readable h, he, State.afterChecks],
    State.checkFailed hwf e _ _⟩

/-- Settles O28, by the first check of INTERP that fails. -/
theorem interpErrorsInOrder : Obligations.InterpErrorsInOrder := fun s hwf =>
  ⟨fun h0 => ⟨_, exec_interp_insufficient h0, s.failed_raise .insufficient⟩,
    fun h0 h1 => ⟨_, exec_interp_tableRange h0 h1, s.failed_raise .range⟩,
    fun h0 h1 hw hb => ⟨_, exec_interp_tableBusError h0 h1 hw hb, s.failed_raise .busError⟩,
    fun h h1 => exec_interp_checkFailed hwf h (State.interpCheck_malformed h h1),
    fun h h1 h2 => exec_interp_checkFailed hwf h (State.interpCheck_duplicate h h1 h2),
    fun h h1 h2 h3 => exec_interp_checkFailed hwf h (State.interpCheck_range h h1 h2 h3)⟩

@[simp] theorem State.length_shareXs (s : State) : s.shareXs.length = s.shareCount := by simp [State.shareXs]

/-- There are 256 bytes, so distinct x-coordinates are 256 at most (R193). -/
theorem State.XsDistinct.shareCount_le {s : State} (h : s.XsDistinct) : s.shareCount ≤ 256 := by
  have hnodup : (s.shareXs.map BitVec.toNat).Nodup := (s.xsDistinct_iff.1 h).map fun _ _ => BitVec.eq_of_toNat_eq
  have hbytes : s.shareXs.map BitVec.toNat ⊆ List.range 256 := by
    intro n hn
    obtain ⟨x, -, rfl⟩ := List.mem_map.1 hn
    exact List.mem_range.2 x.isLt
  simpa using (hnodup.subperm hbytes).length_le

/-- Settles O31, by whether the lengths agree: more than 256 x-coordinates are not distinct. -/
theorem moreThan256SharesFail : Obligations.MoreThan256SharesFail := by
  intro s hwf h hcount
  have hdup : ¬ s.XsDistinct := fun hd => absurd hd.shareCount_le (by omega)
  by_cases h1 : s.LengthsAgree
  · obtain ⟨t, ht, hfail⟩ := exec_interp_checkFailed hwf h (State.interpCheck_duplicate h h1 hdup)
    exact ⟨t, ht, fun hn => absurd h1 hn, fun _ => hfail⟩
  · obtain ⟨t, ht, hfail⟩ := exec_interp_checkFailed hwf h (State.interpCheck_malformed h h1)
    exact ⟨t, ht, fun _ => hfail, fun h1' => absurd h1' h1⟩

/-- INTERP computes one byte for each position of its output range (R193). -/
theorem State.length_interpValues {s : State} (h : s.TableReadable) : s.interpValues.length = s.shareOutput.len := by
  simp [State.interpValues, State.interpLen_eq h, State.shareOutput]

/-- Settles O27: past its checks INTERP writes the bytes it computes to ordinary memory. -/
theorem interpWritesTheRecoveredBytes : Obligations.InterpWritesTheRecoveredBytes := by
  intro s hwf h h1 h2 h3 hi ho htable hshares
  obtain ⟨-, hvalid⟩ := id h3
  refine ⟨_, (exec_interp_checked h h1 h2 h3).trans (State.outputPhase_plain ?_ ho ?_),
    State.wrote_complete hwf hvalid (State.length_interpValues h) (State.interpValues_getElem h hi)⟩
  · exact State.forall_shareInputs (P := s.platform.Plain .read) h.plain hi
  · exact State.forall_shareInputs (P := s.shareOutput.Apart) htable hshares

/-- What is written is written byte by byte: the values outside the output range do not count. -/
theorem State.Wrote.congr {s t : State} {r : ByteRange} {f g : Nat → Byte} (h : s.Wrote t r f)
    (hfg : ∀ p, p < r.len → f p = g p) : s.Wrote t r g := by
  obtain ⟨herr, hresult, hbytes, hrest⟩ := h
  exact ⟨herr, hresult, fun p hp => (hbytes p hp).trans (hfg p hp), hrest⟩

end Sys2Proof.Machine

/-! ## The bytes as a field of Mathlib's

The laws of R143 make the bytes a field. It is given to Mathlib under a type of its own, since on machine words `+` and `*`
are the operations modulo 256. -/

namespace Sys2Proof

/-- An element of the field that the polynomial `p` makes. -/
structure Gf (p : Poly) where
  byte : Byte

/-- `0x00` has no inverse, so the search of `gfInv` ends with `0x00` (log 21). -/
theorem gfInv_zero (p : Poly) : gfInv p 0x00#8 = 0x00#8 := by
  simp [gfInv, List.find?_eq_none.2]

/-- The field of `p`: sums are R130's, products R131's and inverses R133's. -/
abbrev Gf.field (p : Poly) : Field (Gf p) :=
  letI : Add (Gf p) := ⟨fun a b => ⟨gfAdd a.byte b.byte⟩⟩
  letI : Mul (Gf p) := ⟨fun a b => ⟨gfMul p a.byte b.byte⟩⟩
  letI : Neg (Gf p) := ⟨id⟩
  letI : Inv (Gf p) := ⟨fun a => ⟨gfInv p a.byte⟩⟩
  letI : Zero (Gf p) := ⟨⟨0x00#8⟩⟩
  letI : One (Gf p) := ⟨⟨0x01#8⟩⟩
  Field.ofMinimalAxioms (Gf p)
    (fun a b c => congrArg Gf.mk (BitVec.xor_assoc a.byte b.byte c.byte))
    (fun _ => congrArg Gf.mk BitVec.zero_xor)
    (fun _ => congrArg Gf.mk BitVec.xor_self)
    (fun a b c => congrArg Gf.mk (gfMul_assoc p a.byte b.byte c.byte))
    (fun a b => congrArg Gf.mk (gfMul_comm p a.byte b.byte))
    (fun a => congrArg Gf.mk (gfMul_one_left p a.byte))
    (fun _ ha => congrArg Gf.mk (gfMul_gfInv p fun h0 => ha (congrArg Gf.mk h0)))
    (congrArg Gf.mk (gfInv_zero p))
    (fun a b c => congrArg Gf.mk (gfMul_xor_right p a.byte b.byte c.byte))
    ⟨⟨0x00#8⟩, ⟨0x01#8⟩, by simp⟩

/-- The map `φ` takes the bytes, with the operations of `p`, one-to-one into a field. -/
structure IsFieldMap (p : Poly) {F : Type} [Field F] (φ : Byte → F) : Prop where
  injective : Function.Injective φ
  map_xor : ∀ a b, φ (a ^^^ b) = φ a + φ b
  map_mul : ∀ a b, φ (gfMul p a b) = φ a * φ b
  map_inv : ∀ a, φ (gfInv p a) = (φ a)⁻¹
  map_one : φ 0x01#8 = 1

/-- The bytes are a field (R143). -/
theorem exists_isFieldMap (p : Poly) : ∃ (F : Type) (_ : Field F) (φ : Byte → F), IsFieldMap p φ :=
  letI := Gf.field p
  ⟨Gf p, this, Gf.mk, fun _ _ => congrArg Gf.byte, fun _ _ => rfl, fun _ _ => rfl, fun _ => rfl, rfl⟩

namespace IsFieldMap

variable {p : Poly} {F : Type} [Field F] {φ : Byte → F} (hφ : IsFieldMap p φ)
include hφ

theorem map_zero : φ 0x00#8 = 0 := by
  have h := hφ.map_xor 0x00#8 0x00#8
  rwa [BitVec.xor_self, left_eq_add] at h

/-- A sum of two elements is their difference (R130). -/
theorem map_xor_eq_sub (a b : Byte) : φ (a ^^^ b) = φ a - φ b := by
  have hneg : φ b + φ b = 0 := by rw [← hφ.map_xor, BitVec.xor_self, hφ.map_zero]
  rw [hφ.map_xor, sub_eq_add_neg, ← eq_neg_of_add_eq_zero_left hneg]

theorem map_foldl_xor {α : Type} (f : α → Byte) (l : List α) (a : Byte) :
    φ (l.foldl (fun r i => r ^^^ f i) a) = φ a + (l.map fun i => φ (f i)).sum := by
  induction l generalizing a with
  | nil => simp
  | cons i l ih => rw [List.foldl_cons, ih, hφ.map_xor, List.map_cons, List.sum_cons, add_assoc]

theorem map_foldl_mul {α : Type} (f : α → Byte) (l : List α) (a : Byte) :
    φ (l.foldl (fun r i => gfMul p r (f i)) a) = φ a * (l.map fun i => φ (f i)).prod := by
  induction l generalizing a with
  | nil => simp
  | cons i l ih => rw [List.foldl_cons, ih, hφ.map_mul, List.map_cons, List.prod_cons, mul_assoc]

/-- The weight of share `i` is the product of `x_j / (x_j - x_i)` over the other shares (R192). -/
theorem map_lagrangeWeight (x : Nat → Byte) {n i : Nat} (hi : i < n) :
    φ (lagrangeWeight p ((List.range n).map x) i) =
      ∏ j ∈ (Finset.range n).erase i, φ (x j) * (φ (x j) - φ (x i))⁻¹ := by
  have hothers : (List.range n).eraseIdx i = (List.range n).erase i := by
    have h := (List.nodup_range (n := n)).erase_getElem i (by simpa using hi)
    rwa [List.getElem_range, eq_comm] at h
  have hset : (Finset.range n).erase i = ((List.range n).erase i).toFinset := by
    ext j
    simp [List.nodup_range.mem_erase_iff]
  have hxi : ((List.range n).map x).getD i 0x00#8 = x i := by simp [hi]
  rw [hset, List.prod_toFinset _ (List.nodup_range.erase i), lagrangeWeight, hxi, List.eraseIdx_map, hothers,
    hφ.map_foldl_mul, hφ.map_one, one_mul, List.map_map]
  simp only [Function.comp_def, gfAdd_eq, hφ.map_mul, hφ.map_inv, hφ.map_xor_eq_sub]

end IsFieldMap

/-! ### Interpolation at zero (R192) -/

/-- A polynomial of degree below the number of its nodes has at zero the sum of its values times their weights. -/
theorem eval_zero_eq_sum_weights {F : Type} [Field F] {s : Finset Nat} {v : Nat → F} (hv : Set.InjOn v s)
    {f : Polynomial F} (hf : f.degree < s.card) :
    f.eval 0 = ∑ i ∈ s, f.eval (v i) * ∏ j ∈ s.erase i, v j * (v j - v i)⁻¹ := by
  have hfactor : ∀ i j, (Lagrange.basisDivisor (v i) (v j)).eval 0 = v j * (v j - v i)⁻¹ := by
    intro i j
    rw [← neg_sub (v i) (v j), inv_neg]
    simp [Lagrange.basisDivisor, mul_comm]
  conv_lhs => rw [Lagrange.eq_interpolate hv hf]
  simp only [Lagrange.interpolate_apply, Polynomial.eval_finsetSum, Polynomial.eval_mul, Polynomial.eval_C, Lagrange.basis,
    Polynomial.eval_prod, hfactor]

/-- The polynomial whose coefficients are bytes, taken into a field by `φ`. -/
noncomputable def coeffPolynomial {F : Type} [Field F] (φ : Byte → F) (c : List Byte) : Polynomial F :=
  c.foldr (fun a f => f * Polynomial.X + Polynomial.C (φ a)) 0

/-- Horner's method computes the value of the polynomial (R171). -/
theorem IsFieldMap.eval_coeffPolynomial {p : Poly} {F : Type} [Field F] {φ : Byte → F} (hφ : IsFieldMap p φ) (x : Byte)
    (c : List Byte) : (coeffPolynomial φ c).eval (φ x) = φ (horner p x c) := by
  induction c with
  | nil => simp [coeffPolynomial, hφ.map_zero]
  | cons a c ih =>
    rw [horner_cons, hφ.map_xor, hφ.map_mul, ← ih]
    simp [coeffPolynomial]

/-- A polynomial of `K` coefficients has degree below `K` (R170). -/
theorem degree_coeffPolynomial_lt {F : Type} [Field F] (φ : Byte → F) (c : List Byte) :
    (coeffPolynomial φ c).degree < c.length := by
  rw [Polynomial.degree_lt_iff_coeff_zero]
  induction c with
  | nil => simp [coeffPolynomial]
  | cons a c ih =>
    intro m hm
    obtain ⟨k, rfl⟩ : ∃ k, m = k + 1 := Nat.exists_eq_succ_of_ne_zero (by rintro rfl; simp at hm)
    have hk : (coeffPolynomial φ c).coeff k = 0 := ih k (by simpa using hm)
    simpa [coeffPolynomial, Polynomial.coeff_C] using hk

/-- The value at zero is the constant term. -/
theorem horner_at_zero (p : Poly) (c : List Byte) : horner p 0x00#8 c = c.headD 0x00#8 := by
  cases c <;> simp

/-- The weight of the share at zero: each factor is a quotient of an element by itself (R195). -/
theorem lagrangeWeight_at_zero (p : Poly) {x : Nat → Byte} {n i : Nat} (hi : i < n) (h0 : x i = 0x00#8)
    (hne : ∀ j, j < n → j ≠ i → x j ≠ x i) : lagrangeWeight p ((List.range n).map x) i = 0x01#8 := by
  obtain ⟨F, _, φ, hφ⟩ := exists_isFieldMap p
  refine hφ.injective ?_
  rw [hφ.map_lagrangeWeight x hi, hφ.map_one]
  refine Finset.prod_eq_one fun j hj => ?_
  obtain ⟨hji, hj⟩ := Finset.mem_erase.1 hj
  have hxj : φ (x j) ≠ φ (x i) := hφ.injective.ne (hne j (Finset.mem_range.1 hj) hji)
  rw [h0, hφ.map_zero] at hxj ⊢
  rw [sub_zero, mul_inv_cancel₀ hxj]

/-- Beside a share at zero every other weight is zero: it has the factor `0 / (0 - x)` (R195). -/
theorem lagrangeWeight_beside_zero (p : Poly) {x : Nat → Byte} {n i j : Nat} (hi : i < n) (hj : j < n) (hij : j ≠ i)
    (h0 : x i = 0x00#8) : lagrangeWeight p ((List.range n).map x) j = 0x00#8 := by
  obtain ⟨F, _, φ, hφ⟩ := exists_isFieldMap p
  refine hφ.injective ?_
  rw [hφ.map_lagrangeWeight x hj, hφ.map_zero]
  exact Finset.prod_eq_zero (Finset.mem_erase.2 ⟨hij.symm, Finset.mem_range.2 hi⟩) (by rw [h0, hφ.map_zero, zero_mul])

end Sys2Proof

/-! ## What INTERP recovers (R195, R196) -/

namespace Sys2Proof.Machine

/-- The recovered byte, in the field: the sum of the y-values times the weights (R193). -/
theorem State.map_recoveredByte {s : State} {F : Type} [Field F] {φ : Byte → F} (hφ : IsFieldMap s.poly φ) (q : Nat) :
    φ (s.recoveredByte q) = ∑ i ∈ Finset.range s.shareCount,
      φ (Memory.read s.mem (s.shareAddr i + q)) * φ (lagrangeWeight s.poly s.shareXs i) := by
  rw [State.recoveredByte, hφ.map_foldl_xor, hφ.map_zero, zero_add, ← List.sum_toFinset _ List.nodup_range,
    List.toFinset_range]
  simp only [hφ.map_mul]

/-- Shares with equal x-coordinates are the same share, whichever stands first in the table. -/
theorem State.XsDistinct.injOn {s : State} (h : s.XsDistinct) : Set.InjOn s.shareX (Finset.range s.shareCount) := by
  intro i hi j hj hx
  rw [Finset.coe_range, Set.mem_Iio] at hi hj
  rcases Nat.lt_trichotomy i j with hij | hij | hij
  · exact absurd hx (h i j hij hj)
  · exact hij
  · exact absurd hx.symm (h j i hij hi)

theorem State.weight_of_shareX_zero {s : State} (h : s.XsDistinct) {i : Nat} (hi : i < s.shareCount)
    (h0 : s.shareX i = 0x00#8) : lagrangeWeight s.poly s.shareXs i = 0x01#8 :=
  lagrangeWeight_at_zero s.poly hi h0 fun _ hj hij => h.injOn.ne (by simpa using hj) (by simpa using hi) hij

theorem State.weight_beside_shareX_zero {s : State} {i j : Nat} (hi : i < s.shareCount) (hj : j < s.shareCount)
    (hij : j ≠ i) (h0 : s.shareX i = 0x00#8) : lagrangeWeight s.poly s.shareXs j = 0x00#8 :=
  lagrangeWeight_beside_zero s.poly hi hj hij h0

/-- The share at zero is the only one whose y-value counts (R195). -/
theorem State.recoveredByte_of_shareX_zero {s : State} (h : s.XsDistinct) {i : Nat} (hi : i < s.shareCount)
    (h0 : s.shareX i = 0x00#8) (q : Nat) : s.recoveredByte q = Memory.read s.mem (s.shareAddr i + q) := by
  obtain ⟨F, _, φ, hφ⟩ := exists_isFieldMap s.poly
  refine hφ.injective ?_
  rw [State.map_recoveredByte hφ, Finset.sum_eq_single_of_mem i (Finset.mem_range.2 hi),
    State.weight_of_shareX_zero h hi h0, hφ.map_one, mul_one]
  intro j hj hij
  rw [State.weight_beside_shareX_zero hi (Finset.mem_range.1 hj) hij h0, hφ.map_zero, mul_zero]

/-- Settles O29: of the weights only that of the share at zero is not zero, so INTERP writes that share's y-values. -/
theorem shareAtZeroIsTheOutput : Obligations.ShareAtZeroIsTheOutput := by
  intro s i hwf h h1 h2 h3 hi ho htable hshares hlt h0
  obtain ⟨t, ht, hwrote⟩ := interpWritesTheRecoveredBytes s hwf h h1 h2 h3 hi ho htable hshares
  exact ⟨State.weight_of_shareX_zero h2 hlt h0, fun j hj hij => State.weight_beside_shareX_zero hlt hj hij h0, t, ht,
    hwrote.congr fun q _ => State.recoveredByte_of_shareX_zero h2 hlt h0 q⟩

/-- Where the y-values at a position are those of a polynomial with at most `M` coefficients, its constant term is recovered
(R196): the polynomial is its own interpolation. -/
theorem State.recoveredByte_of_horner {s : State} (h : s.XsDistinct) {c : List Byte} (hc : c.length ≤ s.shareCount)
    {q : Nat} (hy : ∀ i, i < s.shareCount → Memory.read s.mem (s.shareAddr i + q) = horner s.poly (s.shareX i) c) :
    s.recoveredByte q = c.headD 0x00#8 := by
  obtain ⟨F, _, φ, hφ⟩ := exists_isFieldMap s.poly
  refine hφ.injective ?_
  have hdegree : (coeffPolynomial φ c).degree < (Finset.range s.shareCount).card := by
    rw [Finset.card_range]
    exact (degree_coeffPolynomial_lt φ c).trans_le (by exact_mod_cast hc)
  calc φ (s.recoveredByte q)
      = ∑ i ∈ Finset.range s.shareCount, (coeffPolynomial φ c).eval (φ (s.shareX i)) *
          ∏ j ∈ (Finset.range s.shareCount).erase i, φ (s.shareX j) * (φ (s.shareX j) - φ (s.shareX i))⁻¹ := by
        rw [State.map_recoveredByte hφ]
        refine Finset.sum_congr rfl fun i hi => ?_
        rw [hy i (Finset.mem_range.1 hi), hφ.eval_coeffPolynomial, State.shareXs,
          hφ.map_lagrangeWeight s.shareX (Finset.mem_range.1 hi)]
    _ = (coeffPolynomial φ c).eval 0 :=
        (eval_zero_eq_sum_weights (v := φ ∘ s.shareX) (hφ.injective.comp_injOn h.injOn) hdegree).symm
    _ = φ (c.headD 0x00#8) := by rw [← hφ.map_zero, hφ.eval_coeffPolynomial, horner_at_zero]

/-- Settles O30: at each position the recovered byte is the constant term of the polynomial through the shares. -/
theorem interpRecoversTheSecret : Obligations.InterpRecoversTheSecret := by
  intro s k c hwf h h1 h2 h3 hi ho htable hshares _ hk hlen hy
  obtain ⟨t, ht, hwrote⟩ := interpWritesTheRecoveredBytes s hwf h h1 h2 h3 hi ho htable hshares
  exact ⟨t, ht, hwrote.congr fun q hq =>
    State.recoveredByte_of_horner h2 ((hlen q).trans_le hk) fun i hlt => hy i q hlt hq⟩

end Sys2Proof.Machine

/-! ## The invariant of every step (R210 to R212, R241, R243) -/

namespace Sys2Proof.Machine

theorem ErrorKind.code_le (e : ErrorKind) : e.code.toNat ≤ 9 := by cases e <;> decide

/-- A state in which a command has ended meets the invariant where its memory is canonical and `ERR` is a code of R212. -/
theorem State.inv_of_ended {s : State} (hwf : Memory.wf s.mem = true) (herr : s.err.toNat ≤ 9) (hb : s.busy = false)
    (hlc : s.lc = Latched.idle) (hs : s.spoiled = []) : s.Inv :=
  ⟨hwf, herr, fun _ => ⟨hlc, hs⟩, fun _ => hb⟩

/-- The latched command ends in a state that meets the invariant. -/
theorem State.runLatched_inv {s t : State} (hwf : Memory.wf s.mem = true) (h : s.runLatched = .next t) :
    t.Inv := by
  obtain ⟨hmem, -⟩ := State.runLatched_memory hwf h
  obtain ⟨u, vals, -, -, -, rfl | ⟨e, rfl, -⟩⟩ := State.runLatched_next h
  · exact State.inv_of_ended hmem (Nat.zero_le 9) rfl rfl rfl
  · exact State.inv_of_ended hmem e.code_le rfl rfl rfl

/-- A spoiled completion changes `RESULT`, memory and the draw counter, nothing else. -/
theorem State.spoilCompletion_eq (s u : State) : s.spoilCompletion u =
    { u with
      result := (s.spoilCompletion u).result
      mem := (s.spoilCompletion u).mem
      draws := (s.spoilCompletion u).draws } := by
  unfold State.spoilCompletion
  rw [State.fillFreeAll_eq]
  cases (s.latchedIsPeval && u.err == errOk) <;> rfl

theorem State.spoilCompletion_inv {s u : State} (hu : u.Inv) : (s.spoilCompletion u).Inv := by
  obtain ⟨hwf, herr, hidle, hreset⟩ := hu
  obtain ⟨hmem, -⟩ := State.spoilCompletion_memory (s := s) hwf
  rw [State.spoilCompletion_eq]
  exact ⟨hmem, herr, hidle, hreset⟩

theorem State.coreTurn_inv {s t : State} (hs : s.Inv) (h : s.coreTurn = .next t) : t.Inv := by
  obtain ⟨hwf, -⟩ := id hs
  rcases State.coreTurn_next h with ⟨-, rfl⟩ | ⟨-, -, hrun⟩ | ⟨-, -, u, hrun, rfl⟩
  · exact hs
  · exact State.runLatched_inv hwf hrun
  · exact State.spoilCompletion_inv (State.runLatched_inv hwf hrun)

/-- A reset meets the invariant, whether the reset input stays asserted or not (R241, R243). -/
theorem State.coreReset_inv {s : State} (hwf : Memory.wf s.mem = true) : s.coreReset.Inv ∧ s.assertReset.Inv := by
  obtain ⟨hmem, -⟩ := State.coreReset_memory hwf
  exact ⟨State.inv_of_ended hmem (Nat.zero_le 9) rfl rfl rfl, State.inv_of_ended hmem (Nat.zero_le 9) rfl rfl rfl⟩

/-- A register write with the reset input released keeps the invariant: an issue is the one that makes the core busy. -/
theorem State.regWrite_inv {s : State} (hs : s.Inv) (hr : s.inReset = false) (v : Word) (r : Reg) :
    (s.regWrite v r).Inv := by
  obtain ⟨hwf, herr, -⟩ := id hs
  rcases s.regWrite_cases v r with h | ⟨-, h⟩ | ⟨-, h⟩ | h | h | h <;> rw [h]
  case inr.inl =>
    rcases s.writeCtrl_cases v with ⟨-, hc⟩ | ⟨-, -, hc⟩ | ⟨-, -, hc⟩ <;> rw [hc]
    · exact (State.coreReset_inv hwf).1
    · exact hs
    · exact hs
  case inr.inr.inl =>
    rcases s.writeCmd_cases v with ⟨-, hc⟩ | ⟨-, hc⟩ <;> rw [hc]
    · exact hs
    · exact ⟨hwf, herr, nofun, fun hreset => absurd (hr.symm.trans hreset) (by decide)⟩
  all_goals exact hs

/-- A host's access keeps the invariant: it spoils a range only while a command runs (R84), and it reaches no register while
the reset input is asserted (R243). -/
theorem State.hostAccess_inv {s t : State} {h : HostAccess} (hs : s.Inv) (hn : s.hostAccess h = .next t) : t.Inv := by
  obtain ⟨hwf, herr, hidle, hreset⟩ := id hs
  rcases State.hostAccess_next hn with ⟨-, rfl⟩ | ⟨r, rfl⟩ | ⟨a, -, hb, -, rfl⟩ | ⟨a, -, rfl⟩ | ⟨a, v, -, rfl⟩ |
    ⟨addr, w, v, r, -, hr, rfl⟩
  · exact hs
  · exact hs
  · exact ⟨hwf, herr, fun hfalse => absurd (hb.symm.trans hfalse) (by decide), hreset⟩
  · exact hs
  · refine ⟨Memory.wf_write hwf a.isLt v, herr, fun (hb : s.busy = false) => ⟨(hidle hb).1, ?_⟩, hreset⟩
    simp [State.writeBreaksDuty, hb, (hidle hb).2]
  · obtain ⟨-, -, -, -, -, -, hreleased, -⟩ := State.registerAt_ok hr
    exact State.regWrite_inv hs hreleased v r

/-- Settles O60, by the agent that moves. -/
theorem everyStepKeepsTheInvariant : Obligations.EveryStepKeepsTheInvariant := by
  intro s t hs h
  obtain ⟨hwf, herr, hidle, -⟩ := id hs
  rcases step_next h with ⟨-, h⟩ | ⟨rest, -, h⟩ | ⟨a, rest, -, h⟩ | ⟨rest, -, rfl⟩ | ⟨rest, -, rfl⟩
  · exact State.coreTurn_inv hs h
  · exact State.coreTurn_inv (s := { s with inputs := rest }) hs h
  · exact State.hostAccess_inv (s := { s with inputs := rest }) hs h
  · exact (State.coreReset_inv (s := { s with inputs := rest }) hwf).2
  · exact ⟨hwf, herr, hidle, nofun⟩

/-- Settles O43, by the turn of an idle core. -/
theorem idleCoreDoesNothing : Obligations.IdleCoreDoesNothing := by
  intro s s' hb hmove
  obtain ⟨hbusy, -, -⟩ := hmove.kept
  rw [step_core hmove, State.coreTurn_idle (hbusy.trans hb)]

end Sys2Proof.Machine

/-! ## What decides how a command ends: its inputs (R218) -/

namespace Sys2Proof.Machine

/-- A second state with the parameters, the latched command and the draw counter of the first, and with its bytes in the
ranges: what a command with these input ranges depends on (R218). -/
structure State.SameInputs (rs : List ByteRange) (s u : State) : Prop where
  poly     : u.poly = s.poly
  platform : u.platform = s.platform
  lc       : u.lc = s.lc
  draws    : u.draws = s.draws
  mem      : ∀ r ∈ rs, ∀ a, r.Holds a → Memory.read u.mem a = Memory.read s.mem a

theorem State.SameInputs.refl (rs : List ByteRange) (s : State) : s.SameInputs rs s :=
  ⟨rfl, rfl, rfl, rfl, fun _ _ _ _ => rfl⟩

section
variable {rs : List ByteRange} {s u : State} (h : s.SameInputs rs u)
include h

theorem State.SameInputs.portByte {r : ByteRange} (hr : r ∈ rs) {a : Nat} (ha : r.Holds a) :
    u.portByte a = s.portByte a := by
  simp only [State.portByte, h.platform, h.draws, h.mem r hr a ha]

theorem State.SameInputs.portBytes {r q : ByteRange} (hr : r ∈ rs) (hq : ∀ a, q.Holds a → r.Holds a) :
    u.portBytes q = s.portBytes q :=
  List.map_congr_left fun a ha => h.portByte hr (hq a ((q.mem_addrs a).1 ha))

theorem State.SameInputs.outputIsOpen (ins : List ByteRange) (out : ByteRange) :
    u.outputIsOpen ins out = s.outputIsOpen ins out := by
  simp only [State.outputIsOpen, h.platform]

end

/-- A command that writes no memory: its inputs decide whether it raises an error of R212's list for it, or succeeds with
which `RESULT`, or stops at the window. -/
theorem exec_scalar_cases {i : Instr} (hi : ¬ WritesMemory i) (s : State) :
    (∃ e : ErrorKind, e.code.toNat ∈ mayReport i ∧
      ∀ u, s.SameInputs (s.inputsOf i) u → exec i u = .next (u.raise e)) ∨
    (∃ r : Byte, ∀ u, s.SameInputs (s.inputsOf i) u → ∃ v, exec i u = .next v ∧ v.err = errOk ∧ v.result = r) ∨
    exec i s = .fault .windowThroughMemoryPort := by
  have succeeds : ∀ r : Byte, (∀ u, s.SameInputs (s.inputsOf i) u → exec i u = .next (u.completeWith r)) →
      ∃ r : Byte, ∀ u, s.SameInputs (s.inputsOf i) u → ∃ v, exec i u = .next v ∧ v.err = errOk ∧ v.result = r :=
    fun r hr => ⟨r, fun u hu => ⟨_, hr u hu, rfl, rfl⟩⟩
  cases i with
  | add a b => exact .inr (.inl (succeeds (gfAdd a b) fun u hu => rfl))
  | mul a b => exact .inr (.inl (succeeds (gfMul s.poly a b) fun u hu => by rw [← hu.poly]; rfl))
  | pow a e => exact .inr (.inl (succeeds (gfPow s.poly a e) fun u hu => by rw [← hu.poly]; rfl))
  | exp e => exact .inr (.inl (succeeds (gfExp s.poly e) fun u hu => by rw [← hu.poly]; rfl))
  | div a b =>
    by_cases hb : b = 0x00#8
    · exact .inl ⟨.zeroInverse, by simp [mayReport, ErrorKind.code], fun u _ => if_pos hb⟩
    · exact .inr (.inl (succeeds (gfDiv s.poly a b) fun u hu => by rw [← hu.poly]; exact if_neg hb))
  | inv a =>
    by_cases ha : a = 0x00#8
    · exact .inl ⟨.zeroInverse, by simp [mayReport, ErrorKind.code], fun u _ => if_pos ha⟩
    · exact .inr (.inl (succeeds (gfInv s.poly a) fun u hu => by rw [← hu.poly]; exact if_neg ha))
  | log a =>
    by_cases ha : a = 0x00#8
    · exact .inl ⟨.zeroLog, by simp [mayReport, ErrorKind.code], fun u _ => if_pos ha⟩
    · exact .inr (.inl (succeeds (BitVec.ofNat 8 (gfLog s.poly a)) fun u hu => by rw [← hu.poly]; exact if_neg ha))
  | peval x k =>
    have hin : ∀ u, s.SameInputs (s.inputsOf (.peval x k)) u → u.pevalInput k = s.pevalInput k :=
      fun u hu => by rw [State.pevalInput, hu.lc]; rfl
    by_cases hk : k = 0
    · exact .inl ⟨.param, by simp [mayReport, ErrorKind.code], fun u _ => if_pos hk⟩
    by_cases hv : (s.pevalInput k).valid = true
    swap
    · exact .inl ⟨.range, by simp [mayReport, ErrorKind.code], fun u hu => by simp [exec, execPeval, hk, hin u hu, hv]⟩
    by_cases hw : s.platform.anyWindow .read [s.pevalInput k] = true
    · exact .inr (.inr (by simp [exec, execPeval, hk, hv, hw]))
    by_cases hok : s.platform.allOk .read [s.pevalInput k] = true
    swap
    · exact .inl ⟨.busError, by simp [mayReport, ErrorKind.code],
        fun u hu => by simp [exec, execPeval, hk, hin u hu, hu.platform, hv, hw, hok]⟩
    by_cases hd : s.platform.anyDevice [s.pevalInput k] = true
    · exact .inr (.inl ⟨Config.freeResult s.draws, fun u hu => ⟨u.freeScalar.complete,
        by simp [exec, execPeval, hk, hin u hu, hu.platform, hv, hw, hok, hd], rfl, by simp [hu.draws]⟩⟩)
    · refine .inr (.inl (succeeds (horner s.poly x (s.portBytes (s.pevalInput k))) fun u hu => ?_))
      have hbytes := hu.portBytes (List.mem_singleton.2 rfl) (q := s.pevalInput k) fun _ ha => ha
      simp [exec, execPeval, hk, hin u hu, hu.platform, hu.poly, hbytes, hv, hw, hok, hd]
  | pevalv x k => exact absurd (.inl ⟨x, k, rfl⟩) hi
  | interp => exact absurd (.inr rfl) hi

/-- The table of INTERP is named by `LC`. -/
theorem State.interpTable_congr {s u : State} (hlc : u.lc = s.lc) : u.interpTable = s.interpTable := by
  rw [State.interpTable, hlc]
  rfl

/-- INTERP until it has read its table goes by `LC` and the platform only: it ends with an error, it stops at the window, or
it goes on with the checks of its shares (R193). -/
theorem exec_interp_by_latched (s : State) :
    (s.interpReadsTable = false ∧ ∃ e : ErrorKind, e.code.toNat ∈ mayReport .interp ∧
      ∀ u : State, u.lc = s.lc → u.platform = s.platform → exec .interp u = .next (u.raise e)) ∨
    exec .interp s = .fault .windowThroughMemoryPort ∨
    (s.interpReadsTable = true ∧ ∀ u : State, u.lc = s.lc → u.platform = s.platform →
      exec .interp u = u.afterTable.afterChecks u.interpCheck u.interpRanges u.interpOutput u.interpValues) := by
  by_cases h0 : s.lc.argN = 0#16
  · exact .inl ⟨by simp [State.interpReadsTable, h0], .insufficient, by decide,
      fun u hlc _ => by simp [exec, execInterp, hlc, h0]⟩
  by_cases h1 : s.interpTable.valid = true
  swap
  · exact .inl ⟨by simp [State.interpReadsTable, h1], .range, by decide,
      fun u hlc _ => by simp [exec, execInterp, State.interpTable_congr hlc, hlc, h0, h1]⟩
  by_cases hw : s.platform.anyWindow .read [s.interpTable] = true
  · exact .inr (.inl (by simp [exec, execInterp, h0, h1, hw]))
  by_cases h2 : s.platform.allOk .read [s.interpTable] = true
  swap
  · exact .inl ⟨by simp [State.interpReadsTable, h2], .busError, by decide,
      fun u hlc hpl => by simp [exec, execInterp, State.interpTable_congr hlc, hlc, hpl, h0, h1, hw, h2]⟩
  · exact .inr (.inr ⟨State.interpReadsTable_of h0 h1 h2,
      fun u hlc hpl => by simp [exec, execInterp, State.interpTable_congr hlc, hlc, hpl, h0, h1, hw, h2]⟩)

/-! ## The errors of every command (R212, R214, R215) -/

/-- Settles O32: past its checks, PEVALV or INTERP that meets a bus error opens its output range. -/
theorem lateBusErrorLeavesTheOutputOpen : Obligations.LateBusErrorLeavesTheOutputOpen := by
  refine ⟨fun s x k hwf hk hx h1 h2 hi ho hb => ?_, fun s hwf htable h1 h2 h3 hi ho hb => ?_⟩
  · refine ⟨_, (exec_pevalv_checked hk hx h1 h2).trans (State.outputPhase_busError
      (ByteRange.forall_one (r := s.pevalvInput k) hi) ho (hb.imp_left fun hb => ?_)), (State.endedOpen hwf _).1 .busError⟩
    exact ⟨s.pevalvInput k, List.mem_singleton.2 rfl, hb⟩
  · refine ⟨_, (exec_interp_checked htable h1 h2 h3).trans (State.outputPhase_busError
      (State.forall_shareInputs htable.plain.noWindow hi) ho (hb.imp_left fun ⟨i, hlt, hb⟩ => ?_)),
      (State.endedOpen hwf _).1 .busError⟩
    exact ⟨_, State.shareRange_mem_inputs hlt, hb⟩

theorem zero_mem_mayReport (i : Instr) : 0x00 ∈ mayReport i := by cases i <;> simp [mayReport]

/-- The commands that write memory report BUS_ERROR of their output phase (R212, R215). -/
theorem WritesMemory.busError_mem {i : Instr} (h : WritesMemory i) : 0x09 ∈ mayReport i := by
  rcases h with ⟨x, k, rfl⟩ | rfl <;> simp [mayReport]

theorem State.pevalvCheck_mayReport {s : State} {x : Byte} {k : Nat} {e : ErrorKind} (h : s.pevalvCheck x k = some e) :
    e.code.toNat ∈ mayReport (.pevalv x k) := by
  unfold State.pevalvCheck at h
  repeat' split at h
  all_goals cases h <;> simp [mayReport, ErrorKind.code]

theorem State.interpCheck_mayReport {s : State} {e : ErrorKind} (h : s.interpCheck = some e) :
    e.code.toNat ∈ mayReport .interp := by
  unfold State.interpCheck at h
  repeat' split at h
  all_goals cases h <;> decide

/-- The checks and the output phase of a command report what it may report where its checks do. -/
theorem State.afterChecks_mayReport {i : Instr} {failed : Option ErrorKind} {ins : List ByteRange} {out : ByteRange}
    {vals : List Byte} {s t : State} (hi : WritesMemory i) (hfail : ∀ e, failed = some e → e.code.toNat ∈ mayReport i)
    (h : s.afterChecks failed ins out vals = .next t) : t.err.toNat ∈ mayReport i := by
  obtain ⟨-, hchecked, hpassed⟩ := State.afterChecks_err h
  cases failed with
  | some e =>
    rw [hchecked e rfl]
    exact hfail e rfl
  | none =>
    rcases hpassed rfl with herr | herr <;> rw [herr]
    · exact zero_mem_mayReport i
    · exact hi.busError_mem

/-- Settles O36: a command that writes no memory by its cases, PEVALV and INTERP by what their checks raise. -/
theorem commandsReportOnlyTheirErrors : Obligations.CommandsReportOnlyTheirErrors := by
  intro i s t h
  by_cases hi : WritesMemory i
  · rcases id hi with ⟨x, k, rfl⟩ | rfl
    · exact State.afterChecks_mayReport hi (fun _ => State.pevalvCheck_mayReport) h
    · rcases exec_interp_by_latched s with ⟨-, e, he, hc⟩ | hc | ⟨-, hc⟩
      · cases (hc s rfl rfl).symm.trans h
        exact he
      · cases hc.symm.trans h
      · exact State.afterChecks_mayReport hi (fun _ => State.interpCheck_mayReport) ((hc s rfl rfl).symm.trans h)
  · have hs := State.SameInputs.refl (s.inputsOf i) s
    rcases exec_scalar_cases hi s with ⟨e, he, hc⟩ | ⟨r, hc⟩ | hc
    · cases (hc s hs).symm.trans h
      exact he
    · obtain ⟨v, hv, herr, -⟩ := hc s hs
      cases hv.symm.trans h
      rw [herr]
      exact zero_mem_mayReport i
    · cases hc.symm.trans h

/-- An error that leaves memory as before is a failed check of a command with an empty output range. -/
theorem State.Failed.checkFailed {s t : State} {c : Byte} (h : s.Failed t c) (ins : List ByteRange) {out : ByteRange}
    (hout : ∀ a, ¬ out.Holds a) : s.CheckFailed t c ins out :=
  ⟨fun _ => h, fun _ => h.endedOpen hout⟩

/-- The checks and the output phase end with an error other than BUS_ERROR only where a check has failed. -/
theorem State.afterChecks_checkFailed {failed : Option ErrorKind} {ins : List ByteRange} {out : ByteRange}
    {vals : List Byte} {s t : State} (hwf : Memory.wf s.mem = true) (h : s.afterChecks failed ins out vals = .next t)
    (hok : t.err ≠ 0x00#8) (hbus : t.err ≠ 0x09#8) : s.CheckFailed t t.err ins out := by
  cases failed with
  | some e =>
    cases h
    rw [State.raiseChecked_err]
    exact State.checkFailed hwf e ins out
  | none =>
    obtain ⟨-, -, hpassed⟩ := State.afterChecks_err h
    rcases hpassed rfl with herr | herr
    · exact absurd herr hok
    · exact absurd herr hbus

/-- The reads of the table change the draw counter only, so a check that fails after them fails from the state before. -/
theorem State.CheckFailed.of_afterTable {s t : State} {c : Byte} {ins : List ByteRange} {out : ByteRange}
    (h : s.afterTable.CheckFailed t c ins out) : s.CheckFailed t c ins out := by
  have hopen : s.afterTable.OutputOpen ins out ↔ s.OutputOpen ins out := by simp [State.OutputOpen]
  obtain ⟨hclosed, hfree⟩ := h
  refine ⟨fun ho => ?_, fun ho => (hfree (hopen.2 ho)).of_afterTable⟩
  obtain ⟨herr, hresult, hmem, hframe⟩ := hclosed (mt hopen.1 ho)
  rw [State.afterTable_eq] at hframe hresult hmem
  exact ⟨herr, hresult, hmem, { hframe with }⟩

/-- An error leaves `RESULT` (R211). -/
theorem exec_error_result {i : Instr} {s t : State} (h : exec i s = .next t) (herr : t.err ≠ 0x00#8) :
    t.result = s.result := by
  obtain ⟨u, vals, -, -, -, rfl | ⟨e, rfl, hresult⟩⟩ := exec_next h
  · exact absurd rfl herr
  · exact hresult

/-- An error other than BUS_ERROR is a failed check of the command on its ranges (R214, log 8). -/
theorem exec_checkFailed {i : Instr} {s t : State} (hwf : Memory.wf s.mem = true) (h : exec i s = .next t)
    (hok : t.err ≠ 0x00#8) (hbus : t.err ≠ 0x09#8) : s.CheckFailed t t.err (s.inputsOf i) (s.outputOf i) := by
  by_cases hi : WritesMemory i
  · rcases hi with ⟨x, k, rfl⟩ | rfl
    · exact State.afterChecks_checkFailed hwf h hok hbus
    · rcases exec_interp_cases s with ⟨hread, e, he⟩ | hf | ⟨hread, hc⟩
      · cases he.symm.trans h
        simp only [State.outputOf, hread, cond_false]
        exact (State.failed_raise s e).checkFailed _ (ByteRange.not_holds_empty 0)
      · cases hf.symm.trans h
      · simp only [State.inputsOf, State.outputOf, hread, cond_true]
        exact (State.afterChecks_checkFailed (by simpa using hwf) (hc.symm.trans h) hok hbus).of_afterTable
  · rw [s.outputOf_of_not_writesMemory hi]
    exact State.Failed.checkFailed
      ⟨rfl, exec_error_result h hok, exec_mem_of_not_writesMemory hi h, (exec_frame hwf h).1⟩ _ (ByteRange.not_holds_empty 0)

/-- INTERP that meets a bus error on its table leaves memory (R193, R214). -/
theorem exec_interp_tableBusError_mem {s t : State} (h : exec .interp s = .next t)
    (hb : s.platform.SomeBusError .read s.interpTable) : t.mem = s.mem := by
  rcases exec_interp_cases s with ⟨-, e, he⟩ | hf | ⟨hread, -⟩
  · cases he.symm.trans h
    rfl
  · cases hf.symm.trans h
  · simp [State.interpReadsTable, Platform.not_allOk (List.mem_singleton.2 rfl) hb] at hread

/-- Settles O37, by what an error leaves of `RESULT` (R211), a failed check of memory (log 8), and a bus error of PEVAL and of
INTERP's table of memory. -/
theorem earlyErrorsArePrecise : Obligations.EarlyErrorsArePrecise := by
  intro i s t hwf h hok
  refine ⟨(exec_frame hwf h).1, exec_error_result h hok, exec_checkFailed hwf h hok, ?_, ?_⟩
  · rintro x k rfl
    exact exec_mem_of_not_writesMemory (by simp [WritesMemory]) h
  · rintro rfl hb
    exact exec_interp_tableBusError_mem h hb

/-! ## A command depends on its inputs only (R218) -/

section
variable {rs : List ByteRange} {s u : State} (h : s.SameInputs rs u)
include h

/-- The draw for the reads of INTERP's table is the same one (log 12). -/
theorem State.SameInputs.afterTable : s.afterTable.SameInputs rs u.afterTable where
  poly := by simpa using h.poly
  platform := by simpa using h.platform
  lc := by simpa using h.lc
  draws := by simp only [State.afterTable_eq, State.interpTable_congr h.lc, h.platform, h.draws]
  mem := by simpa using h.mem

theorem State.SameInputs.pevalvValues (x : Byte) {k : Nat} (hr : s.pevalvInput k ∈ rs) :
    u.pevalvValues x k = s.pevalvValues x k := by
  simp only [State.pevalvValues, State.pevalvRow, h.poly, h.lc]
  exact List.map_congr_left fun p hp => congrArg (horner s.poly x)
    (h.portBytes hr (q := s.pevalvRow k p) fun a ha => State.pevalvInput_holds_of_row (List.mem_range.1 hp) ha)

theorem State.SameInputs.pevalvInput (k : Nat) : u.pevalvInput k = s.pevalvInput k := by
  simp only [State.pevalvInput, h.lc]

theorem State.SameInputs.pevalvOutput : u.pevalvOutput = s.pevalvOutput := by
  simp only [State.pevalvOutput, h.lc]

theorem State.SameInputs.pevalvCheck (x : Byte) (k : Nat) : u.pevalvCheck x k = s.pevalvCheck x k := by
  rw [State.pevalvCheck, h.pevalvInput, h.pevalvOutput, State.pevalvCheck]

section
variable (htable : s.interpTable ∈ rs)
include htable

theorem State.SameInputs.descriptorAt {i : Nat} (hi : i < s.lc.argN.toNat) :
    u.descriptorAt (s.lc.argA.toNat + 8 * i) = s.descriptorAt (s.lc.argA.toNat + 8 * i) := by
  have hbyte : ∀ a, s.lc.argA.toNat + 8 * i ≤ a → a < s.lc.argA.toNat + 8 * i + 8 → u.portByte a = s.portByte a :=
    fun a hlo hhi => h.portByte htable (by simp only [State.interpTable, ByteRange.Holds]; omega)
  simp (disch := omega) only [State.descriptorAt, State.portHalf, State.portWord, hbyte]

theorem State.SameInputs.interpShares : u.interpShares = s.interpShares := by
  simp only [State.interpShares, h.lc]
  exact List.map_congr_left fun i hi => h.descriptorAt htable (List.mem_range.1 hi)

theorem State.SameInputs.interpLen : u.interpLen = s.interpLen := by
  simp only [State.interpLen, h.interpShares htable]

theorem State.SameInputs.interpXs : u.interpXs = s.interpXs := by
  simp only [State.interpXs, h.interpShares htable]

theorem State.SameInputs.interpInputs : u.interpInputs = s.interpInputs := by
  simp only [State.interpInputs, h.interpShares htable, h.interpLen htable]

theorem State.SameInputs.interpRanges : u.interpRanges = s.interpRanges := by
  simp only [State.interpRanges, h.interpInputs htable, State.interpTable_congr h.lc]

theorem State.SameInputs.interpOutput : u.interpOutput = s.interpOutput := by
  simp only [State.interpOutput, h.interpLen htable, h.lc]

theorem State.SameInputs.interpCheck : u.interpCheck = s.interpCheck := by
  rw [State.interpCheck, State.lengthsDiffer, h.interpShares htable, h.interpLen htable, h.interpXs htable,
    h.interpInputs htable, h.interpOutput htable]
  rfl

theorem State.SameInputs.interpValues (hy : ∀ r ∈ s.interpInputs, r ∈ rs) : u.interpValues = s.interpValues := by
  simp only [State.interpValues, h.interpShares htable, h.interpLen htable, h.interpXs htable, h.poly]
  refine List.map_congr_left fun p hp => ?_
  have hys : s.interpShares.map (fun d => u.portByte (d.yAddr.toNat + p)) =
      s.interpShares.map (fun d => s.portByte (d.yAddr.toNat + p)) :=
    List.map_congr_left fun d hd => h.portByte (hy (d.yRange s.interpLen) (List.mem_map_of_mem hd))
      ⟨Nat.le_add_right _ _, Nat.add_lt_add_left (List.mem_range.1 hp) _⟩
  rw [hys]

end

end

theorem ErrorKind.code_ne_zero (e : ErrorKind) : e.code ≠ 0x00#8 := by cases e <;> decide

/-- The same bytes written to two memories read the same. -/
theorem Memory.read_writeBytes_alike {m n : Memory} (hm : Memory.wf m = true) (hn : Memory.wf n = true) {vs : List Byte}
    {base a : Nat} (hb : base + vs.length ≤ memSize) (ha : base ≤ a ∧ a < base + vs.length) :
    Memory.read (Memory.writeBytes n base vs) a = Memory.read (Memory.writeBytes m base vs) a := by
  rw [Memory.read_writeBytes vs hm hb, Memory.read_writeBytes vs hn hb, dif_pos ha, dif_pos ha]

/-- The output phase of two states with the same inputs and values: the same `ERR`, and with success the same output. -/
theorem State.outputPhase_alike {rs ins : List ByteRange} {out : ByteRange} {vals : List Byte} {s u t : State}
    (hin : s.SameInputs rs u) (hs : Memory.wf s.mem = true) (hu : Memory.wf u.mem = true)
    (hv : out.base + out.len ≤ memSize) (hl : vals.length = out.len) (h : s.outputPhase ins out vals = .next t) :
    ∃ v, u.outputPhase ins out vals = .next v ∧ v.err = t.err ∧
      (t.err = 0x00#8 → ∀ a, out.Holds a → Memory.read v.mem a = Memory.read t.mem a) := by
  have written : ∀ {bytes : List Byte}, bytes.length = out.len → ∀ a, out.Holds a →
      Memory.read (Memory.writeBytes u.mem out.base bytes) a = Memory.read (Memory.writeBytes s.mem out.base bytes) a :=
    fun hlen a ha => Memory.read_writeBytes_alike hs hu (hlen ▸ hv) (hlen ▸ ha)
  simp only [State.outputPhase, hin.platform, hin.outputIsOpen] at h ⊢
  split_ifs at h ⊢ <;> cases h
  · exact ⟨_, rfl, rfl, fun hok => absurd hok (ErrorKind.code_ne_zero .busError)⟩
  · refine ⟨_, rfl, rfl, fun _ a ha => ?_⟩
    simp only [State.complete_mem, State.fillFree_mem, hin.draws]
    exact written (by simp [ByteRange.clip_of_valid hv]) a ha
  · exact ⟨_, rfl, rfl, fun _ => written hl⟩

/-- The checks and the output phase of two states with the same inputs and values. -/
theorem State.afterChecks_alike {rs ins : List ByteRange} {failed : Option ErrorKind} {out : ByteRange} {vals : List Byte}
    {s u t : State} (hin : s.SameInputs rs u) (hs : Memory.wf s.mem = true) (hu : Memory.wf u.mem = true)
    (hv : failed = none → out.base + out.len ≤ memSize) (hl : vals.length = out.len)
    (h : s.afterChecks failed ins out vals = .next t) :
    ∃ v, u.afterChecks failed ins out vals = .next v ∧ v.err = t.err ∧
      (t.err = 0x00#8 → ∀ a, out.Holds a → Memory.read v.mem a = Memory.read t.mem a) := by
  cases failed with
  | some e =>
    cases h
    exact ⟨_, rfl, by simp, fun hok => absurd (by simpa using hok) e.code_ne_zero⟩
  | none => exact State.outputPhase_alike hin hs hu (hv rfl) hl h

/-- PEVALV and INTERP leave `RESULT`, whatever they end with. -/
theorem exec_result_of_writesMemory {i : Instr} {s t : State} (hi : WritesMemory i) (h : exec i s = .next t) :
    t.result = s.result := by
  rcases hi with ⟨x, k, rfl⟩ | rfl
  · exact (State.afterChecks_err h).1
  · rcases exec_interp_cases s with ⟨-, e, he⟩ | hf | ⟨-, hc⟩
    · cases he.symm.trans h
      rfl
    · cases hf.symm.trans h
    · simpa using (State.afterChecks_err (hc.symm.trans h)).1

/-- PEVALV in two states with the same inputs. -/
theorem exec_pevalv_alike {x : Byte} {k : Nat} {s u t : State} (hin : s.SameInputs [s.pevalvInput k] u)
    (hs : Memory.wf s.mem = true) (hu : Memory.wf u.mem = true) (h : exec (.pevalv x k) s = .next t) :
    ∃ v, exec (.pevalv x k) u = .next v ∧ v.err = t.err ∧
      (t.err = 0x00#8 → ∀ a, s.pevalvOutput.Holds a → Memory.read v.mem a = Memory.read t.mem a) := by
  rw [exec, execPevalv, hin.pevalvCheck, hin.pevalvInput, hin.pevalvOutput, hin.pevalvValues x (List.mem_singleton.2 rfl)]
  exact State.afterChecks_alike hin hs hu State.pevalvCheck_none (s.length_pevalvValues x k) h

/-- INTERP in two states with the same inputs: its table is the same, and so are the ranges that it names. -/
theorem exec_interp_alike {s u t : State} (hin : s.SameInputs (s.inputsOf .interp) u) (hs : Memory.wf s.mem = true)
    (hu : Memory.wf u.mem = true) (h : exec .interp s = .next t) :
    ∃ v, exec .interp u = .next v ∧ v.err = t.err ∧
      (t.err = 0x00#8 → ∀ a, (s.outputOf .interp).Holds a → Memory.read v.mem a = Memory.read t.mem a) := by
  rcases exec_interp_by_latched s with ⟨-, e, -, hc⟩ | hf | ⟨hread, hc⟩
  · cases (hc s rfl rfl).symm.trans h
    exact ⟨_, hc u hin.lc hin.platform, rfl, fun hok => absurd hok e.code_ne_zero⟩
  · cases hf.symm.trans h
  · simp only [State.inputsOf, State.outputOf, hread, cond_true] at hin ⊢
    have htable : s.interpTable ∈ s.interpRanges := List.mem_cons_self
    rw [hc u hin.lc hin.platform, hin.interpCheck htable, hin.interpRanges htable, hin.interpOutput htable,
      hin.interpValues htable fun r hr => List.mem_cons_of_mem _ hr]
    exact State.afterChecks_alike hin.afterTable (by simpa using hs) (by simpa using hu) State.interpCheck_none
      (by simp [State.interpValues, State.interpOutput]) ((hc s rfl rfl).symm.trans h)

/-- Settles O39: PEVALV and INTERP through their checks and output phase, every other command by its cases. -/
theorem commandsDependOnlyOnTheirInputs : Obligations.CommandsDependOnlyOnTheirInputs := by
  intro i s u t hs hu hpoly hplatform hlc hdraws hmem h
  have hin : s.SameInputs (s.inputsOf i) u := ⟨hpoly, hplatform, hlc, hdraws, hmem⟩
  by_cases hi : WritesMemory i
  · obtain ⟨v, hv, herr, hout⟩ : ∃ v, exec i u = .next v ∧ v.err = t.err ∧
        (t.err = 0x00#8 → ∀ a, (s.outputOf i).Holds a → Memory.read v.mem a = Memory.read t.mem a) := by
      rcases hi with ⟨x, k, rfl⟩ | rfl
      · exact exec_pevalv_alike hin hs hu h
      · exact exec_interp_alike hin hs hu h
    refine ⟨v, hv, herr, fun hresult => ?_, hout⟩
    rw [exec_result_of_writesMemory hi h, exec_result_of_writesMemory hi hv]
    refine hresult.resolve_right fun ⟨_, hp, hn⟩ => ?_
    rcases hi with ⟨x, k, rfl⟩ | rfl
    · exact hp x k rfl
    · exact hn rfl
  · have hnone : ∀ a, ¬ (s.outputOf i).Holds a := by
      rw [s.outputOf_of_not_writesMemory hi]
      exact ByteRange.not_holds_empty 0
    have hself := State.SameInputs.refl (s.inputsOf i) s
    rcases exec_scalar_cases hi s with ⟨e, -, hc⟩ | ⟨r, hc⟩ | hf
    · cases (hc s hself).symm.trans h
      exact ⟨_, hc u hin, rfl, fun hresult => hresult.resolve_right fun ⟨hok, _⟩ => e.code_ne_zero hok,
        fun _ a ha => absurd ha (hnone a)⟩
    · obtain ⟨w, hw, hwerr, hwresult⟩ := hc s hself
      obtain ⟨v, hv, hverr, hvresult⟩ := hc u hin
      cases hw.symm.trans h
      exact ⟨v, hv, hverr.trans hwerr.symm, fun _ => hvresult.trans hwresult.symm, fun _ a ha => absurd ha (hnone a)⟩
    · cases hf.symm.trans h

end Sys2Proof.Machine

/-! ## Commands run on their latched arguments (R44, R248)

No condition and no value of a command mentions the argument registers. So with other values in them a command takes the same
branch, and the two ends differ in these registers only: once the change of registers stands at each branch, both sides are
equal by definition. -/

namespace Sys2Proof.Machine

/-- The state with other values in the argument registers, as a host's writes leave it (R41 to R43). -/
def State.withArgs (a b : Word) (n : Half) (s : State) : State := { s with argA := a, argB := b, argN := n }

/-- The outcome of a command with other values in the argument registers of the state in which it ends. -/
def outcomeWithArgs (a b : Word) (n : Half) : Host.Outcome State Fault Refusal → Host.Outcome State Fault Refusal
  | .next t => .next (t.withArgs a b n)
  | .fault f => .fault f
  | .refused r => .refused r

section
variable (a b : Word) (n : Half) (s : State)

theorem State.afterTable_withArgs : (s.withArgs a b n).afterTable = s.afterTable.withArgs a b n := by
  rw [State.afterTable_eq, State.afterTable_eq]
  rfl

theorem State.raiseChecked_withArgs (e : ErrorKind) (ins : List ByteRange) (out : ByteRange) :
    (s.withArgs a b n).raiseChecked e ins out = (s.raiseChecked e ins out).withArgs a b n := by
  have hopen : (s.withArgs a b n).outputIsOpen ins out = s.outputIsOpen ins out := rfl
  rw [State.raiseChecked, State.raiseChecked, hopen]
  cases s.outputIsOpen ins out <;> rfl

theorem State.outputPhase_withArgs (ins : List ByteRange) (out : ByteRange) (vals : List Byte) :
    (s.withArgs a b n).outputPhase ins out vals = outcomeWithArgs a b n (s.outputPhase ins out vals) := by
  simp only [State.outputPhase, apply_ite (outcomeWithArgs a b n)]
  rfl

theorem State.afterChecks_withArgs (failed : Option ErrorKind) (ins : List ByteRange) (out : ByteRange)
    (vals : List Byte) : (s.withArgs a b n).afterChecks failed ins out vals =
      outcomeWithArgs a b n (s.afterChecks failed ins out vals) := by
  cases failed with
  | some e => exact congrArg _ (s.raiseChecked_withArgs a b n e ins out)
  | none => exact s.outputPhase_withArgs a b n ins out vals

theorem execInterp_withArgs : execInterp (s.withArgs a b n) = outcomeWithArgs a b n (execInterp s) := by
  have hchecks := s.afterTable.afterChecks_withArgs a b n s.interpCheck s.interpRanges s.interpOutput s.interpValues
  rw [← State.afterTable_withArgs] at hchecks
  simp only [execInterp, apply_ite (outcomeWithArgs a b n), ← hchecks]
  rfl

/-- No command reads the argument registers, and none writes them (R44). -/
theorem exec_withArgs (i : Instr) : exec i (s.withArgs a b n) = outcomeWithArgs a b n (exec i s) := by
  cases i with
  | add | mul | pow | exp => rfl
  | div | inv | log | peval =>
    simp only [exec, execDiv, execInv, execLog, execPeval, apply_ite (outcomeWithArgs a b n)]
    rfl
  | pevalv x k => exact s.afterChecks_withArgs a b n (s.pevalvCheck x k) _ _ (s.pevalvValues x k)
  | interp => exact execInterp_withArgs a b n s

end

/-- Settles O38: `exec` commutes with any change of the argument registers. -/
theorem commandsRunOnLatchedArguments : Obligations.CommandsRunOnLatchedArguments := by
  intro i s a b n
  have h : exec i (s.withArgs a b n) = outcomeWithArgs a b n (exec i s) := exec_withArgs a b n s i
  exact ⟨fun t ht => h.trans (congrArg _ ht), fun f hf => h.trans (congrArg _ hf)⟩

end Sys2Proof.Machine

/-! ## The end of a running command (R210, R211, R252) -/

namespace Sys2Proof.Machine

/-- The latched command ends with `LC` idle and no range spoiled. -/
theorem State.runLatched_ends {s t : State} (h : s.runLatched = .next t) :
    t.busy = false ∧ t.lc = Latched.idle ∧ t.spoiled = [] := by
  obtain ⟨u, vals, -, -, -, rfl | ⟨e, rfl, -⟩⟩ := State.runLatched_next h <;> exact ⟨rfl, rfl, rfl⟩

/-- The core's turn ends the latched command, whether a broken host duty spoils its completion or not. -/
theorem State.coreTurn_ends {s t : State} (hb : s.busy = true) (h : s.runLatched = .next t) :
    ∃ u, s.coreTurn = .next u ∧ u.busy = false ∧ u.lc = Latched.idle ∧ u.spoiled = [] := by
  have hends := State.runLatched_ends h
  by_cases hs : s.spoiled = []
  · exact ⟨t, (State.coreTurn_busy hb hs).trans h, hends⟩
  · refine ⟨s.spoilCompletion t, State.coreTurn_spoils hb hs h, ?_⟩
    rw [State.spoilCompletion_eq]
    exact hends

/-- The latched command, an illegal word among them, completes where no access of its ranges reaches the register window
(R70). -/
theorem State.runLatched_completes {s : State} (hin : ∀ r ∈ s.latchedInputs, s.platform.NoWindow .read r)
    (hout : s.platform.NoWindow .write s.latchedOutput) : ∃ t, s.runLatched = .next t := by
  cases hd : s.lc.decode with
  | error e => exact ⟨_, State.runLatched_error hd⟩
  | ok i =>
    simp only [State.latchedInputs, State.latchedOutput, hd] at hin hout
    rw [State.runLatched_ok hd]
    obtain ⟨-, hcompletes, -⟩ := onlyTheWindowStopsACommand
    exact hcompletes i s hin hout

/-- Settles O42: the latched command completes, and the core's turn ends it. -/
theorem everyRunningCommandCompletes : Obligations.EveryRunningCommandCompletes := by
  intro s s' hb hin hout hmove
  rw [step_core hmove, hmove.same]
  obtain ⟨t, hrun⟩ := State.runLatched_completes (s := { s with inputs := s'.inputs }) hin hout
  exact State.coreTurn_ends hb hrun

end Sys2Proof.Machine

/-! ## When RESULT and ERR change (R241, R247) -/

namespace Sys2Proof.Machine

/-- The step from `s` to `t` leaves `RESULT` and `ERR`. -/
def State.SameReport (s t : State) : Prop := t.result = s.result ∧ t.err = s.err

theorem State.writeCtrl_report (s : State) (v : Word) :
    s.SameReport (s.writeCtrl v) ∨ (v.getLsbD 0 = true ∧ s.writeCtrl v = s.coreReset) := by
  rcases s.writeCtrl_cases v with hreset | ⟨-, -, h⟩ | ⟨-, -, h⟩
  · exact .inr hreset
  · exact .inl (by rw [h]; exact ⟨rfl, rfl⟩)
  · exact .inl (by rw [h]; exact ⟨rfl, rfl⟩)

theorem State.writeCmd_report (s : State) (w : Word) : s.SameReport (s.writeCmd w) := by
  rcases s.writeCmd_cases w with ⟨-, h⟩ | ⟨-, h⟩ <;> rw [h] <;> exact ⟨rfl, rfl⟩

/-- Of the register writes only the soft reset changes `RESULT` or `ERR` (R35, R241). -/
theorem State.regWrite_report (s : State) (v : Word) (r : Reg) :
    s.SameReport (s.regWrite v r) ∨ (r = .ctrl ∧ v.getLsbD 0 = true ∧ s.regWrite v r = s.coreReset) := by
  rcases s.regWrite_cases v r with h | ⟨hr, h⟩ | ⟨-, h⟩ | h | h | h <;> rw [h]
  case inr.inl => exact (s.writeCtrl_report v).imp_right fun hreset => ⟨hr, hreset⟩
  case inr.inr.inl => exact .inl (s.writeCmd_report v)
  all_goals exact .inl ⟨rfl, rfl⟩

/-- Of the accesses of hosts only the soft reset changes `RESULT` or `ERR`. -/
theorem State.hostAccess_report {s t : State} {h : HostAccess} (hn : s.hostAccess h = .next t) :
    s.SameReport t ∨ (t.busy = false ∧ ∃ v : Word, v.toNat % 2 = 1 ∧ s.platform.regBase % 4 = 0 ∧
      s.inReset = false ∧ h = .regWrite (s.platform.regBase + 0x04) .word v) := by
  rcases State.hostAccess_next hn with ⟨-, rfl⟩ | ⟨r, rfl⟩ | ⟨a, -, -, -, rfl⟩ | ⟨a, -, rfl⟩ | ⟨a, v, -, rfl⟩ |
    ⟨addr, w, v, r, rfl, hr, rfl⟩
  case inr.inr.inr.inr.inr =>
    refine (s.regWrite_report v r).imp_right fun ⟨hctrl, hv, hreset⟩ => ?_
    obtain ⟨off, rfl, hoff, -, haligned, rfl, hreleased, rfl⟩ := State.registerAt_ok hr
    obtain rfl := Reg.atOffset_ctrl hoff hctrl
    rw [Word.bit0, decide_eq_true_eq] at hv
    exact ⟨by rw [hreset]; rfl, v, hv, by omega, hreleased, rfl⟩
  all_goals exact .inl ⟨rfl, rfl⟩

/-- The core's turn changes `RESULT` or `ERR` only where it ends a command (R247). -/
theorem State.coreTurn_report {s t : State} (h : s.coreTurn = .next t) :
    s.SameReport t ∨ (t.busy = false ∧ s.busy = true) := by
  rcases State.coreTurn_frame h with ⟨-, rfl⟩ | ⟨hb, hframe⟩
  · exact .inl ⟨rfl, rfl⟩
  · exact .inr ⟨hframe.busy, hb⟩

/-- A step that changes `RESULT` or `ERR` leaves the core idle, and a command ran before it or it is a reset. -/
theorem step_report {s t : State} (h : step s = .next t) :
    s.SameReport t ∨ (t.busy = false ∧ (s.busy = true ∨ ∃ rest, s.NextIsReset rest)) := by
  rcases step_next h with ⟨-, h⟩ | ⟨rest, -, h⟩ | ⟨a, rest, hin, h⟩ | ⟨rest, hin, rfl⟩ | ⟨rest, -, rfl⟩
  · exact (State.coreTurn_report h).imp_right fun ⟨hidle, hb⟩ => ⟨hidle, .inl hb⟩
  · exact (State.coreTurn_report h).imp_right fun ⟨hidle, hb⟩ => ⟨hidle, .inl hb⟩
  · refine (State.hostAccess_report h).imp_right fun ⟨hidle, v, hv, hbase, hreleased, ha⟩ => ⟨hidle, .inr ⟨rest, .inr ?_⟩⟩
    subst ha
    exact ⟨v, hv, by decide, by decide, hbase, hreleased, hin⟩
  · exact .inr ⟨rfl, .inr ⟨rest, .inl hin⟩⟩
  · exact .inl ⟨rfl, rfl⟩

/-- Settles O44: where `RESULT` or `ERR` changes, no command runs afterwards, and before it one ran or a reset came. -/
theorem resultAndErrChangeOnlyAtCompletion : Obligations.ResultAndErrChangeOnlyAtCompletion := by
  intro s t h
  rcases step_report h with hsame | ⟨hidle, hends⟩
  · exact ⟨fun _ => hsame, fun _ _ => hsame⟩
  · refine ⟨fun hb => ?_, fun hb hnone => ?_⟩
    · rw [hidle] at hb
      cases hb
    · rcases hends with hbusy | ⟨rest, hreset⟩
      · rw [hb] at hbusy
        cases hbusy
      · exact absurd hreset (hnone rest)

end Sys2Proof.Machine

/-! ## Reset (R240 to R243) -/

namespace Sys2Proof.Machine

/-- Settles O55: the registers and the memory that the reset of a busy core leaves, by its output range. -/
theorem resetWhileRunningLeavesTheOutputOpen : Obligations.ResetWhileRunningLeavesTheOutputOpen := by
  intro s rest hwf hb hreset
  obtain ⟨inReset, hstep⟩ := step_reset hreset
  obtain ⟨-, -, hout, hopen⟩ := State.coreReset_memory (s := { s with inputs := rest }) hwf
  refine ⟨fun i hdecode => by simp only [State.latchedOutput, hdecode], _, hstep, rfl, rfl, hopen hb, ?_⟩
  refine fun a ha hspoiled => hout a fun r hr => ?_
  rcases List.mem_cons.1 hr with rfl | hr
  · exact ha
  · exact hspoiled r hr

/-- A reset of an idle core leaves memory (R241). -/
theorem State.coreReset_mem_of_idle {s : State} (hb : s.busy = false) : s.coreReset.mem = s.mem := by
  rw [State.coreReset_mem, State.abortRunning_of_idle hb]

/-- Settles O54, by the fields that a reset leaves. -/
theorem resetEffect : Obligations.ResetEffect := by
  intro s rest hreset
  obtain ⟨inReset, hstep⟩ := step_reset hreset
  refine ⟨_, hstep, rfl, rfl, rfl, rfl, rfl, rfl, rfl, rfl, State.coreReset_poly _, State.coreReset_platform _,
    fun hb => ?_, State.coreReset_inputs _, State.coreReset_replies _⟩
  exact State.coreReset_mem_of_idle (s := { s with inputs := rest }) hb

/-- The registers that a reset leaves are those of the reset state (R241). -/
theorem State.coreReset_windowValue (s : State) (off : Nat) :
    s.coreReset.windowValue off = (State.resetOf s.poly s.platform).windowValue off := by
  simp [State.windowValue, State.resetOf]

/-- The assertion of the reset input as a whole step (R240). -/
theorem step_resetAssert {s : State} {rest : List Input} (hin : s.inputs = .resetAssert :: rest) :
    step s = .next (State.assertReset { s with inputs := rest }) := by
  simp only [step, hin]

/-- The release of the reset input as a whole step (R243). -/
theorem step_resetRelease {s : State} {rest : List Input} (hin : s.inputs = .resetRelease :: rest) :
    step s = .next (State.releaseReset { s with inputs := rest }) := by
  simp only [step, hin]

/-- Settles O56: the assertion leaves the registers of the reset state, and the release changes none. -/
theorem releasedResetLeavesTheResetState : Obligations.ReleasedResetLeavesTheResetState := fun s rest hin =>
  ⟨_, _, step_resetAssert hin, rfl, rfl, step_resetRelease (State.assertReset_inputs _), rfl, rfl, rfl,
    State.coreReset_windowValue { s with inputs := .resetRelease :: rest }⟩

/-- Settles O59: no command runs in the reset state, and its memory lists nothing. -/
theorem invariantHoldsAtReset : Obligations.InvariantHoldsAtReset := fun _ _ =>
  State.inv_of_ended rfl (Nat.zero_le 9) rfl rfl rfl

end Sys2Proof.Machine
